-- ==== Sys2Proof/Word.lean ====
section
/-! DEFINITION. The plainest words of the model: a byte of program text, a text, and the lane of a thread.
The hardware has no machine word (`00_scope.md` R7): its instructions are text, and its registers get their
widths from their declared types (`10_state.md` R23), in `Machine/State.lean`. -/

namespace Sys2Proof

/-- One byte of program text, an ASCII code (log entry 9). -/
abbrev Byte := BitVec 8

/-- A piece of program text. -/
abbrev Text := List Byte

/-- The text spelled by a list of characters. -/
def txt (cs : List Char) : Text := cs.map (fun c => BitVec.ofNat 8 c.toNat)

/-- A lane number, 0 to 31: the value of `%laneid` of a thread (`00_scope.md` R8, `10_state.md` R24). -/
abbrev Lane := Fin 32

/-- All lanes of the warp, in increasing order (`40_mma_common.md` R89). -/
def lanes : List Lane := List.finRange 32

end Sys2Proof
end

