-- ==== Sys2Proof/Syntax.lean ====
section
/-! DEFINITION. The syntax, whole: the fields of `30_encoding.md` R57, the term `MmaTerm` in which every combination
of them can be written down (R64 says which are admitted), and `Instr`, one constructor for each row of
`spec/opcode_table.json`. -/

namespace Sys2Proof

/-- A register name as the program text spells it (`10_state.md` R21). -/
abbrev RegName := Text

/-- A vector expression of registers, in order (`30_encoding.md` R62). -/
abbrev Vec := List RegName

/-- The two values of A's and of B's layout field (`30_encoding.md` R57). -/
inductive Layout
  | row
  | col
  deriving DecidableEq, Repr

/-- The shape field (`30_encoding.md` R57); `other` holds any text that names none of the three shapes. -/
inductive Shape
  | m8n8k4
  | m8n8k16
  | m8n8k32
  | other (text : Text)
  deriving DecidableEq, Repr

/-- The values of the four type fields (`30_encoding.md` R57); `other` holds any text that is none of them. -/
inductive ElemType
  | f16
  | f32
  | f64
  | s32
  | s8
  | u8
  | s4
  | u4
  | other (text : Text)
  deriving DecidableEq, Repr

/-- The declared types of registers (`10_state.md` R23). `b64` is only the untyped-bits type that
`30_encoding.md` R64 (`operand_type`) names beside `.b32`: no operand role asks for it. -/
inductive RegType
  | f16x2
  | f32
  | f64
  | b32
  | s32
  | b64
  deriving DecidableEq, Repr

/-- An operand as written: a vector of registers, or anything else, an immediate, an address, a label
(`30_encoding.md` R70). -/
inductive Operand
  | regs (v : Vec)
  | other (text : Text)
  deriving DecidableEq, Repr

/-- The qualifiers of one form: the fields of `30_encoding.md` R57 that the mnemonic spells, with both layout
fields present. -/
structure Quals where
  shape : Shape
  alayout : Layout
  blayout : Layout
  satfinite : Bool
  dtype : ElemType
  atype : ElemType
  btype : ElemType
  ctype : ElemType
  deriving DecidableEq, Repr

/-- A statement of the format `TEXT-MMA` as written, admitted or not (`30_encoding.md` R55, R57, R64). -/
structure MmaTerm where
  /-- the statement carries a guard predicate (R65) -/
  guarded : Bool
  /-- `.sync` is present (R59) -/
  sync : Bool
  /-- `.aligned` is present (R59) -/
  aligned : Bool
  shape : Shape
  /-- `none`: no `.row` or `.col` stands in the place of A's layout -/
  alayout : Option Layout
  /-- `none`: no `.row` or `.col` stands in the place of B's layout -/
  blayout : Option Layout
  satfinite : Bool
  dtype : ElemType
  atype : ElemType
  btype : ElemType
  ctype : ElemType
  /-- a qualifier stands where the format has no place for one -/
  extraQualifier : Bool
  d : Operand
  a : Operand
  b : Operand
  c : Operand
  /-- there are not exactly four operands, or the statement does not end with its one `;` (R62) -/
  extraOperand : Bool
  deriving DecidableEq, Repr

/-- The three instructions the source names and does not describe (`45_named_not_described.md` R185 to R187). -/
inductive NamedOnly
  | ldmatrix
  | stmatrix
  | movmatrix
  deriving DecidableEq, Repr

/-- A statement of program text after parsing, before any check. -/
inductive Stmt
  | mma (t : MmaTerm)
  | named (n : NamedOnly)
  | unknown (word : Text)
  deriving DecidableEq, Repr

/-- The four operand vectors of an `mma` (`30_encoding.md` R62). -/
structure Operands where
  d : Vec
  a : Vec
  b : Vec
  c : Vec
  deriving DecidableEq, Repr

/-- The source registers in the order in which `40_mma_common.md` R89 reads them. -/
def Operands.sources (o : Operands) : List RegName := o.a ++ o.b ++ o.c

/-- The instructions: one constructor for each row of `spec/opcode_table.json`, in the table's order
(`30_encoding.md` R66). -/
inductive Instr
  /-- `mma.sync.aligned.m8n8k4.row.row.f16.f16.f16.f16` (R112) -/
  | m8n8k4RowRowF16F16 (d a b c : Vec)
  /-- `mma.sync.aligned.m8n8k4.row.row.f16.f16.f16.f32` (R113) -/
  | m8n8k4RowRowF16F32 (d a b c : Vec)
  /-- `mma.sync.aligned.m8n8k4.row.row.f32.f16.f16.f16` (R114) -/
  | m8n8k4RowRowF32F16 (d a b c : Vec)
  /-- `mma.sync.aligned.m8n8k4.row.row.f32.f16.f16.f32` (R115) -/
  | m8n8k4RowRowF32F32 (d a b c : Vec)
  /-- `mma.sync.aligned.m8n8k4.row.col.f16.f16.f16.f16` (R112) -/
  | m8n8k4RowColF16F16 (d a b c : Vec)
  /-- `mma.sync.aligned.m8n8k4.row.col.f16.f16.f16.f32` (R113) -/
  | m8n8k4RowColF16F32 (d a b c : Vec)
  /-- `mma.sync.aligned.m8n8k4.row.col.f32.f16.f16.f16` (R114) -/
  | m8n8k4RowColF32F16 (d a b c : Vec)
  /-- `mma.sync.aligned.m8n8k4.row.col.f32.f16.f16.f32` (R115) -/
  | m8n8k4RowColF32F32 (d a b c : Vec)
  /-- `mma.sync.aligned.m8n8k4.col.row.f16.f16.f16.f16` (R112) -/
  | m8n8k4ColRowF16F16 (d a b c : Vec)
  /-- `mma.sync.aligned.m8n8k4.col.row.f16.f16.f16.f32` (R113) -/
  | m8n8k4ColRowF16F32 (d a b c : Vec)
  /-- `mma.sync.aligned.m8n8k4.col.row.f32.f16.f16.f16` (R114) -/
  | m8n8k4ColRowF32F16 (d a b c : Vec)
  /-- `mma.sync.aligned.m8n8k4.col.row.f32.f16.f16.f32` (R115) -/
  | m8n8k4ColRowF32F32 (d a b c : Vec)
  /-- `mma.sync.aligned.m8n8k4.col.col.f16.f16.f16.f16` (R112) -/
  | m8n8k4ColColF16F16 (d a b c : Vec)
  /-- `mma.sync.aligned.m8n8k4.col.col.f16.f16.f16.f32` (R113) -/
  | m8n8k4ColColF16F32 (d a b c : Vec)
  /-- `mma.sync.aligned.m8n8k4.col.col.f32.f16.f16.f16` (R114) -/
  | m8n8k4ColColF32F16 (d a b c : Vec)
  /-- `mma.sync.aligned.m8n8k4.col.col.f32.f16.f16.f32` (R115) -/
  | m8n8k4ColColF32F32 (d a b c : Vec)
  /-- `mma.sync.aligned.m8n8k4.row.col.f64.f64.f64.f64` (R135) -/
  | m8n8k4F64 (d a b c : Vec)
  /-- `mma.sync.aligned.m8n8k16.row.col.s32.s8.s8.s32` (R152) -/
  | m8n8k16S8S8 (d a b c : Vec)
  /-- `mma.sync.aligned.m8n8k16.row.col.satfinite.s32.s8.s8.s32` (R152) -/
  | m8n8k16SatfiniteS8S8 (d a b c : Vec)
  /-- `mma.sync.aligned.m8n8k16.row.col.s32.s8.u8.s32` (R153) -/
  | m8n8k16S8U8 (d a b c : Vec)
  /-- `mma.sync.aligned.m8n8k16.row.col.satfinite.s32.s8.u8.s32` (R153) -/
  | m8n8k16SatfiniteS8U8 (d a b c : Vec)
  /-- `mma.sync.aligned.m8n8k16.row.col.s32.u8.s8.s32` (R154) -/
  | m8n8k16U8S8 (d a b c : Vec)
  /-- `mma.sync.aligned.m8n8k16.row.col.satfinite.s32.u8.s8.s32` (R154) -/
  | m8n8k16SatfiniteU8S8 (d a b c : Vec)
  /-- `mma.sync.aligned.m8n8k16.row.col.s32.u8.u8.s32` (R155) -/
  | m8n8k16U8U8 (d a b c : Vec)
  /-- `mma.sync.aligned.m8n8k16.row.col.satfinite.s32.u8.u8.s32` (R155) -/
  | m8n8k16SatfiniteU8U8 (d a b c : Vec)
  /-- `mma.sync.aligned.m8n8k32.row.col.s32.s4.s4.s32` (R172) -/
  | m8n8k32S4S4 (d a b c : Vec)
  /-- `mma.sync.aligned.m8n8k32.row.col.satfinite.s32.s4.s4.s32` (R172) -/
  | m8n8k32SatfiniteS4S4 (d a b c : Vec)
  /-- `mma.sync.aligned.m8n8k32.row.col.s32.s4.u4.s32` (R173) -/
  | m8n8k32S4U4 (d a b c : Vec)
  /-- `mma.sync.aligned.m8n8k32.row.col.satfinite.s32.s4.u4.s32` (R173) -/
  | m8n8k32SatfiniteS4U4 (d a b c : Vec)
  /-- `mma.sync.aligned.m8n8k32.row.col.s32.u4.s4.s32` (R174) -/
  | m8n8k32U4S4 (d a b c : Vec)
  /-- `mma.sync.aligned.m8n8k32.row.col.satfinite.s32.u4.s4.s32` (R174) -/
  | m8n8k32SatfiniteU4S4 (d a b c : Vec)
  /-- `mma.sync.aligned.m8n8k32.row.col.s32.u4.u4.s32` (R175) -/
  | m8n8k32U4U4 (d a b c : Vec)
  /-- `mma.sync.aligned.m8n8k32.row.col.satfinite.s32.u4.u4.s32` (R175) -/
  | m8n8k32SatfiniteU4U4 (d a b c : Vec)
  /-- `ldmatrix` (R185) -/
  | ldmatrix
  /-- `stmatrix` (R186) -/
  | stmatrix
  /-- `movmatrix` (R187) -/
  | movmatrix
  deriving DecidableEq, Repr

/-- The qualifiers of each row and its operands; `Sum.inr` for the three named instructions, which have no form. -/
def Instr.form : Instr → (Quals × Operands) ⊕ NamedOnly
  | .m8n8k4RowRowF16F16 d a b c => .inl (⟨.m8n8k4, .row, .row, false, .f16, .f16, .f16, .f16⟩, ⟨d, a, b, c⟩)
  | .m8n8k4RowRowF16F32 d a b c => .inl (⟨.m8n8k4, .row, .row, false, .f16, .f16, .f16, .f32⟩, ⟨d, a, b, c⟩)
  | .m8n8k4RowRowF32F16 d a b c => .inl (⟨.m8n8k4, .row, .row, false, .f32, .f16, .f16, .f16⟩, ⟨d, a, b, c⟩)
  | .m8n8k4RowRowF32F32 d a b c => .inl (⟨.m8n8k4, .row, .row, false, .f32, .f16, .f16, .f32⟩, ⟨d, a, b, c⟩)
  | .m8n8k4RowColF16F16 d a b c => .inl (⟨.m8n8k4, .row, .col, false, .f16, .f16, .f16, .f16⟩, ⟨d, a, b, c⟩)
  | .m8n8k4RowColF16F32 d a b c => .inl (⟨.m8n8k4, .row, .col, false, .f16, .f16, .f16, .f32⟩, ⟨d, a, b, c⟩)
  | .m8n8k4RowColF32F16 d a b c => .inl (⟨.m8n8k4, .row, .col, false, .f32, .f16, .f16, .f16⟩, ⟨d, a, b, c⟩)
  | .m8n8k4RowColF32F32 d a b c => .inl (⟨.m8n8k4, .row, .col, false, .f32, .f16, .f16, .f32⟩, ⟨d, a, b, c⟩)
  | .m8n8k4ColRowF16F16 d a b c => .inl (⟨.m8n8k4, .col, .row, false, .f16, .f16, .f16, .f16⟩, ⟨d, a, b, c⟩)
  | .m8n8k4ColRowF16F32 d a b c => .inl (⟨.m8n8k4, .col, .row, false, .f16, .f16, .f16, .f32⟩, ⟨d, a, b, c⟩)
  | .m8n8k4ColRowF32F16 d a b c => .inl (⟨.m8n8k4, .col, .row, false, .f32, .f16, .f16, .f16⟩, ⟨d, a, b, c⟩)
  | .m8n8k4ColRowF32F32 d a b c => .inl (⟨.m8n8k4, .col, .row, false, .f32, .f16, .f16, .f32⟩, ⟨d, a, b, c⟩)
  | .m8n8k4ColColF16F16 d a b c => .inl (⟨.m8n8k4, .col, .col, false, .f16, .f16, .f16, .f16⟩, ⟨d, a, b, c⟩)
  | .m8n8k4ColColF16F32 d a b c => .inl (⟨.m8n8k4, .col, .col, false, .f16, .f16, .f16, .f32⟩, ⟨d, a, b, c⟩)
  | .m8n8k4ColColF32F16 d a b c => .inl (⟨.m8n8k4, .col, .col, false, .f32, .f16, .f16, .f16⟩, ⟨d, a, b, c⟩)
  | .m8n8k4ColColF32F32 d a b c => .inl (⟨.m8n8k4, .col, .col, false, .f32, .f16, .f16, .f32⟩, ⟨d, a, b, c⟩)
  | .m8n8k4F64 d a b c => .inl (⟨.m8n8k4, .row, .col, false, .f64, .f64, .f64, .f64⟩, ⟨d, a, b, c⟩)
  | .m8n8k16S8S8 d a b c => .inl (⟨.m8n8k16, .row, .col, false, .s32, .s8, .s8, .s32⟩, ⟨d, a, b, c⟩)
  | .m8n8k16SatfiniteS8S8 d a b c => .inl (⟨.m8n8k16, .row, .col, true, .s32, .s8, .s8, .s32⟩, ⟨d, a, b, c⟩)
  | .m8n8k16S8U8 d a b c => .inl (⟨.m8n8k16, .row, .col, false, .s32, .s8, .u8, .s32⟩, ⟨d, a, b, c⟩)
  | .m8n8k16SatfiniteS8U8 d a b c => .inl (⟨.m8n8k16, .row, .col, true, .s32, .s8, .u8, .s32⟩, ⟨d, a, b, c⟩)
  | .m8n8k16U8S8 d a b c => .inl (⟨.m8n8k16, .row, .col, false, .s32, .u8, .s8, .s32⟩, ⟨d, a, b, c⟩)
  | .m8n8k16SatfiniteU8S8 d a b c => .inl (⟨.m8n8k16, .row, .col, true, .s32, .u8, .s8, .s32⟩, ⟨d, a, b, c⟩)
  | .m8n8k16U8U8 d a b c => .inl (⟨.m8n8k16, .row, .col, false, .s32, .u8, .u8, .s32⟩, ⟨d, a, b, c⟩)
  | .m8n8k16SatfiniteU8U8 d a b c => .inl (⟨.m8n8k16, .row, .col, true, .s32, .u8, .u8, .s32⟩, ⟨d, a, b, c⟩)
  | .m8n8k32S4S4 d a b c => .inl (⟨.m8n8k32, .row, .col, false, .s32, .s4, .s4, .s32⟩, ⟨d, a, b, c⟩)
  | .m8n8k32SatfiniteS4S4 d a b c => .inl (⟨.m8n8k32, .row, .col, true, .s32, .s4, .s4, .s32⟩, ⟨d, a, b, c⟩)
  | .m8n8k32S4U4 d a b c => .inl (⟨.m8n8k32, .row, .col, false, .s32, .s4, .u4, .s32⟩, ⟨d, a, b, c⟩)
  | .m8n8k32SatfiniteS4U4 d a b c => .inl (⟨.m8n8k32, .row, .col, true, .s32, .s4, .u4, .s32⟩, ⟨d, a, b, c⟩)
  | .m8n8k32U4S4 d a b c => .inl (⟨.m8n8k32, .row, .col, false, .s32, .u4, .s4, .s32⟩, ⟨d, a, b, c⟩)
  | .m8n8k32SatfiniteU4S4 d a b c => .inl (⟨.m8n8k32, .row, .col, true, .s32, .u4, .s4, .s32⟩, ⟨d, a, b, c⟩)
  | .m8n8k32U4U4 d a b c => .inl (⟨.m8n8k32, .row, .col, false, .s32, .u4, .u4, .s32⟩, ⟨d, a, b, c⟩)
  | .m8n8k32SatfiniteU4U4 d a b c => .inl (⟨.m8n8k32, .row, .col, true, .s32, .u4, .u4, .s32⟩, ⟨d, a, b, c⟩)
  | .ldmatrix => .inr .ldmatrix
  | .stmatrix => .inr .stmatrix
  | .movmatrix => .inr .movmatrix

/-- The term of a form: both `.sync` and `.aligned`, no guard, nothing surplus. -/
def Quals.term (q : Quals) (o : Operands) : MmaTerm where
  guarded := false
  sync := true
  aligned := true
  shape := q.shape
  alayout := some q.alayout
  blayout := some q.blayout
  satfinite := q.satfinite
  dtype := q.dtype
  atype := q.atype
  btype := q.btype
  ctype := q.ctype
  extraQualifier := false
  d := .regs o.d
  a := .regs o.a
  b := .regs o.b
  c := .regs o.c
  extraOperand := false

/-- An instruction as a parsed statement. -/
def Instr.stmt (i : Instr) : Stmt :=
  match i.form with
  | .inl (q, o) => .mma (q.term o)
  | .inr n => .named n

/-- The rows of the opcode table that are forms of `mma`, each with its constructor. -/
def mmaRows : List (Quals × (Vec → Vec → Vec → Vec → Instr)) := [
  (⟨.m8n8k4, .row, .row, false, .f16, .f16, .f16, .f16⟩, .m8n8k4RowRowF16F16),
  (⟨.m8n8k4, .row, .row, false, .f16, .f16, .f16, .f32⟩, .m8n8k4RowRowF16F32),
  (⟨.m8n8k4, .row, .row, false, .f32, .f16, .f16, .f16⟩, .m8n8k4RowRowF32F16),
  (⟨.m8n8k4, .row, .row, false, .f32, .f16, .f16, .f32⟩, .m8n8k4RowRowF32F32),
  (⟨.m8n8k4, .row, .col, false, .f16, .f16, .f16, .f16⟩, .m8n8k4RowColF16F16),
  (⟨.m8n8k4, .row, .col, false, .f16, .f16, .f16, .f32⟩, .m8n8k4RowColF16F32),
  (⟨.m8n8k4, .row, .col, false, .f32, .f16, .f16, .f16⟩, .m8n8k4RowColF32F16),
  (⟨.m8n8k4, .row, .col, false, .f32, .f16, .f16, .f32⟩, .m8n8k4RowColF32F32),
  (⟨.m8n8k4, .col, .row, false, .f16, .f16, .f16, .f16⟩, .m8n8k4ColRowF16F16),
  (⟨.m8n8k4, .col, .row, false, .f16, .f16, .f16, .f32⟩, .m8n8k4ColRowF16F32),
  (⟨.m8n8k4, .col, .row, false, .f32, .f16, .f16, .f16⟩, .m8n8k4ColRowF32F16),
  (⟨.m8n8k4, .col, .row, false, .f32, .f16, .f16, .f32⟩, .m8n8k4ColRowF32F32),
  (⟨.m8n8k4, .col, .col, false, .f16, .f16, .f16, .f16⟩, .m8n8k4ColColF16F16),
  (⟨.m8n8k4, .col, .col, false, .f16, .f16, .f16, .f32⟩, .m8n8k4ColColF16F32),
  (⟨.m8n8k4, .col, .col, false, .f32, .f16, .f16, .f16⟩, .m8n8k4ColColF32F16),
  (⟨.m8n8k4, .col, .col, false, .f32, .f16, .f16, .f32⟩, .m8n8k4ColColF32F32),
  (⟨.m8n8k4, .row, .col, false, .f64, .f64, .f64, .f64⟩, .m8n8k4F64),
  (⟨.m8n8k16, .row, .col, false, .s32, .s8, .s8, .s32⟩, .m8n8k16S8S8),
  (⟨.m8n8k16, .row, .col, true, .s32, .s8, .s8, .s32⟩, .m8n8k16SatfiniteS8S8),
  (⟨.m8n8k16, .row, .col, false, .s32, .s8, .u8, .s32⟩, .m8n8k16S8U8),
  (⟨.m8n8k16, .row, .col, true, .s32, .s8, .u8, .s32⟩, .m8n8k16SatfiniteS8U8),
  (⟨.m8n8k16, .row, .col, false, .s32, .u8, .s8, .s32⟩, .m8n8k16U8S8),
  (⟨.m8n8k16, .row, .col, true, .s32, .u8, .s8, .s32⟩, .m8n8k16SatfiniteU8S8),
  (⟨.m8n8k16, .row, .col, false, .s32, .u8, .u8, .s32⟩, .m8n8k16U8U8),
  (⟨.m8n8k16, .row, .col, true, .s32, .u8, .u8, .s32⟩, .m8n8k16SatfiniteU8U8),
  (⟨.m8n8k32, .row, .col, false, .s32, .s4, .s4, .s32⟩, .m8n8k32S4S4),
  (⟨.m8n8k32, .row, .col, true, .s32, .s4, .s4, .s32⟩, .m8n8k32SatfiniteS4S4),
  (⟨.m8n8k32, .row, .col, false, .s32, .s4, .u4, .s32⟩, .m8n8k32S4U4),
  (⟨.m8n8k32, .row, .col, true, .s32, .s4, .u4, .s32⟩, .m8n8k32SatfiniteS4U4),
  (⟨.m8n8k32, .row, .col, false, .s32, .u4, .s4, .s32⟩, .m8n8k32U4S4),
  (⟨.m8n8k32, .row, .col, true, .s32, .u4, .s4, .s32⟩, .m8n8k32SatfiniteU4S4),
  (⟨.m8n8k32, .row, .col, false, .s32, .u4, .u4, .s32⟩, .m8n8k32U4U4),
  (⟨.m8n8k32, .row, .col, true, .s32, .u4, .u4, .s32⟩, .m8n8k32SatfiniteU4U4)]

/-- The instruction of the row with these qualifiers, if the table has one. -/
def Quals.instr (q : Quals) (o : Operands) : Option Instr :=
  (mmaRows.find? (fun r => decide (r.1 = q))).map (fun r => r.2 o.d o.a o.b o.c)

/-- The instruction of a named word. -/
def NamedOnly.instr : NamedOnly → Instr
  | .ldmatrix => .ldmatrix
  | .stmatrix => .stmatrix
  | .movmatrix => .movmatrix

/-- The row an admitted term stands in, if its layout fields and operands have the form's shape. -/
def MmaTerm.instr (t : MmaTerm) : Option Instr :=
  match t.alayout, t.blayout, t.d, t.a, t.b, t.c with
  | some al, some bl, .regs d, .regs a, .regs b, .regs c =>
    Quals.instr ⟨t.shape, al, bl, t.satfinite, t.dtype, t.atype, t.btype, t.ctype⟩ ⟨d, a, b, c⟩
  | _, _, _, _, _, _ => none

end Sys2Proof
end

