-- ==== Sys2Proof/Config.lean ====
section
/-! DEFINITION. The configuration (`00_scope.md` R9, `10_state.md` R32): what is fixed for a run, read by the step
and never written. The numeric functions are constants without a body, so that nothing can be proved of their
values (R84); the other parameters are plain data. -/

namespace Sys2Proof

/-- `dot_f16_f16`: one cell of D, for `.dtype` = `.f16`, `.ctype` = `.f16` (R9, R84). -/
opaque Config.dotF16F16 : Vector (BitVec 16) 4 → Vector (BitVec 16) 4 → BitVec 16 → BitVec 16

/-- `dot_f16_f32`: one cell of D, for `.dtype` = `.f16`, `.ctype` = `.f32` (R9, R84). -/
opaque Config.dotF16F32 : Vector (BitVec 16) 4 → Vector (BitVec 16) 4 → BitVec 32 → BitVec 16

/-- `dot_f32_f16`: one cell of D, for `.dtype` = `.f32`, `.ctype` = `.f16` (R9, R84). -/
opaque Config.dotF32F16 : Vector (BitVec 16) 4 → Vector (BitVec 16) 4 → BitVec 16 → BitVec 32

/-- `dot_f32_f32`: one cell of D, for `.dtype` = `.f32`, `.ctype` = `.f32` (R9, R84). -/
opaque Config.dotF32F32 : Vector (BitVec 16) 4 → Vector (BitVec 16) 4 → BitVec 32 → BitVec 32

/-- `dot_f64`: one cell of D of the `.f64` family (R9, R84). -/
opaque Config.dotF64 : Vector (BitVec 64) 4 → Vector (BitVec 64) 4 → BitVec 64 → BitVec 64

/-- `isa_version`: which release of the instruction set; no rule reads it (R3, R9). -/
opaque Config.isaVersion : Text

/-- `nregs`: how many registers of each type a thread may declare; no rule reads it (R9, R21). -/
opaque Config.nregs : RegType → Option Nat

/-- The Boolean parameters of a run. -/
structure Params where
  /-- `admit_mixed_cd` (R9, `41_mma_m8n8k4_f16.md` R111) -/
  admitMixedCd : Bool
  /-- `admit_mixed_sign` (R9, `43_mma_m8n8k16.md` R151, `44_mma_m8n8k32.md` R171) -/
  admitMixedSign : Bool
  /-- the widening that `30_encoding.md` R64 permits in `operand_type`: a register of untyped bits of the same
  width is accepted. The model's own parameter (log entry 6). -/
  admitUntyped : Bool
  deriving DecidableEq, Repr

/-- The defaults: R9's for its two parameters; for the third, the widening that R64 permits is taken, so that nothing
is refused that R64 lets a model run (DESIGN CHOICE, log entry 6). -/
def Params.default : Params := ⟨true, true, true⟩

/-- One register declaration (`10_state.md` R21). -/
abbrev Decl := RegName × RegType

/-- The configuration of a run that is plain data: parameters, declarations and program text
(`10_state.md` R21, R26, R32). The program is a list of statements, each a text (`30_encoding.md` R55). -/
structure Setup where
  params : Params
  decls : List Decl
  program : List Text
  deriving DecidableEq, Repr

end Sys2Proof
end

