-- ==== Sys2Proof/WellFormed.lean ====
section
/-! DEFINITION. Well-formedness: the eleven named checks of `30_encoding.md` R64 in the order of its table, which is
the order in which they are reported (`60_exceptions.md` R194), and the two refusals that are no check of an `mma`
(`45_named_not_described.md` R185 to R187, R189). -/

namespace Sys2Proof

/-- The four operand places of an `mma`, and the statement as a whole. -/
inductive Slot
  | d
  | a
  | b
  | c
  | statement
  deriving DecidableEq, Repr

/-- The reasons for which a statement is refused: X1 to X13 of `60_exceptions.md` R191, with the value R191 says is
recorded. All are found at decode, before any step, and all err toward unprovable: safe. -/
inductive Reject
  /-- X1: `.sync` or `.aligned` is missing -/
  | qualifiers
  /-- X2: the shape is none of `m8n8k4`, `m8n8k16`, `m8n8k32`; the shape as written is recorded -/
  | shapeKnown (shape : Text)
  /-- X3: the types are no row of R63 -/
  | typeCombo
  /-- X4: `.ctype` differs from `.dtype` and `admit_mixed_cd` is false -/
  | mixedCd
  /-- X5: the signedness of `.atype` and `.btype` differs and `admit_mixed_sign` is false -/
  | mixedSign
  /-- X6: the layout qualifiers are not admitted for the family -/
  | layout
  /-- X7: `.satfinite` on a floating-point family -/
  | satfinite
  /-- X8: an operand is not a vector of register names of the right length -/
  | operandShape (slot : Slot)
  /-- X9: a register without the declared type its role needs -/
  | operandType (reg : RegName)
  /-- X10: a register repeated within `d` -/
  | destDistinct (reg : RegName)
  /-- X11: a guard predicate is present -/
  | noGuard
  /-- X12: the opcode word is `ldmatrix`, `stmatrix` or `movmatrix` -/
  | notDescribed (name : NamedOnly)
  /-- X13: any other opcode word -/
  | unknownOpcode (word : Text)
  deriving DecidableEq, Repr

/-- A character of a register name after the `%`: a letter, a digit, `_` or `$` (log entry 9). -/
def isNameByte (b : Byte) : Bool :=
  let n := b.toNat
  (48 ≤ n && n ≤ 57) || (65 ≤ n && n ≤ 90) || (97 ≤ n && n ≤ 122) || n == 95 || n == 36

/-- A register name: `%` and at least one more character (`10_state.md` R21, log entry 9). -/
def RegName.legal (r : RegName) : Bool :=
  match r with
  | [] => false
  | p :: rest => p == 37 && !rest.isEmpty && rest.all isNameByte

/-- The spelling of the special register of `10_state.md` R24. -/
def laneidName : RegName := txt ['%', 'l', 'a', 'n', 'e', 'i', 'd']

/-- The number of a declared general register: the place of its declaration. An undeclared name has none, nor has
`%laneid`, which is "not an operand of `mma`" (`10_state.md` R21, R24, R30). -/
def regIndex (ds : List Decl) (r : RegName) : Option Nat :=
  if RegName.legal r && r != laneidName then ds.findIdx? (fun d => d.1 == r) else none

/-- The declared type of a register (`10_state.md` R21). -/
def typeOf (ds : List Decl) (r : RegName) : Option RegType :=
  (regIndex ds r).bind (fun j => ds[j]?.map Prod.snd)

/-- The width of a register type in bits (`10_state.md` R23). -/
def RegType.width : RegType → Nat
  | .f16x2 | .f32 | .b32 | .s32 => 32
  | .f64 | .b64 => 64

/-- The declared type `declared` serves the role that asks for `want`: it is the same type, or, where the parameter
admits it, untyped bits of the same width (`30_encoding.md` R64 `operand_type`; `10_state.md` R23). -/
def RegType.fits (admitUntyped : Bool) (declared want : RegType) : Bool :=
  declared == want || (admitUntyped && (declared == .b32 || declared == .b64) && declared.width == want.width)

/-- Length and register type of each operand vector of a form (`30_encoding.md` R63). -/
structure Roles where
  d : Nat × RegType
  a : Nat × RegType
  b : Nat × RegType
  c : Nat × RegType
  deriving DecidableEq, Repr

/-- The accumulator row of R63 for the `m8n8k4`/`.f16` family, by its type. -/
def accRole : ElemType → Nat × RegType
  | .f16 => (4, .f16x2)
  | _ => (8, .f32)

/-- R63's table. It is read only after `type_combo` has passed, so every other combination may stand anywhere. -/
def roles (shape : Shape) (atype dtype ctype : ElemType) : Roles :=
  match shape with
  | .m8n8k4 =>
    match atype with
    | .f16 => ⟨accRole dtype, (2, .f16x2), (2, .f16x2), accRole ctype⟩
    | _ => ⟨(2, .f64), (1, .f64), (1, .f64), (2, .f64)⟩
  | _ => ⟨(2, .s32), (1, .b32), (1, .b32), (2, .s32)⟩

/-- The roles of a term's operands. -/
def MmaTerm.roles (t : MmaTerm) : Roles := Sys2Proof.roles t.shape t.atype t.dtype t.ctype

/-- Check `qualifiers` (R59, R64). -/
def checkQualifiers (t : MmaTerm) : Option Reject :=
  if t.sync && t.aligned then none else some .qualifiers

/-- Check `shape_known` (R2, R64, R188). -/
def checkShapeKnown (t : MmaTerm) : Option Reject :=
  match t.shape with
  | .other s => some (.shapeKnown s)
  | _ => none

/-- The type combinations of R63, as R64 (`type_combo`) lists them. -/
def typeComboOk (shape : Shape) (atype btype ctype dtype : ElemType) : Bool :=
  match shape with
  | .m8n8k4 =>
    (atype == .f16 && btype == .f16 && (ctype == .f16 || ctype == .f32) && (dtype == .f16 || dtype == .f32))
      || (atype == .f64 && btype == .f64 && ctype == .f64 && dtype == .f64)
  | .m8n8k16 =>
    (atype == .s8 || atype == .u8) && (btype == .s8 || btype == .u8) && ctype == .s32 && dtype == .s32
  | .m8n8k32 =>
    (atype == .s4 || atype == .u4) && (btype == .s4 || btype == .u4) && ctype == .s32 && dtype == .s32
  | .other _ => false

/-- Check `type_combo` (R63, R64). A qualifier the format has no place for fails it (log entry 8). -/
def checkTypeCombo (t : MmaTerm) : Option Reject :=
  if typeComboOk t.shape t.atype t.btype t.ctype t.dtype && !t.extraQualifier then none else some .typeCombo

/-- Check `mixed_cd` (R64, R111). -/
def checkMixedCd (p : Params) (t : MmaTerm) : Option Reject :=
  if t.shape == .m8n8k4 && t.atype == .f16 && t.ctype != t.dtype && !p.admitMixedCd then some .mixedCd else none

/-- A type name of a signed integer (`40_mma_common.md` R87). -/
def ElemType.signed : ElemType → Bool
  | .s8 | .s4 | .s32 => true
  | _ => false

/-- Check `mixed_sign` (R64, R151, R171). -/
def checkMixedSign (p : Params) (t : MmaTerm) : Option Reject :=
  if (t.shape == .m8n8k16 || t.shape == .m8n8k32) && t.atype.signed != t.btype.signed && !p.admitMixedSign then
    some .mixedSign
  else none

/-- Check `layout` (R58, R60, R61, R64): both fields present, and `.row.col` outside the `.f16` family. -/
def checkLayout (t : MmaTerm) : Option Reject :=
  if t.alayout.isSome && t.blayout.isSome
      && ((t.shape == .m8n8k4 && t.atype == .f16) || (t.alayout == some .row && t.blayout == some .col)) then none
  else some .layout

/-- Check `satfinite` (R61, R64). -/
def checkSatfinite (t : MmaTerm) : Option Reject :=
  if t.satfinite && !(t.shape == .m8n8k16 || t.shape == .m8n8k32) then some .satfinite else none

/-- An operand is a vector of `n` register names. -/
def Operand.hasLength (o : Operand) (n : Nat) : Bool :=
  match o with
  | .regs v => v.length == n && v.all RegName.legal
  | .other _ => false

/-- Check `operand_shape` (R63, R64, R70). The operands are tried in the order they are written, then the statement
as a whole (log entry 7). -/
def checkOperandShape (t : MmaTerm) : Option Reject :=
  let r := t.roles
  if !t.d.hasLength r.d.1 then some (.operandShape .d)
  else if !t.a.hasLength r.a.1 then some (.operandShape .a)
  else if !t.b.hasLength r.b.1 then some (.operandShape .b)
  else if !t.c.hasLength r.c.1 then some (.operandShape .c)
  else if t.extraOperand then some (.operandShape .statement)
  else none

/-- The register names of an operand. -/
def Operand.names : Operand → List RegName
  | .regs v => v
  | .other _ => []

/-- The first register of a vector that has not the declared type its role needs. -/
def firstMistyped (p : Params) (ds : List Decl) (o : Operand) (want : RegType) : Option RegName :=
  o.names.find? (fun r =>
    match typeOf ds r with
    | some ty => !RegType.fits p.admitUntyped ty want
    | none => true)

/-- Check `operand_type` (R23, R63, R64): the first offending register in the order d, a, b, c is recorded
(log entry 7). -/
def checkOperandType (p : Params) (ds : List Decl) (t : MmaTerm) : Option Reject :=
  let r := t.roles
  ((firstMistyped p ds t.d r.d.2).or <| (firstMistyped p ds t.a r.a.2).or <|
    (firstMistyped p ds t.b r.b.2).or <| firstMistyped p ds t.c r.c.2).map .operandType

/-- The first register of a vector that occurs again later in it. -/
def firstRepeated : List RegName → Option RegName
  | [] => none
  | r :: rs => if rs.contains r then some r else firstRepeated rs

/-- Check `dest_distinct` (R64, R91 (b)). -/
def checkDestDistinct (t : MmaTerm) : Option Reject := (firstRepeated t.d.names).map .destDistinct

/-- Check `no_guard` (R64, R65). -/
def checkNoGuard (t : MmaTerm) : Option Reject := if t.guarded then some .noGuard else none

/-- R64: the first failing check in the order of its table, `none` where the term is admitted (R194 (1)). -/
def MmaTerm.check (p : Params) (ds : List Decl) (t : MmaTerm) : Option Reject :=
  (checkQualifiers t).or <| (checkShapeKnown t).or <| (checkTypeCombo t).or <| (checkMixedCd p t).or <|
    (checkMixedSign p t).or <| (checkLayout t).or <| (checkSatfinite t).or <| (checkOperandShape t).or <|
    (checkOperandType p ds t).or <| (checkDestDistinct t).or (checkNoGuard t)

/-- Why an instruction is refused under a configuration; `none`: it is admitted. -/
def Instr.refusal (p : Params) (ds : List Decl) (i : Instr) : Option Reject :=
  match i.stmt with
  | .mma t => t.check p ds
  | .named n => some (.notDescribed n)
  | .unknown w => some (.unknownOpcode w)

/-- An instruction is well-formed under a configuration when nothing refuses it. -/
def Instr.wellFormed (p : Params) (ds : List Decl) (i : Instr) : Bool := (i.refusal p ds).isNone

end Sys2Proof
end

