-- ==== Sys2Proof/Machine/State.lean ====
section
/-! DEFINITION. The state of the machine as plain data (`10_state.md`), the reasons a step can stop
(`60_exceptions.md` R191), and the state after reset (R31, `70_reset_and_hazards.md` R215). There is no memory
(R28), no flag (R27), no control register but `%laneid` (R25) and nothing in flight (R29). -/

namespace Sys2Proof.Machine

/-- The content of a register, of the width of its type (`10_state.md` R22, R23). -/
inductive Value
  | w32 (v : BitVec 32)
  | w64 (v : BitVec 64)
  deriving DecidableEq, Repr

/-- The width of a value in bits. -/
def Value.width : Value → Nat
  | .w32 _ => 32
  | .w64 _ => 64

/-- The status of a thread (`10_state.md` R20 (d), R33). `faulted` is the fault mark of `60_exceptions.md` R192. -/
inductive Status
  | running
  | exited
  | faulted
  deriving DecidableEq, Repr

/-- The registers of one thread that hold a value: the number of the register (the place of its declaration) with
the value, numbers strictly rising. A register that is not listed holds NO VALUE, which is the spec's own state of a
register (R22, R31). -/
abbrev RegFile := List (Nat × Value)

/-- One thread (R20): registers, statement index, status. Its lane number, `%laneid` (R24), is its position in
`State.threads` (log entry 3). -/
structure Thread where
  regs : RegFile
  /-- the statement index (R26) -/
  pc : Nat
  status : Status
  deriving DecidableEq, Repr

/-- The machine: one warp of 32 threads (R20) and the configuration of its run (R32). -/
structure State where
  setup : Setup
  threads : Vector Thread 32
  deriving DecidableEq, Repr

/-- Why a step stops without a next state and without a refusal. -/
inductive Fault
  /-- F1 (`60_exceptions.md` R191): raised by an enabled `mma` one of whose source registers holds no value
  (`40_mma_common.md` R90). The thread, the register and the statement index are recorded, and the state it leaves:
  nothing written, no `pc` moved, all 32 threads `faulted` (R192, R195). Safe: errs toward unprovable. -/
  | unwrittenRegister (lane : Lane) (reg : RegName) (stmt : Nat) (after : State)
  /-- S1 (R191): the 32 threads are not all `running` at the same statement (R76), so no thread has a step. Raised
  by the step and by every `mma`. Safe: errs toward unprovable. -/
  | stuck
  /-- The run is over (`70_reset_and_hazards.md` R218): no thread has a statement left, so there is no step.
  Raised by the step alone. No fault of the spec's: the model's answer where the spec has no transition
  (log entry 4). Safe. -/
  | runEnded
  deriving DecidableEq, Repr

/-- Why the model gives an instruction no meaning. -/
inductive Refusal
  /-- An instruction whose meaning is not written yet: raised by `exec`'s own arms, of which none is left. Safe. -/
  | notModelled (mnemonic : String)
  /-- X1 to X13 of `60_exceptions.md` R191, with the statement index: raised by the step for the first refused
  statement of the program, before any statement runs (R192), and by a meaning that is asked to run a refused form.
  Safe: errs toward unprovable. -/
  | rejected (stmt : Nat) (why : Reject)
  deriving DecidableEq, Repr

/-- A thread at launch before its inputs are set: no register holds a value, `pc` 0, `running` (R31). -/
def Thread.launch : Thread := ⟨[], 0, .running⟩

/-- The configuration before any program is loaded: default parameters (`00_scope.md` R9), no declaration, no
statement (log entry 2). -/
def emptySetup : Setup := ⟨Params.default, [], []⟩

/-- The machine right after reset: the launch state of R31 and R215 for the empty program, 32 threads `running` at
statement 0. No register is declared, so there is none without a value (log entries 1 and 2). -/
def State.reset : State := ⟨emptySetup, Vector.replicate 32 Thread.launch⟩

end Sys2Proof.Machine
end

