-- ==== Sys2Proof/Machine/Flags.lean ====
section
/-! DEFINITION. Overflow and the reading of integers. The machine has NO flag (`10_state.md` R27,
`40_mma_common.md` R92): overflow and saturation leave no trace but the value written, so what would set flags
elsewhere is only the choice between the two results here (R86). -/

namespace Sys2Proof.Machine

/-- `int_overflow` (`00_scope.md` R9; `30_encoding.md` R61): fixed by the statement's text. -/
inductive IntOverflow
  | wrap
  | satfinite
  deriving DecidableEq, Repr

/-- `sext_N` (`00_scope.md` R12): the two's complement reading of a bit string. -/
def sext {w : Nat} (v : BitVec w) : Int := if v.toNat < 2 ^ (w - 1) then v.toNat else (v.toNat : Int) - 2 ^ w

/-- `zext_N` (`00_scope.md` R12): the unsigned reading of a bit string. -/
def zext {w : Nat} (v : BitVec w) : Int := v.toNat

/-- The integer an element stands for, by its type (`40_mma_common.md` R86, R87). -/
def extend {w : Nat} (ty : ElemType) (v : BitVec w) : Int := if ty.signed then sext v else zext v

/-- `wrap32` (`00_scope.md` R12): the pattern of `z` modulo 2^32. -/
def wrap32 (z : Int) : BitVec 32 := BitVec.ofInt 32 z

/-- `sat32` (`00_scope.md` R12): the pattern of `min(max(z, -2^31), 2^31 - 1)`. -/
def sat32 (z : Int) : BitVec 32 := BitVec.ofInt 32 (min (max z (-2 ^ 31)) (2 ^ 31 - 1))

/-- Bring the exact sum into `.s32` by the mode (R86): one reduction or one clamp, of the final sum. -/
def finish (mode : IntOverflow) (z : Int) : BitVec 32 :=
  match mode with
  | .wrap => wrap32 z
  | .satfinite => sat32 z

/-- The exact sum of one cell (R86): `sext_32(C) + sum over k of zA * zB`. -/
def exactSum {w K : Nat} (atype btype : ElemType) (a b : Vector (BitVec w) K) (c : BitVec 32) : Int :=
  sext c + ((List.finRange K).map (fun k => extend atype a[k] * extend btype b[k])).sum

/-- The integer cell function (R86). -/
def intCell {w K : Nat} (atype btype : ElemType) (mode : IntOverflow) (a b : Vector (BitVec w) K) (c : BitVec 32) :
    BitVec 32 :=
  finish mode (exactSum atype btype a b c)

end Sys2Proof.Machine
end

