-- ==== Sys2Proof/Machine/Layouts.lean ====
section
/-! DEFINITION. Which threads take part in which computation, and the fifteen layout maps `loc_X(l, i)`: from a lane
number `l` and an element index `i` to the row and column of the matrix cell the element holds
(`40_mma_common.md` R81). The formulas stand as the spec prints them; their operators are those of `00_scope.md`
R10. -/

namespace Sys2Proof.Machine

/-- A layout map: lane number, element index, to (row, column). -/
abbrev LayoutMap := Nat → Nat → Nat × Nat

/-! ## The `m8n8k4`/`.f16` family (`41_mma_m8n8k4_f16.md`) -/

/-- Which computation, 1 to 4, a lane takes part in (R101). -/
def compF16 (l : Nat) : Nat := ((l % 16) >>> 2) + 1

/-- 4 in the high group, 0 in the low group (R101, section 3). -/
def hi4 (l : Nat) : Nat := if 16 ≤ l then 4 else 0

/-- R104: A, row-major. -/
def locARow (l i : Nat) : Nat × Nat := (l % 4 + hi4 l, i)

/-- R105: A, column-major. -/
def locACol (l i : Nat) : Nat × Nat := (i % 4 + hi4 l, l % 4)

/-- R106: B, row-major. -/
def locBRow (l i : Nat) : Nat × Nat := (l % 4, i + hi4 l)

/-- R107: B, column-major. -/
def locBCol (l i : Nat) : Nat × Nat := (i, l % 4 + hi4 l)

/-- R108: C or D of type `.f16`. -/
def locCdF16 (l i : Nat) : Nat × Nat := (l % 4 + hi4 l, i)

/-- R109: C or D of type `.f32`. -/
def locCdF32 (l i : Nat) : Nat × Nat := ((l &&& 1) + (i &&& 2) + hi4 l, (i &&& 4) + (l &&& 2) + (i &&& 1))

/-- The map of A that a layout field selects (R103). -/
def locA (al : Layout) : LayoutMap :=
  match al with
  | .row => locARow
  | .col => locACol

/-- The map of B that a layout field selects (R103). -/
def locB (bl : Layout) : LayoutMap :=
  match bl with
  | .row => locBRow
  | .col => locBCol

/-! ## The other families: one computation of all 32 threads -/

/-- The one computation (R130, R145, R165). -/
def compAll (_ : Nat) : Nat := 1

/-- groupID (`42_mma_m8n8k4_f64.md` R136). -/
def groupId (l : Nat) : Nat := l >>> 2

/-- threadID_in_group (R136). -/
def threadInGroup (l : Nat) : Nat := l % 4

/-- R131: A of the `.f64` family. -/
def locAF64 (l _i : Nat) : Nat × Nat := (groupId l, threadInGroup l)

/-- R132: B of the `.f64` family. -/
def locBF64 (l _i : Nat) : Nat × Nat := (threadInGroup l, groupId l)

/-- R133: C or D of the `.f64` family. -/
def locCdF64 (l i : Nat) : Nat × Nat := (groupId l, threadInGroup l * 2 + (i &&& 1))

/-- R147: A of `m8n8k16`. -/
def locAK16 (l i : Nat) : Nat × Nat := (groupId l, threadInGroup l * 4 + i)

/-- R148: B of `m8n8k16`. -/
def locBK16 (l i : Nat) : Nat × Nat := (threadInGroup l * 4 + i, groupId l)

/-- R149: C or D of `m8n8k16`. -/
def locCdK16 (l i : Nat) : Nat × Nat := (groupId l, threadInGroup l * 2 + i)

/-- R167: A of `m8n8k32`. -/
def locAK32 (l i : Nat) : Nat × Nat := (groupId l, threadInGroup l * 8 + i)

/-- R168: B of `m8n8k32`. -/
def locBK32 (l i : Nat) : Nat × Nat := (threadInGroup l * 8 + i, groupId l)

/-- R169: C or D of `m8n8k32`. -/
def locCdK32 (l i : Nat) : Nat × Nat := (groupId l, threadInGroup l * 2 + i)

end Sys2Proof.Machine
end

