-- ==== Sys2Proof/Decode.lean ====
section
/-! DEFINITION. The decoder, a total text parser (`30_encoding.md` R55, R67), and after it the encoder, both from
R58 to R62. The text of an instruction is its only encoding (`00_scope.md` R7); what of its lexical form the spec
does not give is log entries 9 and 19, and which check an odd qualifier list fails is log entry 8. -/

namespace Sys2Proof

/-! ## Characters and tokens -/

/-- `.` -/
def bDot : Byte := 46
/-- `,` -/
def bComma : Byte := 44
/-- `;` -/
def bSemicolon : Byte := 59
/-- the opening brace of a vector expression (R62) -/
def bOpen : Byte := 123
/-- the closing brace of a vector expression (R62) -/
def bClose : Byte := 125
/-- `@`, which begins a guard predicate (R65) -/
def bAt : Byte := 64
/-- a blank -/
def bBlank : Byte := 32

/-- A blank, a tab, an end of line, or a byte 0 (log entry 9). -/
def isBlank (b : Byte) : Bool := b == 32 || b == 9 || b == 10 || b == 13 || b == 0

/-- Drop leading blanks. -/
def skipBlanks (t : Text) : Text := t.dropWhile isBlank

/-- Drop blanks at both ends. -/
def trim (t : Text) : Text := (skipBlanks (skipBlanks t).reverse).reverse

/-- Put a byte in front of the first piece. -/
def consHead (b : Byte) : List Text → List Text
  | [] => [[b]]
  | x :: xs => (b :: x) :: xs

/-- The pieces of a text between separators; one piece where there is no separator. -/
def splitAt (sep : Byte) : Text → List Text
  | [] => [[]]
  | b :: bs => if b == sep then [] :: splitAt sep bs else consHead b (splitAt sep bs)

/-- The pieces of a text between the commas that stand outside braces. -/
def splitOperands (inside : Bool) : Text → List Text
  | [] => [[]]
  | b :: bs =>
    if b == bComma && !inside then [] :: splitOperands inside bs
    else consHead b (splitOperands (if b == bOpen then true else if b == bClose then false else inside) bs)

/-- Pieces with a separator text between them. -/
def joinWith (sep : Text) : List Text → Text
  | [] => []
  | [x] => x
  | x :: xs => x ++ sep ++ joinWith sep xs

def tokMma : Text := txt ['m', 'm', 'a']
def tokSync : Text := txt ['s', 'y', 'n', 'c']
def tokAligned : Text := txt ['a', 'l', 'i', 'g', 'n', 'e', 'd']
def tokSatfinite : Text := txt ['s', 'a', 't', 'f', 'i', 'n', 'i', 't', 'e']
def tokWmma : Text := txt ['w', 'm', 'm', 'a']
def tokWgmma : Text := txt ['w', 'g', 'm', 'm', 'a']

/-- The spelling of a layout field (R58). -/
def Layout.text : Layout → Text
  | .row => txt ['r', 'o', 'w']
  | .col => txt ['c', 'o', 'l']

/-- The spelling of a shape (R56). -/
def Shape.text : Shape → Text
  | .m8n8k4 => txt ['m', '8', 'n', '8', 'k', '4']
  | .m8n8k16 => txt ['m', '8', 'n', '8', 'k', '1', '6']
  | .m8n8k32 => txt ['m', '8', 'n', '8', 'k', '3', '2']
  | .other t => t

/-- The spelling of a type (R56). -/
def ElemType.text : ElemType → Text
  | .f16 => txt ['f', '1', '6']
  | .f32 => txt ['f', '3', '2']
  | .f64 => txt ['f', '6', '4']
  | .s32 => txt ['s', '3', '2']
  | .s8 => txt ['s', '8']
  | .u8 => txt ['u', '8']
  | .s4 => txt ['s', '4']
  | .u4 => txt ['u', '4']
  | .other t => t

/-- The spelling of the three named instructions (R185 to R187). -/
def NamedOnly.text : NamedOnly → Text
  | .ldmatrix => txt ['l', 'd', 'm', 'a', 't', 'r', 'i', 'x']
  | .stmatrix => txt ['s', 't', 'm', 'a', 't', 'r', 'i', 'x']
  | .movmatrix => txt ['m', 'o', 'v', 'm', 'a', 't', 'r', 'i', 'x']

/-- The shape a token names. -/
def Shape.ofText (t : Text) : Shape :=
  if t = Shape.m8n8k4.text then .m8n8k4
  else if t = Shape.m8n8k16.text then .m8n8k16
  else if t = Shape.m8n8k32.text then .m8n8k32
  else .other t

/-- The type a token names. -/
def ElemType.ofText (t : Text) : ElemType :=
  if t = ElemType.f16.text then .f16
  else if t = ElemType.f32.text then .f32
  else if t = ElemType.f64.text then .f64
  else if t = ElemType.s32.text then .s32
  else if t = ElemType.s8.text then .s8
  else if t = ElemType.u8.text then .u8
  else if t = ElemType.s4.text then .s4
  else if t = ElemType.u4.text then .u4
  else .other t

/-- The layout a token names, if it names one. -/
def Layout.ofText (t : Text) : Option Layout :=
  if t = Layout.row.text then some .row
  else if t = Layout.col.text then some .col
  else none

/-! ## Parsing a statement -/

/-- Whether a guard predicate stands in front, and the text after it (R65). The spec spells `@p` and `@!p` and does not
say where the guard's text ends: here it runs, after blanks that may follow the `@`, to the next blank (DESIGN CHOICE, log
entry 19). -/
def takeGuard (t : Text) : Bool × Text :=
  match t with
  | [] => (false, [])
  | b :: bs =>
    if b == bAt then (true, skipBlanks ((skipBlanks bs).dropWhile (fun x => !isBlank x))) else (false, b :: bs)

/-- A byte of the opcode word with its qualifiers. The spec gives no rule for where they end: here at a blank, an opening
brace, a semicolon or a comma, and at nothing else (DESIGN CHOICE, log entry 19). -/
def isWordByte (b : Byte) : Bool := !(isBlank b || b == bOpen || b == bSemicolon || b == bComma)

/-- Drop the first token if it is this one. -/
def dropToken (tok : Text) (q : List Text) : List Text :=
  match q with
  | [] => []
  | t :: ts => if t = tok then ts else t :: ts

/-- Take a layout off the front, if one stands there. -/
def takeLayout (q : List Text) : Option Layout × List Text :=
  match q with
  | [] => (none, [])
  | t :: ts =>
    match Layout.ofText t with
    | some l => (some l, ts)
    | none => (none, t :: ts)

/-- One operand: a vector expression of register names, or other text (R62, R70). -/
def parseOperand (piece : Text) : Operand :=
  match trim piece with
  | [] => .other []
  | b :: bs =>
    if b == bOpen && bs.getLast? == some bClose then
      let names := (splitAt bComma bs.dropLast).map trim
      if names.all RegName.legal then .regs names else .other (b :: bs)
    else .other (b :: bs)

/-- A term of the format `TEXT-MMA` from its qualifier tokens and the text of its operands (R57 to R62). Where the
opcode word is not `mma` itself (`wmma`, `wgmma`: R188), no shape is known. The text that X2 then records as the shape is
the first qualifier left after a leading `sync` and an `aligned` behind it are dropped, also in a statement that is not of
the form of R58 to R61 (DESIGN CHOICE, log entry 8). -/
def parseMma (guarded isMma : Bool) (quals : List Text) (rest : Text) : MmaTerm :=
  let q := dropToken tokAligned (dropToken tokSync quals)
  let shapeTok := q.headD []
  let al := takeLayout q.tail
  let bl := takeLayout al.2
  let sat := bl.2.head? == some tokSatfinite
  let types := dropToken tokSatfinite bl.2
  let body := rest.takeWhile (fun b => b != bSemicolon)
  let after := rest.dropWhile (fun b => b != bSemicolon)
  let ops := (splitOperands false body).map parseOperand
  { guarded := guarded
    sync := quals.contains tokSync
    aligned := quals.contains tokAligned
    shape := if isMma then Shape.ofText shapeTok else .other shapeTok
    alayout := al.1
    blayout := bl.1
    satfinite := sat
    dtype := ElemType.ofText (types.getD 0 [])
    atype := ElemType.ofText (types.getD 1 [])
    btype := ElemType.ofText (types.getD 2 [])
    ctype := ElemType.ofText (types.getD 3 [])
    extraQualifier := types.length != 4
    d := ops.getD 0 (.other [])
    a := ops.getD 1 (.other [])
    b := ops.getD 2 (.other [])
    c := ops.getD 3 (.other [])
    extraOperand := ops.length != 4 || !(!after.isEmpty && after.tail.all isBlank) }

/-- A statement of program text, parsed (R55, R188, R189). -/
def parseStmt (t : Text) : Stmt :=
  let g := takeGuard (skipBlanks t)
  let word := splitAt bDot (g.2.takeWhile isWordByte)
  let rest := g.2.dropWhile isWordByte
  let op := word.headD []
  if op = tokMma then .mma (parseMma g.1 true word.tail rest)
  else if op = tokWmma ∨ op = tokWgmma then .mma (parseMma g.1 false word.tail rest)
  else if op = NamedOnly.ldmatrix.text then .named .ldmatrix
  else if op = NamedOnly.stmatrix.text then .named .stmatrix
  else if op = NamedOnly.movmatrix.text then .named .movmatrix
  else .unknown op

/-- The decoder: the instruction a statement spells under a configuration, or the name of what refuses it. The three
named instructions are read (each is a row of the table); that no program may hold one is `Instr.refusal`. -/
def decode (p : Params) (ds : List Decl) (t : Text) : Except Reject Instr :=
  match parseStmt t with
  | .mma m =>
    match m.check p ds with
    | some why => .error why
    | none =>
      match m.instr with
      | some i => .ok i
      | none => .error .typeCombo
  | .named n => .ok n.instr
  | .unknown w => .error (.unknownOpcode w)

/-! ## Encoding -/

/-- The dotted mnemonic of a form (R58, R60, R61). -/
def Quals.mnemonic (q : Quals) : Text :=
  joinWith [bDot]
    ([tokMma, tokSync, tokAligned, q.shape.text, q.alayout.text, q.blayout.text]
      ++ (if q.satfinite then [tokSatfinite] else [])
      ++ [q.dtype.text, q.atype.text, q.btype.text, q.ctype.text])

/-- A vector expression (R62). -/
def encodeVec (v : Vec) : Text := bOpen :: (joinWith [bComma, bBlank] v ++ [bClose])

/-- The mnemonic of an instruction's row of `spec/opcode_table.json`. -/
def Instr.mnemonic (i : Instr) : Text :=
  match i.form with
  | .inl (q, _) => q.mnemonic
  | .inr n => n.text

/-- The encoder: the statement's text (R55, R58 to R62). -/
def encode (i : Instr) : Text :=
  match i.form with
  | .inl (q, o) =>
    q.mnemonic ++ [bBlank]
      ++ joinWith [bComma, bBlank] [encodeVec o.d, encodeVec o.a, encodeVec o.b, encodeVec o.c] ++ [bSemicolon]
  | .inr n => n.text ++ [bSemicolon]

/-! ## One statement on its own -/

/-- Declarations of a vector's registers in one type, for the names that have none yet. -/
def declareAll (ty : RegType) (names : List RegName) (ds : List Decl) : List Decl :=
  names.foldl (fun acc r => if (typeOf acc r).isSome then acc else acc ++ [(r, ty)]) ds

/-- The declarations a statement's operands ask for, each register in the type of the first role it stands in
(`30_encoding.md` R63), put after the given ones. -/
def declareOperands (t : Text) (ds : List Decl) : List Decl :=
  match parseStmt t with
  | .mma m =>
    let r := m.roles
    declareAll r.c.2 m.c.names (declareAll r.b.2 m.b.names (declareAll r.a.2 m.a.names (declareAll r.d.2 m.d.names ds)))
  | _ => ds

/-- The bytes of a number, least significant first: the text whose first character is bits 7..0. -/
def bytesOf : Nat → Nat → Text
  | 0, _ => []
  | n + 1, w => BitVec.ofNat 8 w :: bytesOf n (w / 256)

/-- The text of `nbits` bits numbered as `spec/opcode_table.json` numbers them (log entry 10). -/
def textOfWord (nbits w : Nat) : Text := bytesOf (nbits / 8) w

/-- The instruction the decoder reads from a statement given as a number: its text under the default parameters,
with its registers declared as its roles ask (log entry 10). -/
def decodeTableWord (nbits w : Nat) : Option Instr :=
  let t := textOfWord nbits w
  match decode Params.default (declareOperands t []) t with
  | .ok i => some i
  | .error _ => none

end Sys2Proof
end

