-- ==== Sys2Proof/Machine/Operands.lean ====
section
/-! DEFINITION. Operand forms. The one form is the vector of registers (`30_encoding.md` R62, R63, R70: no
immediate, no address, no label): where the elements of a fragment sit in it (`40_mma_common.md` R79), how one is
cut out and how a destination register is put together (R80). -/

namespace Sys2Proof.Machine

/-- The element of width `w` at place `i` of a register: bits `[w*i + w - 1 : w*i]` (R79, `00_scope.md` R11). -/
def Value.element (v : Value) (w i : Nat) : BitVec w :=
  match v with
  | .w32 x => x.extractLsb' (w * i) w
  | .w64 x => x.extractLsb' (w * i) w

/-- `concat(e[per-1], ..., e[1], e[0])` as a number: the first element of the list lowest (R80, R11). -/
def concatElements {w : Nat} : List (BitVec w) → Nat
  | [] => 0
  | e :: es => e.toNat + 2 ^ w * concatElements es

/-- A bit pattern as the content of a register of a type (`10_state.md` R23). -/
def valueOfType (ty : RegType) (bits : Nat) : Value :=
  if ty.width = 64 then .w64 (BitVec.ofNat 64 bits) else .w32 (BitVec.ofNat 32 bits)

/-- `fragX(t)[i]` (R80): element `i` of a thread's fragment, `per` elements to a register of the vector `vec`. -/
def fragElement (read : RegName → Value) (vec : Vec) (per w i : Nat) : BitVec w :=
  (read (vec.getD (i / per) [])).element w (i % per)

/-- The new content of destination register `j` (`setfragD`, R80): whole, from its `per` elements. -/
def packRegister {w : Nat} (ty : RegType) (per : Nat) (e : Nat → BitVec w) (j : Nat) : Value :=
  valueOfType ty (concatElements ((List.range per).map (fun x => e (per * j + x))))

end Sys2Proof.Machine
end

