-- ==== Sys2Proof/Machine/Ops.lean ====
section
/-! DEFINITION. The named operations over the state: registers, the launch, the enabling condition, the one fault,
and the advance of the statement index. There is no trap entry and no return from one (`60_exceptions.md` R190,
R195, R196): what stands in their place is the terminal fault `raiseUnwritten`. -/

namespace Sys2Proof.Machine

/-! ## Register files -/

/-- What a register holds; `none`: no value (`10_state.md` R22). -/
def RegFile.read : RegFile → Nat → Option Value
  | [], _ => none
  | (k, v) :: rest, j => if k = j then some v else RegFile.read rest j

/-- Write a whole register (`00_scope.md` R12), keeping the numbers strictly rising. -/
def RegFile.write : RegFile → Nat → Value → RegFile
  | [], j, v => [(j, v)]
  | (k, u) :: rest, j, v =>
    if j < k then (j, v) :: (k, u) :: rest
    else if j = k then (j, v) :: rest
    else (k, u) :: RegFile.write rest j v

/-- The canonical form of a register file: register numbers strictly rising. -/
abbrev RegFile.wf (rf : RegFile) : Prop := (rf.map Prod.fst).Pairwise (· < ·)

/-- Write register by register the vector `d`: register `j` of it gets `val j` (`40_mma_common.md` R80). A name
that is not declared, which no admitted instruction has, writes nothing. -/
def RegFile.writeVec (ds : List Decl) (rf : RegFile) : Vec → (Nat → Value) → RegFile
  | [], _ => rf
  | r :: rs, val =>
    RegFile.writeVec ds
      (match regIndex ds r with
        | some j => rf.write j (val 0)
        | none => rf)
      rs (fun j => val (j + 1))

/-- `x[t][r]` (`00_scope.md` R12), `none` where the register holds no value (R22). -/
def State.readReg (s : State) (l : Lane) (r : RegName) : Option Value :=
  (regIndex s.setup.decls r).bind (fun j => s.threads[l].regs.read j)

/-- The content of a source register. It is asked for only after `firstUnwritten` has found that every source
register holds a value, so the value in the other case stands nowhere in a result. -/
def State.reg (s : State) (l : Lane) (r : RegName) : Value := (s.readReg l r).getD (.w32 0)

/-- `lane(t)`, the value of `%laneid` as a number (`10_state.md` R24). -/
def laneNumber (l : Lane) : Nat := l.val

/-- `%laneid` of a thread, read-only, 32 bits (R24): the position of the thread (log entry 3). -/
def State.laneid (_ : State) (l : Lane) : BitVec 32 := BitVec.ofNat 32 (laneNumber l)

/-- Change every thread by a function of its lane and itself. -/
def State.mapThreads (s : State) (f : Lane → Thread → Thread) : State :=
  { s with threads := Vector.ofFn (fun l : Lane => f l s.threads[l]) }

/-! ## Launch -/

/-- The input registers of one lane, set one after another: of two namings the last counts, an undeclared name sets
nothing, and a value is stored as it is given, also where its width is not that of the register's type, for which R21 and
R216 provide no launch at all (DESIGN CHOICE, log entry 1). -/
def launchRegs (ds : List Decl) (l : Lane) (inputs : List (Lane × RegName × Value)) : RegFile :=
  inputs.foldl
    (fun rf x =>
      if x.1 = l then
        match regIndex ds x.2.1 with
        | some j => rf.write j x.2.2
        | none => rf
      else rf) []

/-- The launch state of a run (`10_state.md` R31; `70_reset_and_hazards.md` R215, R216): 32 threads `running` at
statement 0, every register without a value except the named inputs. -/
def State.launch (setup : Setup) (inputs : List (Lane × RegName × Value)) : State :=
  { setup := setup
    threads := Vector.ofFn (fun l : Lane => { Thread.launch with regs := launchRegs setup.decls l inputs }) }

/-- Give each of the registers numbered `n`, `n + 1`, … with these types the value 0. -/
def zeroInputs (rf : RegFile) : Nat → List Decl → RegFile
  | _, [] => rf
  | n, d :: rest => zeroInputs (rf.write n (valueOfType d.2 0)) (n + 1) rest

/-- Load a program of one statement and launch it: registers the statement names and the state has not declared are
declared as their roles ask and are inputs with the value 0 (DESIGN CHOICE, log entries 1 and 10); the others stay as
they are; every thread is `running` at statement 0. -/
def State.loadOne (s : State) (t : Text) : State :=
  let old := s.setup.decls
  let ds := declareOperands t old
  { setup := { s.setup with decls := ds, program := [t] }
    threads := Vector.ofFn (fun l : Lane =>
      { regs := zeroInputs s.threads[l].regs old.length (ds.drop old.length), pc := 0, status := .running }) }

/-! ## The program -/

/-- Decode the statements from number `n` on; the first that is refused, with its number (`30_encoding.md` R67;
`60_exceptions.md` R192, R194 (1)). -/
def loadFrom (su : Setup) : Nat → List Text → Except Refusal (List Instr)
  | _, [] => .ok []
  | n, t :: ts =>
    match decode su.params su.decls t with
    | .error why => .error (.rejected n why)
    | .ok i =>
      match i.refusal su.params su.decls with
      | some why => .error (.rejected n why)
      | none =>
        match loadFrom su (n + 1) ts with
        | .error r => .error r
        | .ok is => .ok (i :: is)

/-- The instructions of the whole program, or its refusal mark (R192). -/
def State.instrs (s : State) : Except Refusal (List Instr) := loadFrom s.setup 0 s.setup.program

/-- The refusal mark of the program (R192). -/
def State.refusal (s : State) : Option Refusal :=
  match s.instrs with
  | .error r => some r
  | .ok _ => none

/-! ## Enabling, fault, advance -/

/-- The statement all threads stand at: `some p` where all 32 are `running` with `pc` = `p` (`40_mma_common.md`
R76). -/
def State.enabledAt (s : State) : Option Nat :=
  let p := s.threads[(0 : Lane)].pc
  if lanes.all (fun l => s.threads[l].status == .running && s.threads[l].pc == p) then some p else none

/-- Every thread has exited (`10_state.md` R33). -/
def State.allExited (s : State) : Bool := lanes.all (fun l => s.threads[l].status == .exited)

/-- The first source register that holds no value: lanes ascending, within a lane in the order given (R89, R90). -/
def State.firstUnwritten (s : State) (rs : List RegName) : Option (Lane × RegName) :=
  lanes.findSome? (fun l => (rs.find? (fun r => (s.readReg l r).isNone)).map (fun r => (l, r)))

/-- All 32 threads marked `faulted`; nothing else changes (R90, R192, R195). -/
def State.markFaulted (s : State) : State := s.mapThreads (fun _ t => { t with status := .faulted })

/-- `raise UnwrittenRegister(t, r)`: the one fault, the shared operation that takes it. The spec states this stop
(`10_state.md` R22, `40_mma_common.md` R89, R90, R94, `60_exceptions.md` R191 F1, `70_reset_and_hazards.md` R216) and
gives the machine no effect here: "the step's outcome is `raise UnwrittenRegister(t, r)`", "no register is written, no
`pc` moves, and all 32 threads become `faulted`" (R90). -/
def raiseUnwritten (s : State) (l : Lane) (r : RegName) (stmt : Nat) : Host.Outcome State Fault Refusal :=
  .fault (.unwrittenRegister l r stmt s.markFaulted)

/-- The statement index recorded with a refusal that a meaning gives: where thread 0 stands. -/
def State.site (s : State) : Nat := s.threads[(0 : Lane)].pc

/-- The status of a thread that has moved to statement `pc` of a program of `n` statements (`10_state.md` R26,
R33). -/
def statusAt (n pc : Nat) : Status := if n ≤ pc then .exited else .running

/-- Phases 3 and 4 of R89: each lane's destination registers get their new contents and every `pc` moves on by one
(R88, R93). -/
def State.commit (s : State) (d : Vec) (val : Lane → Nat → Value) : State :=
  s.mapThreads (fun l t =>
    { regs := t.regs.writeVec s.setup.decls d (val l)
      pc := t.pc + 1
      status := statusAt s.setup.program.length (t.pc + 1) })

end Sys2Proof.Machine
end

