-- ==== Sys2Proof/Machine/Mma.lean ====
section
/-! DEFINITION. The shared meaning of every `mma`: the template of `40_mma_common.md` R89 with its gather (R81), cell
functions (R84, R86) and scatter (R88), and the forms of the four families that fill it in. -/

namespace Sys2Proof.Machine

/-- One matrix of a form: how many elements a thread's fragment has, how many of them share a register (R78, R79),
and the layout map (R81). -/
structure Part where
  n : Nat
  per : Nat
  loc : LayoutMap

/-- What a family supplies to the template (R89). Element widths are `wa`, `wb`, `wc`, `wd`; `K` is the inner
dimension. -/
structure Form (wa wb wc wd K : Nat) where
  /-- the computation a lane takes part in; `threads(q)` are the lanes of computation `q` -/
  comp : Nat → Nat
  a : Part
  b : Part
  c : Part
  d : Part
  /-- the register type of the destination vector (`30_encoding.md` R63) -/
  dType : RegType
  /-- the cell function (R84, R86) -/
  mac : Vector (BitVec wa) K → Vector (BitVec wb) K → BitVec wc → BitVec wd

/-- The elements of a matrix of computation `q`: its lanes, each with its element indices (R81). -/
def slots (comp : Nat → Nat) (q n : Nat) : List (Lane × Nat) :=
  (lanes.filter (fun l => comp (laneNumber l) == q)).flatMap (fun l => (List.range n).map (fun i => (l, i)))

/-- Which lane holds a cell of the matrix of computation `q`, as which element: the one whose place under the layout
map is that cell (R81; exactly one by R82). -/
def holder (comp : Nat → Nat) (p : Part) (q row col : Nat) : Option (Lane × Nat) :=
  (slots comp q p.n).find? (fun x => p.loc (laneNumber x.1) x.2 == (row, col))

/-- A cell of a gathered matrix (R81). Every cell inside the matrix has its holder (R82); the value in the other case
stands nowhere in a result. -/
def gather (comp : Nat → Nat) (p : Part) (s : State) (vec : Vec) (w q row col : Nat) : BitVec w :=
  match holder comp p q row col with
  | some (l, i) => fragElement (s.reg l) vec p.per w i
  | none => 0

/-- Phase 2 of R89 for the cell of D that element `i` of lane `l` holds: `mac` of A's row, B's column and C's cell,
all of the lane's own computation (R83, R88, R110). -/
def Form.cell {wa wb wc wd K : Nat} (f : Form wa wb wc wd K) (s : State) (o : Operands) (l : Lane) (i : Nat) :
    BitVec wd :=
  let q := f.comp (laneNumber l)
  let at_ := f.d.loc (laneNumber l) i
  f.mac (Vector.ofFn (fun k : Fin K => gather f.comp f.a s o.a wa q at_.1 k.val))
    (Vector.ofFn (fun k : Fin K => gather f.comp f.b s o.b wb q k.val at_.2))
    (gather f.comp f.c s o.c wc q at_.1 at_.2)

/-- The new content of register `j` of lane `l`'s destination vector (R80, R88). -/
def Form.result {wa wb wc wd K : Nat} (f : Form wa wb wc wd K) (s : State) (o : Operands) (l : Lane) (j : Nat) :
    Value :=
  packRegister f.dType f.d.per (f.cell s o l) j

/-- `step_mma` (R89) with the refusals before it, in the order of `60_exceptions.md` R194: refused, stuck, faulted,
or done. Every source is read from the state before the step (R77). -/
def mmaStep {wa wb wc wd K : Nat} (f : Form wa wb wc wd K) (i : Instr) (o : Operands) (s : State) :
    Host.Outcome State Fault Refusal :=
  match i.refusal s.setup.params s.setup.decls with
  | some why => .refused (.rejected s.site why)
  | none =>
    match s.enabledAt with
    | none => .fault .stuck
    | some p =>
      match s.firstUnwritten o.sources with
      | some (l, r) => raiseUnwritten s l r p
      | none => .next (s.commit o.d (f.result s o))

/-! ## The forms of the families -/

/-- The two `.f16` multiplicands of `m8n8k4` (`41_mma_m8n8k4_f16.md` R102, R103). -/
def partA16 (al : Layout) : Part := ⟨4, 2, locA al⟩
def partB16 (bl : Layout) : Part := ⟨4, 2, locB bl⟩

/-- An accumulator of type `.f16`: eight elements, two to a `.f16x2` register (R102, R108). -/
def accF16 : Part := ⟨8, 2, locCdF16⟩

/-- An accumulator of type `.f32`: eight elements, one to a register (R102, R109). -/
def accF32 : Part := ⟨8, 1, locCdF32⟩

/-- A numeric function of the `.f16` family with an accumulator of width `wc` and a result of width `wd` (R84). -/
abbrev Dot16 (wc wd : Nat) := Vector (BitVec 16) 4 → Vector (BitVec 16) 4 → BitVec wc → BitVec wd

/-- R112: `.dtype` = `.f16`, `.ctype` = `.f16`. -/
def formF16F16 (dot : Dot16 16 16) (al bl : Layout) : Form 16 16 16 16 4 :=
  ⟨compF16, partA16 al, partB16 bl, accF16, accF16, .f16x2, dot⟩

/-- R113: `.dtype` = `.f16`, `.ctype` = `.f32`; C by the map of `.ctype`, D by the map of `.dtype` (R111). -/
def formF16F32 (dot : Dot16 32 16) (al bl : Layout) : Form 16 16 32 16 4 :=
  ⟨compF16, partA16 al, partB16 bl, accF32, accF16, .f16x2, dot⟩

/-- R114: `.dtype` = `.f32`, `.ctype` = `.f16` (R111). -/
def formF32F16 (dot : Dot16 16 32) (al bl : Layout) : Form 16 16 16 32 4 :=
  ⟨compF16, partA16 al, partB16 bl, accF16, accF32, .f32, dot⟩

/-- R115: `.dtype` = `.f32`, `.ctype` = `.f32`. -/
def formF32F32 (dot : Dot16 32 32) (al bl : Layout) : Form 16 16 32 32 4 :=
  ⟨compF16, partA16 al, partB16 bl, accF32, accF32, .f32, dot⟩

/-- R135: the `.f64` form (`42_mma_m8n8k4_f64.md` R131 to R134). -/
def formF64 (dot : Vector (BitVec 64) 4 → Vector (BitVec 64) 4 → BitVec 64 → BitVec 64) : Form 64 64 64 64 4 :=
  ⟨compAll, ⟨1, 1, locAF64⟩, ⟨1, 1, locBF64⟩, ⟨2, 1, locCdF64⟩, ⟨2, 1, locCdF64⟩, .f64, dot⟩

/-- R152 to R155: the `m8n8k16` forms (`43_mma_m8n8k16.md` R146 to R149). -/
def formK16 (atype btype : ElemType) (mode : IntOverflow) : Form 8 8 32 32 16 :=
  ⟨compAll, ⟨4, 4, locAK16⟩, ⟨4, 4, locBK16⟩, ⟨2, 1, locCdK16⟩, ⟨2, 1, locCdK16⟩, .s32, intCell atype btype mode⟩

/-- R172 to R175: the `m8n8k32` forms (`44_mma_m8n8k32.md` R166 to R169). -/
def formK32 (atype btype : ElemType) (mode : IntOverflow) : Form 4 4 32 32 32 :=
  ⟨compAll, ⟨8, 8, locAK32⟩, ⟨8, 8, locBK32⟩, ⟨2, 1, locCdK32⟩, ⟨2, 1, locCdK32⟩, .s32, intCell atype btype mode⟩

end Sys2Proof.Machine
end

