-- ==== Sys2Proof/Machine/M8n8k16.lean ====
section
/-! DEFINITION. The 8 forms of `mma.m8n8k16` (`43_mma_m8n8k16.md` R152 to R155), without and with `.satfinite`. -/

namespace Sys2Proof.Machine

/-- `mma.sync.aligned.m8n8k16.row.col.s32.s8.s8.s32` (R152). -/
def execM8n8k16S8S8 (d a b c : Vec) (s : State) : Host.Outcome State Fault Refusal :=
  mmaStep (formK16 .s8 .s8 .wrap) (.m8n8k16S8S8 d a b c) ⟨d, a, b, c⟩ s

/-- `mma.sync.aligned.m8n8k16.row.col.satfinite.s32.s8.s8.s32` (R152). -/
def execM8n8k16SatfiniteS8S8 (d a b c : Vec) (s : State) : Host.Outcome State Fault Refusal :=
  mmaStep (formK16 .s8 .s8 .satfinite) (.m8n8k16SatfiniteS8S8 d a b c) ⟨d, a, b, c⟩ s

/-- `mma.sync.aligned.m8n8k16.row.col.s32.s8.u8.s32` (R153). -/
def execM8n8k16S8U8 (d a b c : Vec) (s : State) : Host.Outcome State Fault Refusal :=
  mmaStep (formK16 .s8 .u8 .wrap) (.m8n8k16S8U8 d a b c) ⟨d, a, b, c⟩ s

/-- `mma.sync.aligned.m8n8k16.row.col.satfinite.s32.s8.u8.s32` (R153). -/
def execM8n8k16SatfiniteS8U8 (d a b c : Vec) (s : State) : Host.Outcome State Fault Refusal :=
  mmaStep (formK16 .s8 .u8 .satfinite) (.m8n8k16SatfiniteS8U8 d a b c) ⟨d, a, b, c⟩ s

/-- `mma.sync.aligned.m8n8k16.row.col.s32.u8.s8.s32` (R154). -/
def execM8n8k16U8S8 (d a b c : Vec) (s : State) : Host.Outcome State Fault Refusal :=
  mmaStep (formK16 .u8 .s8 .wrap) (.m8n8k16U8S8 d a b c) ⟨d, a, b, c⟩ s

/-- `mma.sync.aligned.m8n8k16.row.col.satfinite.s32.u8.s8.s32` (R154). -/
def execM8n8k16SatfiniteU8S8 (d a b c : Vec) (s : State) : Host.Outcome State Fault Refusal :=
  mmaStep (formK16 .u8 .s8 .satfinite) (.m8n8k16SatfiniteU8S8 d a b c) ⟨d, a, b, c⟩ s

/-- `mma.sync.aligned.m8n8k16.row.col.s32.u8.u8.s32` (R155). -/
def execM8n8k16U8U8 (d a b c : Vec) (s : State) : Host.Outcome State Fault Refusal :=
  mmaStep (formK16 .u8 .u8 .wrap) (.m8n8k16U8U8 d a b c) ⟨d, a, b, c⟩ s

/-- `mma.sync.aligned.m8n8k16.row.col.satfinite.s32.u8.u8.s32` (R155). -/
def execM8n8k16SatfiniteU8U8 (d a b c : Vec) (s : State) : Host.Outcome State Fault Refusal :=
  mmaStep (formK16 .u8 .u8 .satfinite) (.m8n8k16SatfiniteU8U8 d a b c) ⟨d, a, b, c⟩ s

end Sys2Proof.Machine
end

