-- ==== Sys2Proof/Machine/M8n8k32.lean ====
section
/-! DEFINITION. The 8 forms of `mma.m8n8k32` (`44_mma_m8n8k32.md` R172 to R175), without and with `.satfinite`. -/

namespace Sys2Proof.Machine

/-- `mma.sync.aligned.m8n8k32.row.col.s32.s4.s4.s32` (R172). -/
def execM8n8k32S4S4 (d a b c : Vec) (s : State) : Host.Outcome State Fault Refusal :=
  mmaStep (formK32 .s4 .s4 .wrap) (.m8n8k32S4S4 d a b c) ⟨d, a, b, c⟩ s

/-- `mma.sync.aligned.m8n8k32.row.col.satfinite.s32.s4.s4.s32` (R172). -/
def execM8n8k32SatfiniteS4S4 (d a b c : Vec) (s : State) : Host.Outcome State Fault Refusal :=
  mmaStep (formK32 .s4 .s4 .satfinite) (.m8n8k32SatfiniteS4S4 d a b c) ⟨d, a, b, c⟩ s

/-- `mma.sync.aligned.m8n8k32.row.col.s32.s4.u4.s32` (R173). -/
def execM8n8k32S4U4 (d a b c : Vec) (s : State) : Host.Outcome State Fault Refusal :=
  mmaStep (formK32 .s4 .u4 .wrap) (.m8n8k32S4U4 d a b c) ⟨d, a, b, c⟩ s

/-- `mma.sync.aligned.m8n8k32.row.col.satfinite.s32.s4.u4.s32` (R173). -/
def execM8n8k32SatfiniteS4U4 (d a b c : Vec) (s : State) : Host.Outcome State Fault Refusal :=
  mmaStep (formK32 .s4 .u4 .satfinite) (.m8n8k32SatfiniteS4U4 d a b c) ⟨d, a, b, c⟩ s

/-- `mma.sync.aligned.m8n8k32.row.col.s32.u4.s4.s32` (R174). -/
def execM8n8k32U4S4 (d a b c : Vec) (s : State) : Host.Outcome State Fault Refusal :=
  mmaStep (formK32 .u4 .s4 .wrap) (.m8n8k32U4S4 d a b c) ⟨d, a, b, c⟩ s

/-- `mma.sync.aligned.m8n8k32.row.col.satfinite.s32.u4.s4.s32` (R174). -/
def execM8n8k32SatfiniteU4S4 (d a b c : Vec) (s : State) : Host.Outcome State Fault Refusal :=
  mmaStep (formK32 .u4 .s4 .satfinite) (.m8n8k32SatfiniteU4S4 d a b c) ⟨d, a, b, c⟩ s

/-- `mma.sync.aligned.m8n8k32.row.col.s32.u4.u4.s32` (R175). -/
def execM8n8k32U4U4 (d a b c : Vec) (s : State) : Host.Outcome State Fault Refusal :=
  mmaStep (formK32 .u4 .u4 .wrap) (.m8n8k32U4U4 d a b c) ⟨d, a, b, c⟩ s

/-- `mma.sync.aligned.m8n8k32.row.col.satfinite.s32.u4.u4.s32` (R175). -/
def execM8n8k32SatfiniteU4U4 (d a b c : Vec) (s : State) : Host.Outcome State Fault Refusal :=
  mmaStep (formK32 .u4 .u4 .satfinite) (.m8n8k32SatfiniteU4U4 d a b c) ⟨d, a, b, c⟩ s

end Sys2Proof.Machine
end

