-- ==== Sys2Proof/Machine/M8n8k4F16.lean ====
section
/-! DEFINITION. The 16 forms of `mma.m8n8k4` with `.f16` multiplicands (`41_mma_m8n8k4_f16.md` R112 to R115): four
independent computations of eight threads each (R100, R101, R110). -/

namespace Sys2Proof.Machine

/-- `mma.sync.aligned.m8n8k4.row.row.f16.f16.f16.f16` (R112). -/
def execM8n8k4RowRowF16F16 (d a b c : Vec) (s : State) : Host.Outcome State Fault Refusal :=
  mmaStep (formF16F16 Config.dotF16F16 .row .row) (.m8n8k4RowRowF16F16 d a b c) ⟨d, a, b, c⟩ s

/-- `mma.sync.aligned.m8n8k4.row.row.f16.f16.f16.f32` (R113). -/
def execM8n8k4RowRowF16F32 (d a b c : Vec) (s : State) : Host.Outcome State Fault Refusal :=
  mmaStep (formF16F32 Config.dotF16F32 .row .row) (.m8n8k4RowRowF16F32 d a b c) ⟨d, a, b, c⟩ s

/-- `mma.sync.aligned.m8n8k4.row.row.f32.f16.f16.f16` (R114). -/
def execM8n8k4RowRowF32F16 (d a b c : Vec) (s : State) : Host.Outcome State Fault Refusal :=
  mmaStep (formF32F16 Config.dotF32F16 .row .row) (.m8n8k4RowRowF32F16 d a b c) ⟨d, a, b, c⟩ s

/-- `mma.sync.aligned.m8n8k4.row.row.f32.f16.f16.f32` (R115). -/
def execM8n8k4RowRowF32F32 (d a b c : Vec) (s : State) : Host.Outcome State Fault Refusal :=
  mmaStep (formF32F32 Config.dotF32F32 .row .row) (.m8n8k4RowRowF32F32 d a b c) ⟨d, a, b, c⟩ s

/-- `mma.sync.aligned.m8n8k4.row.col.f16.f16.f16.f16` (R112). -/
def execM8n8k4RowColF16F16 (d a b c : Vec) (s : State) : Host.Outcome State Fault Refusal :=
  mmaStep (formF16F16 Config.dotF16F16 .row .col) (.m8n8k4RowColF16F16 d a b c) ⟨d, a, b, c⟩ s

/-- `mma.sync.aligned.m8n8k4.row.col.f16.f16.f16.f32` (R113). -/
def execM8n8k4RowColF16F32 (d a b c : Vec) (s : State) : Host.Outcome State Fault Refusal :=
  mmaStep (formF16F32 Config.dotF16F32 .row .col) (.m8n8k4RowColF16F32 d a b c) ⟨d, a, b, c⟩ s

/-- `mma.sync.aligned.m8n8k4.row.col.f32.f16.f16.f16` (R114). -/
def execM8n8k4RowColF32F16 (d a b c : Vec) (s : State) : Host.Outcome State Fault Refusal :=
  mmaStep (formF32F16 Config.dotF32F16 .row .col) (.m8n8k4RowColF32F16 d a b c) ⟨d, a, b, c⟩ s

/-- `mma.sync.aligned.m8n8k4.row.col.f32.f16.f16.f32` (R115). -/
def execM8n8k4RowColF32F32 (d a b c : Vec) (s : State) : Host.Outcome State Fault Refusal :=
  mmaStep (formF32F32 Config.dotF32F32 .row .col) (.m8n8k4RowColF32F32 d a b c) ⟨d, a, b, c⟩ s

/-- `mma.sync.aligned.m8n8k4.col.row.f16.f16.f16.f16` (R112). -/
def execM8n8k4ColRowF16F16 (d a b c : Vec) (s : State) : Host.Outcome State Fault Refusal :=
  mmaStep (formF16F16 Config.dotF16F16 .col .row) (.m8n8k4ColRowF16F16 d a b c) ⟨d, a, b, c⟩ s

/-- `mma.sync.aligned.m8n8k4.col.row.f16.f16.f16.f32` (R113). -/
def execM8n8k4ColRowF16F32 (d a b c : Vec) (s : State) : Host.Outcome State Fault Refusal :=
  mmaStep (formF16F32 Config.dotF16F32 .col .row) (.m8n8k4ColRowF16F32 d a b c) ⟨d, a, b, c⟩ s

/-- `mma.sync.aligned.m8n8k4.col.row.f32.f16.f16.f16` (R114). -/
def execM8n8k4ColRowF32F16 (d a b c : Vec) (s : State) : Host.Outcome State Fault Refusal :=
  mmaStep (formF32F16 Config.dotF32F16 .col .row) (.m8n8k4ColRowF32F16 d a b c) ⟨d, a, b, c⟩ s

/-- `mma.sync.aligned.m8n8k4.col.row.f32.f16.f16.f32` (R115). -/
def execM8n8k4ColRowF32F32 (d a b c : Vec) (s : State) : Host.Outcome State Fault Refusal :=
  mmaStep (formF32F32 Config.dotF32F32 .col .row) (.m8n8k4ColRowF32F32 d a b c) ⟨d, a, b, c⟩ s

/-- `mma.sync.aligned.m8n8k4.col.col.f16.f16.f16.f16` (R112). -/
def execM8n8k4ColColF16F16 (d a b c : Vec) (s : State) : Host.Outcome State Fault Refusal :=
  mmaStep (formF16F16 Config.dotF16F16 .col .col) (.m8n8k4ColColF16F16 d a b c) ⟨d, a, b, c⟩ s

/-- `mma.sync.aligned.m8n8k4.col.col.f16.f16.f16.f32` (R113). -/
def execM8n8k4ColColF16F32 (d a b c : Vec) (s : State) : Host.Outcome State Fault Refusal :=
  mmaStep (formF16F32 Config.dotF16F32 .col .col) (.m8n8k4ColColF16F32 d a b c) ⟨d, a, b, c⟩ s

/-- `mma.sync.aligned.m8n8k4.col.col.f32.f16.f16.f16` (R114). -/
def execM8n8k4ColColF32F16 (d a b c : Vec) (s : State) : Host.Outcome State Fault Refusal :=
  mmaStep (formF32F16 Config.dotF32F16 .col .col) (.m8n8k4ColColF32F16 d a b c) ⟨d, a, b, c⟩ s

/-- `mma.sync.aligned.m8n8k4.col.col.f32.f16.f16.f32` (R115). -/
def execM8n8k4ColColF32F32 (d a b c : Vec) (s : State) : Host.Outcome State Fault Refusal :=
  mmaStep (formF32F32 Config.dotF32F32 .col .col) (.m8n8k4ColColF32F32 d a b c) ⟨d, a, b, c⟩ s

end Sys2Proof.Machine
end

