-- ==== Sys2Proof/Machine/M8n8k4F64.lean ====
section
/-! DEFINITION. The one form of `mma.m8n8k4` with `.f64` (`42_mma_m8n8k4_f64.md` R135). -/

namespace Sys2Proof.Machine

/-- `mma.sync.aligned.m8n8k4.row.col.f64.f64.f64.f64` (R135). -/
def execM8n8k4F64 (d a b c : Vec) (s : State) : Host.Outcome State Fault Refusal :=
  mmaStep (formF64 Config.dotF64) (.m8n8k4F64 d a b c) ⟨d, a, b, c⟩ s

end Sys2Proof.Machine
end

