-- ==== Sys2Proof/Machine/Named.lean ====
section
/-! DEFINITION. The three instructions the source names and does not describe (`45_named_not_described.md`): each is
refused by its name, X12 of `60_exceptions.md` R191. It "is not a no-op and does not fault: it has no meaning in this
model" (R185). -/

namespace Sys2Proof.Machine

/-- `ldmatrix` (R185): `refuse NotDescribed("ldmatrix")`. -/
def execLdmatrix (s : State) : Host.Outcome State Fault Refusal :=
  .refused (.rejected s.site (.notDescribed .ldmatrix))

/-- `stmatrix` (R186): `refuse NotDescribed("stmatrix")`. -/
def execStmatrix (s : State) : Host.Outcome State Fault Refusal :=
  .refused (.rejected s.site (.notDescribed .stmatrix))

/-- `movmatrix` (R187): `refuse NotDescribed("movmatrix")`. -/
def execMovmatrix (s : State) : Host.Outcome State Fault Refusal :=
  .refused (.rejected s.site (.notDescribed .movmatrix))

end Sys2Proof.Machine
end

