-- ==== Sys2Proof/Machine/Dispatch.lean ====
section
/-! DEFINITION. The dispatch: one arm for each constructor of `Instr`, one direct call of its meaning. -/

namespace Sys2Proof.Machine

def exec (i : Instr) (s : State) : Host.Outcome State Fault Refusal :=
  match i with
  | .m8n8k4RowRowF16F16 d a b c => Sys2Proof.Machine.execM8n8k4RowRowF16F16 d a b c s
  | .m8n8k4RowRowF16F32 d a b c => Sys2Proof.Machine.execM8n8k4RowRowF16F32 d a b c s
  | .m8n8k4RowRowF32F16 d a b c => Sys2Proof.Machine.execM8n8k4RowRowF32F16 d a b c s
  | .m8n8k4RowRowF32F32 d a b c => Sys2Proof.Machine.execM8n8k4RowRowF32F32 d a b c s
  | .m8n8k4RowColF16F16 d a b c => Sys2Proof.Machine.execM8n8k4RowColF16F16 d a b c s
  | .m8n8k4RowColF16F32 d a b c => Sys2Proof.Machine.execM8n8k4RowColF16F32 d a b c s
  | .m8n8k4RowColF32F16 d a b c => Sys2Proof.Machine.execM8n8k4RowColF32F16 d a b c s
  | .m8n8k4RowColF32F32 d a b c => Sys2Proof.Machine.execM8n8k4RowColF32F32 d a b c s
  | .m8n8k4ColRowF16F16 d a b c => Sys2Proof.Machine.execM8n8k4ColRowF16F16 d a b c s
  | .m8n8k4ColRowF16F32 d a b c => Sys2Proof.Machine.execM8n8k4ColRowF16F32 d a b c s
  | .m8n8k4ColRowF32F16 d a b c => Sys2Proof.Machine.execM8n8k4ColRowF32F16 d a b c s
  | .m8n8k4ColRowF32F32 d a b c => Sys2Proof.Machine.execM8n8k4ColRowF32F32 d a b c s
  | .m8n8k4ColColF16F16 d a b c => Sys2Proof.Machine.execM8n8k4ColColF16F16 d a b c s
  | .m8n8k4ColColF16F32 d a b c => Sys2Proof.Machine.execM8n8k4ColColF16F32 d a b c s
  | .m8n8k4ColColF32F16 d a b c => Sys2Proof.Machine.execM8n8k4ColColF32F16 d a b c s
  | .m8n8k4ColColF32F32 d a b c => Sys2Proof.Machine.execM8n8k4ColColF32F32 d a b c s
  | .m8n8k4F64 d a b c => Sys2Proof.Machine.execM8n8k4F64 d a b c s
  | .m8n8k16S8S8 d a b c => Sys2Proof.Machine.execM8n8k16S8S8 d a b c s
  | .m8n8k16SatfiniteS8S8 d a b c => Sys2Proof.Machine.execM8n8k16SatfiniteS8S8 d a b c s
  | .m8n8k16S8U8 d a b c => Sys2Proof.Machine.execM8n8k16S8U8 d a b c s
  | .m8n8k16SatfiniteS8U8 d a b c => Sys2Proof.Machine.execM8n8k16SatfiniteS8U8 d a b c s
  | .m8n8k16U8S8 d a b c => Sys2Proof.Machine.execM8n8k16U8S8 d a b c s
  | .m8n8k16SatfiniteU8S8 d a b c => Sys2Proof.Machine.execM8n8k16SatfiniteU8S8 d a b c s
  | .m8n8k16U8U8 d a b c => Sys2Proof.Machine.execM8n8k16U8U8 d a b c s
  | .m8n8k16SatfiniteU8U8 d a b c => Sys2Proof.Machine.execM8n8k16SatfiniteU8U8 d a b c s
  | .m8n8k32S4S4 d a b c => Sys2Proof.Machine.execM8n8k32S4S4 d a b c s
  | .m8n8k32SatfiniteS4S4 d a b c => Sys2Proof.Machine.execM8n8k32SatfiniteS4S4 d a b c s
  | .m8n8k32S4U4 d a b c => Sys2Proof.Machine.execM8n8k32S4U4 d a b c s
  | .m8n8k32SatfiniteS4U4 d a b c => Sys2Proof.Machine.execM8n8k32SatfiniteS4U4 d a b c s
  | .m8n8k32U4S4 d a b c => Sys2Proof.Machine.execM8n8k32U4S4 d a b c s
  | .m8n8k32SatfiniteU4S4 d a b c => Sys2Proof.Machine.execM8n8k32SatfiniteU4S4 d a b c s
  | .m8n8k32U4U4 d a b c => Sys2Proof.Machine.execM8n8k32U4U4 d a b c s
  | .m8n8k32SatfiniteU4U4 d a b c => Sys2Proof.Machine.execM8n8k32SatfiniteU4U4 d a b c s
  | .ldmatrix => Sys2Proof.Machine.execLdmatrix s
  | .stmatrix => Sys2Proof.Machine.execStmatrix s
  | .movmatrix => Sys2Proof.Machine.execMovmatrix s

end Sys2Proof.Machine
end

