-- ==== Sys2Proof/Machine/Step.lean ====
section
/-! DEFINITION. The step of the machine: the whole program is decoded, and a refused statement refuses the program
before any step (`60_exceptions.md` R192); then the statement all 32 threads stand at is run
(`40_mma_common.md` R76, R89). -/

namespace Sys2Proof.Machine

/-- One step: refused, over, stuck, or the instruction at the common statement index (R192, R194, R218). -/
def step (s : State) : Host.Outcome State Fault Refusal :=
  match s.instrs with
  | .error r => .refused r
  | .ok is =>
    if s.allExited then .fault .runEnded
    else
      match s.enabledAt with
      | none => .fault .stuck
      | some p =>
        match is[p]? with
        | none => .fault .runEnded
        | some i => exec i s

/-- The state with the statement that a number spells loaded as a one-statement program, ready for the next step
(log entry 10). -/
def State.withFetchWord (s : State) (nbits w : Nat) : State := s.loadOne (textOfWord nbits w)

end Sys2Proof.Machine
end

