-- ==== Sys2Proof/Machine/Floats.lean ====
section
/-! DEFINITION. The floating-point formats behind the type names (`10_state.md` R23) and the one named property a
claim may assume of a numeric function, `exact_when_representable` (`40_mma_common.md` R85). The step uses nothing of
this file: the numeric functions stay uninterpreted (R84). -/

namespace Sys2Proof.Machine

/-- An IEEE 754 binary format: widths of its exponent and fraction fields. -/
structure FloatFormat where
  expBits : Nat
  fracBits : Nat
  deriving DecidableEq, Repr

/-- binary16, binary32, binary64 (`10_state.md` R23). -/
def fmtF16 : FloatFormat := ⟨5, 10⟩
def fmtF32 : FloatFormat := ⟨8, 23⟩
def fmtF64 : FloatFormat := ⟨11, 52⟩

/-- Width of the format in bits. -/
def FloatFormat.width (F : FloatFormat) : Nat := 1 + F.expBits + F.fracBits

/-- The sign bit of a pattern. -/
def FloatFormat.negative (F : FloatFormat) (x : Nat) : Bool := x / 2 ^ (F.expBits + F.fracBits) % 2 == 1

/-- The number a pattern stands for, `none` for an infinity or a NaN. -/
def FloatFormat.value (F : FloatFormat) (x : Nat) : Option ℚ :=
  let ex := x / 2 ^ F.fracBits % 2 ^ F.expBits
  let frac := x % 2 ^ F.fracBits
  let sign : ℚ := if F.negative x then -1 else 1
  let scale : Int := 2 ^ (F.expBits - 1) - 1 + F.fracBits
  if ex = 2 ^ F.expBits - 1 then none
  else if ex = 0 then some (sign * frac * (2 : ℚ) ^ (1 - scale))
  else some (sign * (2 ^ F.fracBits + frac : Nat) * (2 : ℚ) ^ ((ex : Int) - scale))

/-- A number is exactly representable in a format. -/
def FloatFormat.Represents (F : FloatFormat) (q : ℚ) : Prop := ∃ x < 2 ^ F.width, F.value x = some q

/-- `exact_when_representable` (R85) of a numeric function with multiplicands of format `Fm`, an accumulator of format
`Fc`, a result of format `Fd`, where `F` is the narrowest of the formats involved. -/
def ExactWhenRepresentable {wm wc wd : Nat} (Fm Fc Fd F : FloatFormat)
    (dot : Vector (BitVec wm) 4 → Vector (BitVec wm) 4 → BitVec wc → BitVec wd) : Prop :=
  ∀ (a b : Vector (BitVec wm) 4) (c : BitVec wc) (va vb : Fin 4 → ℚ) (vc : ℚ),
    (∀ k, Fm.value a[k].toNat = some (va k)) → (∀ k, Fm.value b[k].toNat = some (vb k)) →
    Fc.value c.toNat = some vc →
    (∀ k, F.Represents (va k * vb k)) →
    (∀ sub ∈ (vc :: (List.finRange 4).map (fun k => va k * vb k)).sublists, sub ≠ [] → F.Represents sub.sum) →
    let S := vc + ((List.finRange 4).map (fun k => va k * vb k)).sum
    (S ≠ 0 → Fd.value (dot a b c).toNat = some S) ∧
    (S = 0 → Fd.value (dot a b c).toNat = some 0) ∧
    (c = 0 → (∀ k, va k * vb k = 0 ∧ Fm.negative a[k].toNat = Fm.negative b[k].toNat) → dot a b c = 0)

/-- R85 of `dot_f16_f16`, `dot_f16_f32`, `dot_f32_f16`, `dot_f32_f32` and `dot_f64`, each with its narrowest format. -/
def ExactF16F16 (dot : Dot16 16 16) : Prop := ExactWhenRepresentable fmtF16 fmtF16 fmtF16 fmtF16 dot
def ExactF16F32 (dot : Dot16 32 16) : Prop := ExactWhenRepresentable fmtF16 fmtF32 fmtF16 fmtF16 dot
def ExactF32F16 (dot : Dot16 16 32) : Prop := ExactWhenRepresentable fmtF16 fmtF16 fmtF32 fmtF16 dot
def ExactF32F32 (dot : Dot16 32 32) : Prop := ExactWhenRepresentable fmtF16 fmtF32 fmtF32 fmtF32 dot
def ExactF64 (dot : Vector (BitVec 64) 4 → Vector (BitVec 64) 4 → BitVec 64 → BitVec 64) : Prop :=
  ExactWhenRepresentable fmtF64 fmtF64 fmtF64 fmtF64 dot

end Sys2Proof.Machine
end

