-- ==== Sys2Proof/Safety.lean ====
section
/-! DEFINITION. The terms in which claims speak: what a completed step is, what a run may end in, the invariant, and
the written-out forms of what one thread computes (`42_mma_m8n8k4_f64.md` R135, `43_mma_m8n8k16.md` R150,
`44_mma_m8n8k32.md` R170, and for the `.f16` family the recovered figures of `41_mma_m8n8k4_f16.md` section 5). None
of them is used by the step. -/

namespace Sys2Proof.Machine

/-! ## Conditions on a state -/

/-- All 32 threads are `running` at statement `p` (R76). -/
abbrev EnabledAt (s : State) (p : Nat) : Prop := ∀ l : Lane, s.threads[l].status = .running ∧ s.threads[l].pc = p

/-- Every register of a list holds a value in every thread (R22, `70_reset_and_hazards.md` R217 (b)). -/
abbrev AllHold (s : State) (rs : List RegName) : Prop := ∀ l : Lane, ∀ r ∈ rs, (s.readReg l r).isSome = true

/-- Every register of a list holds this value in every thread. -/
abbrev AllEqual (s : State) (rs : List RegName) (v : Value) : Prop := ∀ l : Lane, ∀ r ∈ rs, s.readReg l r = some v

/-- A vector of `n` registers, each declared in a type that serves the role asking for `ty`: `ty` itself, or, where the
configuration admits them, untyped bits of its width (`30_encoding.md` R63, R64 `operand_type`). -/
abbrev HasRole (s : State) (v : Vec) (n : Nat) (ty : RegType) : Prop :=
  v.length = n ∧
    ∀ r ∈ v, (typeOf s.setup.decls r).any (fun t => RegType.fits s.setup.params.admitUntyped t ty) = true

/-- The operands stand in the roles of a form and the destination names are pairwise different (R63, R91 (b)). -/
abbrev OperandsFit (s : State) (o : Operands) (r : Roles) : Prop :=
  HasRole s o.d r.d.1 r.d.2 ∧ HasRole s o.a r.a.1 r.a.2 ∧ HasRole s o.b r.b.1 r.b.2 ∧ HasRole s o.c r.c.1 r.c.2 ∧
    o.d.Nodup

/-- `r` of lane `l` is the first register without a value: lanes ascending, within a lane in the order given
(`40_mma_common.md` R89, R90). -/
def FirstUnwritten (s : State) (rs : List RegName) (l : Lane) (r : RegName) : Prop :=
  (∃ before after, rs = before ++ r :: after ∧ s.readReg l r = none ∧
    ∀ x ∈ before, (s.readReg l x).isSome = true) ∧
  ∀ m : Lane, m < l → ∀ x ∈ rs, (s.readReg m x).isSome = true

/-- The instruction is one of the 33 forms of `mma`, with these qualifiers and operands. -/
def IsMma (i : Instr) (q : Quals) (o : Operands) : Prop := i.form = .inl (q, o)

/-! ## A completed step -/

/-- Outside the destination registers nothing of the registers and nothing of the configuration has changed. -/
def Unchanged (s t : State) (d : Vec) : Prop :=
  t.setup = s.setup ∧ ∀ (l : Lane) (r : RegName), r ∉ d → t.readReg l r = s.readReg l r

/-- Every thread has moved from statement `p` to the next, and has exited there if the program has no statement left
(`10_state.md` R26, R33). -/
def Advanced (s t : State) (p : Nat) : Prop :=
  ∀ l : Lane, t.threads[l].pc = p + 1 ∧
    t.threads[l].status = if s.setup.program.length ≤ p + 1 then Status.exited else Status.running

/-- The instruction completes: a next state in which register `j` of the destination vector of lane `l` holds
`result l j`, all else is unchanged, and every thread has moved on from `p`. -/
def Completes (i : Instr) (d : Vec) (s : State) (p : Nat) (result : Lane → Nat → Value) : Prop :=
  ∃ t, exec i s = .next t ∧
    (∀ (l : Lane) (j : Nat) (h : j < d.length), t.readReg l d[j] = some (result l j)) ∧
    Unchanged s t d ∧ Advanced s t p

/-! ## Programs and runs -/

/-- A statement decodes to an instruction that nothing refuses (`30_encoding.md` R64, R67). -/
def StatementAdmitted (su : Setup) (t : Text) (i : Instr) : Prop :=
  decode su.params su.decls t = .ok i ∧ i.refusal su.params su.decls = none

/-- A statement is refused for a reason (`60_exceptions.md` R191). -/
def StatementRefused (su : Setup) (t : Text) (why : Reject) : Prop :=
  decode su.params su.decls t = .error why ∨
    ∃ i, decode su.params su.decls t = .ok i ∧ i.refusal su.params su.decls = some why

/-- The opcode word of a statement: what stands, after a guard, before the first dot (`30_encoding.md` R55, R65). -/
def opcodeWord (t : Text) : Text :=
  (splitAt bDot ((takeGuard (skipBlanks t)).2.takeWhile isWordByte)).headD []

/-- The final state of a run: all threads `exited`, no refusal mark (`70_reset_and_hazards.md` R218). -/
def Final (s : State) : Prop := (∀ l : Lane, s.threads[l].status = .exited) ∧ s.refusal = none

/-- A layout map gives every cell of an `M` by `N` matrix to exactly one of the `n` elements of exactly one member
lane, and no element falls outside (`40_mma_common.md` R82). -/
def CoversOnce (member : Lane → Prop) (n M N : Nat) (loc : LayoutMap) : Prop :=
  (∀ (l : Lane) (i : Nat), member l → i < n → (loc l.val i).1 < M ∧ (loc l.val i).2 < N) ∧
    ∀ r < M, ∀ c < N, ∃! x : Lane × Nat, member x.1 ∧ x.2 < n ∧ loc x.1.val x.2 = (r, c)

/-! ## The invariant -/

/-- A register file in canonical form whose every value has the width of its register's declared type (R22, R23). -/
def RegsWf (ds : List Decl) (rf : RegFile) : Prop :=
  rf.wf ∧ ∀ x ∈ rf, ∃ d, ds[x.1]? = some d ∧ x.2.width = d.2.width

/-- All threads stand together, and their status agrees with where they stand (R26, R33; `60_exceptions.md` R205
(c)). In a program without statements they stand at 0 and nothing moves. -/
def Together (s : State) : Prop :=
  ∃ (p : Nat) (st : Status), (∀ l : Lane, s.threads[l].pc = p ∧ s.threads[l].status = st) ∧
    (st = .exited → p = s.setup.program.length) ∧
    (st ≠ .exited → p < s.setup.program.length ∨ (p = 0 ∧ s.setup.program = []))

/-- The invariant of the machine. -/
def Inv (s : State) : Prop := (∀ l : Lane, RegsWf s.setup.decls s.threads[l].regs) ∧ Together s

/-! ## What one thread computes, written out -/

/-- The lane with a number. -/
def laneOf (n : Nat) : Lane := Fin.ofNat 32 n

/-- The first lane of the low group of a lane's computation (R101). -/
def lowBase (l : Lane) : Nat := 4 * ((l.val % 16) / 4)

/-- 16 for the lower half of a matrix with eight rows (or its right half), else 0: the step from the low to the high
group (R101). -/
def highStep (x : Nat) : Nat := if 4 ≤ x then 16 else 0

/-- The (row, column) of the D element `i` of a lane, by the accumulator type (R108, R109 "bit by bit"). -/
def cellF16 (l : Lane) (i : Nat) : Nat × Nat := (l.val % 4 + (if 16 ≤ l.val then 4 else 0), i)
def cellF32 (l : Lane) (i : Nat) : Nat × Nat :=
  (l.val % 2 + 2 * (i / 2 % 2) + 4 * (l.val / 16), i % 2 + 2 * (l.val / 2 % 2) + 4 * (i / 4 % 2))

/-- Which lane of the computation of lane `l` holds A[r][k], and as which element (R104, R105). -/
def atA (al : Layout) (l : Lane) (r k : Nat) : Lane × Nat :=
  match al with
  | .row => (laneOf (lowBase l + r % 4 + highStep r), k)
  | .col => (laneOf (lowBase l + k + highStep r), r % 4)

/-- The same for B[k][n] (R106, R107). -/
def atB (bl : Layout) (l : Lane) (k n : Nat) : Lane × Nat :=
  match bl with
  | .row => (laneOf (lowBase l + k + highStep n), n % 4)
  | .col => (laneOf (lowBase l + n % 4 + highStep n), k)

/-- The same for C[r][n] of type `.f16` (R108). -/
def atC16 (l : Lane) (r n : Nat) : Lane × Nat := (laneOf (lowBase l + r % 4 + highStep r), n)

/-- The same for C[r][n] of type `.f32` (R109 "bit by bit"). -/
def atC32 (l : Lane) (r n : Nat) : Lane × Nat :=
  (laneOf (lowBase l + r % 2 + 2 * (n / 2 % 2) + highStep r), n % 2 + 2 * (r / 2 % 2) + 4 * (n / 4))

/-- The 32 bits of a register of 32 bits. -/
def Value.bits32 : Value → BitVec 32
  | .w32 v => v
  | .w64 v => v.setWidth 32

/-- The 64 bits of a register of 64 bits. -/
def Value.bits64 : Value → BitVec 64
  | .w32 v => v.setWidth 64
  | .w64 v => v

/-- `.f16` element `i` of a vector of `.f16x2` registers: the low half of register `i / 2` for even `i`, the high half
for odd `i` (R79, R102). -/
def half (s : State) (l : Lane) (v : Vec) (i : Nat) : BitVec 16 :=
  let r := (s.reg l (v.getD (i / 2) [])).bits32
  if i % 2 = 0 then r.extractLsb' 0 16 else r.extractLsb' 16 16

/-- The `.f32` or `.s32` element `i` of a vector of one-element registers (R79). -/
def word (s : State) (l : Lane) (v : Vec) (i : Nat) : BitVec 32 := (s.reg l (v.getD i [])).bits32

/-- A's row and B's column for the cell (r, n) of lane `l`'s computation. -/
def rowOfA (al : Layout) (s : State) (v : Vec) (l : Lane) (r : Nat) : Vector (BitVec 16) 4 :=
  Vector.ofFn (fun k : Fin 4 => half s (atA al l r k).1 v (atA al l r k).2)
def colOfB (bl : Layout) (s : State) (v : Vec) (l : Lane) (n : Nat) : Vector (BitVec 16) 4 :=
  Vector.ofFn (fun k : Fin 4 => half s (atB bl l k n).1 v (atB bl l k n).2)

/-- The accumulator cell (r, n) of lane `l`'s computation, by its type. -/
def accCell16 (s : State) (v : Vec) (l : Lane) (rn : Nat × Nat) : BitVec 16 :=
  half s (atC16 l rn.1 rn.2).1 v (atC16 l rn.1 rn.2).2
def accCell32 (s : State) (v : Vec) (l : Lane) (rn : Nat × Nat) : BitVec 32 :=
  word s (atC32 l rn.1 rn.2).1 v (atC32 l rn.1 rn.2).2

/-- The D elements of the four accumulator forms (R112 to R115): `dot` of A's row, B's column and C's cell. -/
def elemF16F16 (al bl : Layout) (s : State) (o : Operands) (l : Lane) (i : Nat) : BitVec 16 :=
  let rn := cellF16 l i
  Config.dotF16F16 (rowOfA al s o.a l rn.1) (colOfB bl s o.b l rn.2) (accCell16 s o.c l rn)
def elemF16F32 (al bl : Layout) (s : State) (o : Operands) (l : Lane) (i : Nat) : BitVec 16 :=
  let rn := cellF16 l i
  Config.dotF16F32 (rowOfA al s o.a l rn.1) (colOfB bl s o.b l rn.2) (accCell32 s o.c l rn)
def elemF32F16 (al bl : Layout) (s : State) (o : Operands) (l : Lane) (i : Nat) : BitVec 32 :=
  let rn := cellF32 l i
  Config.dotF32F16 (rowOfA al s o.a l rn.1) (colOfB bl s o.b l rn.2) (accCell16 s o.c l rn)
def elemF32F32 (al bl : Layout) (s : State) (o : Operands) (l : Lane) (i : Nat) : BitVec 32 :=
  let rn := cellF32 l i
  Config.dotF32F32 (rowOfA al s o.a l rn.1) (colOfB bl s o.b l rn.2) (accCell32 s o.c l rn)

/-- A `.f16x2` register with its two elements, the first in the low half (R79, R80). -/
def pair16 (e : Nat → BitVec 16) (j : Nat) : Value := .w32 (e (2 * j + 1) ++ e (2 * j))

/-- `d_i` of the `.f64` form, as R135 writes it out for one thread. -/
def elemF64 (s : State) (o : Operands) (l : Lane) (i : Nat) : BitVec 64 :=
  let g := l.val / 4
  let n := 2 * (l.val % 4) + i
  Config.dotF64 (Vector.ofFn (fun k : Fin 4 => (s.reg (laneOf (4 * g + k)) (o.a.getD 0 [])).bits64))
    (Vector.ofFn (fun k : Fin 4 => (s.reg (laneOf (4 * n + k)) (o.b.getD 0 [])).bits64))
    (s.reg l (o.c.getD i [])).bits64

/-- Byte `i` of a register, and hexadecimal digit `i` of a register (R146, R166). -/
def byteOf (v : Value) (i : Nat) : BitVec 8 := v.bits32.extractLsb' (8 * i) 8
def digitOf (v : Value) (i : Nat) : BitVec 4 := v.bits32.extractLsb' (4 * i) 4

/-- `S` of R150. -/
def sumK16 (atype btype : ElemType) (s : State) (o : Operands) (l : Lane) (i : Nat) : Int :=
  let g := l.val / 4
  let n := 2 * (l.val % 4) + i
  sext (word s l o.c i) +
    ((List.range 16).map (fun k =>
      extend atype (byteOf (s.reg (laneOf (4 * g + k / 4)) (o.a.getD 0 [])) (k % 4)) *
        extend btype (byteOf (s.reg (laneOf (4 * n + k / 4)) (o.b.getD 0 [])) (k % 4)))).sum

/-- `S` of R170. -/
def sumK32 (atype btype : ElemType) (s : State) (o : Operands) (l : Lane) (i : Nat) : Int :=
  let g := l.val / 4
  let n := 2 * (l.val % 4) + i
  sext (word s l o.c i) +
    ((List.range 32).map (fun k =>
      extend atype (digitOf (s.reg (laneOf (4 * g + k / 8)) (o.a.getD 0 [])) (k % 8)) *
        extend btype (digitOf (s.reg (laneOf (4 * n + k / 8)) (o.b.getD 0 [])) (k % 8)))).sum

end Sys2Proof.Machine
end

