-- ==== Sys2Proof/Certificates/Slice0/Obligations.lean ====
section
/-! DEFINITION. The statements about the model, one `def` each. The words they use are those of the model and of
`Safety.lean`; the rule of spec/ a statement formalises stands in its docstring. -/

open Sys2Proof Sys2Proof.Machine

/-! ## Launch and reset -/

/-- R31, R215, R216: at launch every thread is `running` at statement 0, and a register holds a value exactly where
the launch names it as an input of that lane (that the last naming counts, and that a value is stored as given whatever
its width, are the model's choices: log entry 1). -/
def Obligations.LaunchHoldsItsInputs : Prop :=
  ∀ (su : Setup) (inputs : List (Lane × RegName × Value)),
    (State.launch su inputs).setup = su ∧ EnabledAt (State.launch su inputs) 0 ∧
    ∀ (l : Lane) (r : RegName),
      (State.launch su inputs).readReg l r =
        if (regIndex su.decls r).isSome then
          (inputs.reverse.find? (fun x => decide (x.1 = l ∧ x.2.1 = r))).map (fun x => x.2.2)
        else none

/-- R31, R215 for the empty program (log entry 2): the state after reset is that launch; no register is declared, so
none lacks a value, and nothing is left to run. -/
def Obligations.ResetIsTheEmptyLaunch : Prop :=
  State.reset = State.launch emptySetup [] ∧ EnabledAt State.reset 0 ∧
    (∀ r, typeOf State.reset.setup.decls r = none) ∧ State.reset.refusal = none ∧ step State.reset = .fault .runEnded

/-- R24: `%laneid` takes each of the values 0 to 31 in exactly one thread, and no step changes it; it is no operand:
its name never has a register. -/
def Obligations.LaneIdentity : Prop :=
  (∀ s : State, (∀ l, (s.laneid l).toNat < 32) ∧ (∀ l m, s.laneid l = s.laneid m → l = m) ∧
    (∀ n < 32, ∃ l, (s.laneid l).toNat = n)) ∧
  (∀ s t, step s = .next t → ∀ l, t.laneid l = s.laneid l) ∧ ∀ ds, typeOf ds laneidName = none

/-! ## Layout maps -/

/-- R82: each of the fifteen layout maps is a bijection onto the cells of its matrix: for the `.f16` family with the
lanes of each of the four computations, for the other families with all 32. -/
def Obligations.LayoutMapsAreBijections : Prop :=
  (∀ q, 1 ≤ q → q ≤ 4 →
    CoversOnce (fun l => compF16 l.val = q) 4 8 4 locARow ∧ CoversOnce (fun l => compF16 l.val = q) 4 8 4 locACol ∧
    CoversOnce (fun l => compF16 l.val = q) 4 4 8 locBRow ∧ CoversOnce (fun l => compF16 l.val = q) 4 4 8 locBCol ∧
    CoversOnce (fun l => compF16 l.val = q) 8 8 8 locCdF16 ∧
    CoversOnce (fun l => compF16 l.val = q) 8 8 8 locCdF32) ∧
  CoversOnce (fun _ => True) 1 8 4 locAF64 ∧ CoversOnce (fun _ => True) 1 4 8 locBF64 ∧
  CoversOnce (fun _ => True) 2 8 8 locCdF64 ∧
  CoversOnce (fun _ => True) 4 8 16 locAK16 ∧ CoversOnce (fun _ => True) 4 16 8 locBK16 ∧
  CoversOnce (fun _ => True) 2 8 8 locCdK16 ∧
  CoversOnce (fun _ => True) 8 8 32 locAK32 ∧ CoversOnce (fun _ => True) 8 32 8 locBK32 ∧
  CoversOnce (fun _ => True) 2 8 8 locCdK32

/-- R101: which lanes take part in which of the four computations, by the rows of its table and by its formula; four of
the eight are the low group, four the high group; whatever cell of a computation is held, its holder takes part in it. -/
def Obligations.ParticipationTable : Prop :=
  ∀ l : Lane,
    compF16 l.val = (l.val % 16) / 4 + 1 ∧
    (∀ (p : Part) (q r c i : Nat), holder compF16 p q r c = some (l, i) → compF16 l.val = q) ∧
    (compF16 l.val = 1 ↔ l.val ≤ 3 ∨ (16 ≤ l.val ∧ l.val ≤ 19)) ∧
    (compF16 l.val = 2 ↔ (4 ≤ l.val ∧ l.val ≤ 7) ∨ (20 ≤ l.val ∧ l.val ≤ 23)) ∧
    (compF16 l.val = 3 ↔ (8 ≤ l.val ∧ l.val ≤ 11) ∨ (24 ≤ l.val ∧ l.val ≤ 27)) ∧
    (compF16 l.val = 4 ↔ (12 ≤ l.val ∧ l.val ≤ 15) ∨ 28 ≤ l.val) ∧
    (hi4 l.val = 4 ↔ 16 ≤ l.val) ∧ (hi4 l.val = 0 ↔ l.val < 16) ∧
    (lanes.filter (fun m => decide (compF16 m.val = compF16 l.val ∧ m.val < 16))).length = 4 ∧
    (lanes.filter (fun m => decide (compF16 m.val = compF16 l.val ∧ 16 ≤ m.val))).length = 4

/-- R136: the group of a lane and its number in the group. -/
def Obligations.LaneIsGroupAndThread : Prop :=
  ∀ l : Lane, groupId l.val = l.val / 2 ^ 2 ∧ threadInGroup l.val = l.val % 4 ∧
    groupId l.val ≤ 7 ∧ threadInGroup l.val ≤ 3 ∧ l.val = 4 * groupId l.val + threadInGroup l.val ∧
    ∀ g, groupId l.val = g ↔ 4 * g ≤ l.val ∧ l.val ≤ 4 * g + 3

/-- R104 to R109: the layout maps of the `.f16` family in the source's words, and what R109 says of the last of them bit
by bit; a thread holds two rows and two pairs of columns of an accumulator of type `.f32`. -/
def Obligations.LayoutFormulasF16 : Prop :=
  ∀ l : Lane,
    (∀ i < 4,
      locARow l.val i = (if l.val < 16 then l.val % 4 else l.val % 4 + 4, i) ∧
      locACol l.val i = (if l.val < 16 then i % 4 else i % 4 + 4, l.val % 4) ∧
      locBRow l.val i = (l.val % 4, if l.val < 16 then i else i + 4) ∧
      locBCol l.val i = (i, if l.val < 16 then l.val % 4 else l.val % 4 + 4)) ∧
    (∀ i < 8,
      locCdF16 l.val i = (if l.val < 16 then l.val % 4 else l.val % 4 + 4, i) ∧
      locCdF32 l.val i =
        (if l.val < 16 then (l.val &&& 1) + (i &&& 2) else (l.val &&& 1) + (i &&& 2) + 4,
          (i &&& 4) + (l.val &&& 2) + (i &&& 1)) ∧
      (locCdF32 l.val i).1.testBit 0 = l.val.testBit 0 ∧ (locCdF32 l.val i).1.testBit 1 = i.testBit 1 ∧
      (locCdF32 l.val i).1.testBit 2 = decide (16 ≤ l.val) ∧ (locCdF32 l.val i).2.testBit 0 = i.testBit 0 ∧
      (locCdF32 l.val i).2.testBit 1 = l.val.testBit 1 ∧ (locCdF32 l.val i).2.testBit 2 = i.testBit 2) ∧
    let first := (locCdF32 l.val 0)
    (List.range 8).map (fun i => (locCdF32 l.val i).1) =
      [first.1, first.1, first.1 + 2, first.1 + 2, first.1, first.1, first.1 + 2, first.1 + 2] ∧
    (List.range 8).map (fun i => (locCdF32 l.val i).2) =
      [first.2, first.2 + 1, first.2, first.2 + 1, first.2 + 4, first.2 + 5, first.2 + 4, first.2 + 5]

/-- R131 to R133, R147 to R149, R167 to R169: the layout maps of the other families in the source's words; lanes in
order walk A of the `.f64` family row by row and B column by column; the three accumulator maps are the same. -/
def Obligations.LayoutFormulasOther : Prop :=
  ∀ l : Lane,
    let g := l.val >>> 2
    let t4 := l.val % 4
    locAF64 l.val 0 = (g, t4) ∧ locBF64 l.val 0 = (t4, g) ∧
    4 * (locAF64 l.val 0).1 + (locAF64 l.val 0).2 = l.val ∧ 4 * (locBF64 l.val 0).2 + (locBF64 l.val 0).1 = l.val ∧
    (∀ i < 4, locAK16 l.val i = (g, t4 * 4 + i) ∧ locBK16 l.val i = (t4 * 4 + i, g)) ∧
    (∀ i < 8, locAK32 l.val i = (g, t4 * 8 + i) ∧ locBK32 l.val i = (t4 * 8 + i, g)) ∧
    ∀ i < 2, locCdF64 l.val i = (g, t4 * 2 + (i &&& 1)) ∧ locCdK16 l.val i = (g, t4 * 2 + i) ∧
      locCdK32 l.val i = (g, t4 * 2 + i) ∧ locCdF64 l.val i = locCdK16 l.val i ∧ locCdK16 l.val i = locCdK32 l.val i

/-- R104 to R109 with R81, the figures of `41_mma_m8n8k4_f16.md` section 5: which lane of a computation holds a cell
of A, B or an accumulator, and as which element. -/
def Obligations.HoldersOfF16Cells : Prop :=
  ∀ l : Lane,
    (∀ al, ∀ r < 8, ∀ k < 4, holder compF16 (partA16 al) (compF16 l.val) r k = some (atA al l r k)) ∧
    (∀ bl, ∀ k < 4, ∀ n < 8, holder compF16 (partB16 bl) (compF16 l.val) k n = some (atB bl l k n)) ∧
    (∀ r < 8, ∀ n < 8, holder compF16 accF16 (compF16 l.val) r n = some (atC16 l r n)) ∧
    (∀ r < 8, ∀ n < 8, holder compF16 accF32 (compF16 l.val) r n = some (atC32 l r n))

/-- R131 to R133, R147 to R149, R167 to R169 with R81: the same for the other families. -/
def Obligations.HoldersOfOtherCells : Prop :=
  (∀ r < 8, ∀ k < 4, holder compAll ⟨1, 1, locAF64⟩ 1 r k = some (laneOf (4 * r + k), 0)) ∧
  (∀ k < 4, ∀ n < 8, holder compAll ⟨1, 1, locBF64⟩ 1 k n = some (laneOf (4 * n + k), 0)) ∧
  (∀ r < 8, ∀ k < 16, holder compAll ⟨4, 4, locAK16⟩ 1 r k = some (laneOf (4 * r + k / 4), k % 4)) ∧
  (∀ k < 16, ∀ n < 8, holder compAll ⟨4, 4, locBK16⟩ 1 k n = some (laneOf (4 * n + k / 4), k % 4)) ∧
  (∀ r < 8, ∀ k < 32, holder compAll ⟨8, 8, locAK32⟩ 1 r k = some (laneOf (4 * r + k / 8), k % 8)) ∧
  (∀ k < 32, ∀ n < 8, holder compAll ⟨8, 8, locBK32⟩ 1 k n = some (laneOf (4 * n + k / 8), k % 8)) ∧
  ∀ r < 8, ∀ n < 8,
    holder compAll ⟨2, 1, locCdF64⟩ 1 r n = some (laneOf (4 * r + n / 2), n % 2) ∧
    holder compAll ⟨2, 1, locCdK16⟩ 1 r n = some (laneOf (4 * r + n / 2), n % 2) ∧
    holder compAll ⟨2, 1, locCdK32⟩ 1 r n = some (laneOf (4 * r + n / 2), n % 2)

/-! ## Elements and registers -/

/-- R79: element `i` is in register `i / per` of the vector, at bits `w * (i % per)` upward. -/
def Obligations.ElementPlacement : Prop :=
  ∀ (read : RegName → Value) (vec : Vec) (per w i b : Nat), b < w →
    (fragElement read vec per w i).getLsbD b =
      match read (vec.getD (i / per) []) with
      | .w32 x => x.getLsbD (w * (i % per) + b)
      | .w64 x => x.getLsbD (w * (i % per) + b)

/-- R80: a destination register is put together whole: it has its type's width and each of its `per` elements of `w`
bits is read back from it. -/
def Obligations.PackedElementsReadBack : Prop :=
  ∀ (ty : RegType) (per w : Nat) (e : Nat → BitVec w) (j : Nat), w * per = ty.width →
    (packRegister ty per e j).width = ty.width ∧
    ∀ x < per, (packRegister ty per e j).element w x = e (per * j + x)

/-! ## Integer arithmetic -/

/-- R86: `wrap32` of the exact sum is what comes of doing every multiplication and addition modulo 2^32, in any
order of the products. -/
def Obligations.WrapIsModularInAnyOrder : Prop :=
  ∀ (w K : Nat) (atype btype : ElemType) (a b : Vector (BitVec w) K) (c : BitVec 32) (ks : List (Fin K)),
    0 < w → w ≤ 32 → ks.Perm (List.finRange K) →
    intCell atype btype .wrap a b c =
      ks.foldl
        (fun acc k =>
          acc + (if atype.signed then a[k].signExtend 32 else a[k].setWidth 32) *
            (if btype.signed then b[k].signExtend 32 else b[k].setWidth 32)) c

/-- R86: with `.satfinite` the exact sum is clamped once, and where it lies in the range of `.s32` both modes give
it unchanged. -/
def Obligations.SatfiniteClampsOnce : Prop :=
  ∀ (w K : Nat) (atype btype : ElemType) (a b : Vector (BitVec w) K) (c : BitVec 32),
    (intCell atype btype .satfinite a b c).toInt =
      min (max (exactSum atype btype a b c) (-2147483648)) 2147483647 ∧
    (-2147483648 ≤ exactSum atype btype a b c → exactSum atype btype a b c ≤ 2147483647 →
      (intCell atype btype .satfinite a b c).toInt = exactSum atype btype a b c ∧
      (intCell atype btype .wrap a b c).toInt = exactSum atype btype a b c)

/-- R86, the bounds, and the product ranges of R152 to R155 and R172 to R175 summed: how far the sum of products can
move the accumulator, for `m8n8k16` and `m8n8k32` and each of the four pairs of types. -/
def Obligations.SumOfProductsBounds : Prop :=
  (∀ (a b : Vector (BitVec 8) 16) (c : BitVec 32),
    let moved := fun atype btype => exactSum atype btype a b c - sext c
    |moved .s8 .s8| ≤ 2 ^ 18 ∧ |moved .u8 .u8| ≤ 1040400 ∧ -260096 ≤ moved .s8 .s8 ∧ 0 ≤ moved .u8 .u8 ∧
      (-522240 ≤ moved .s8 .u8 ∧ moved .s8 .u8 ≤ 518160) ∧ -522240 ≤ moved .u8 .s8 ∧ moved .u8 .s8 ≤ 518160) ∧
  ∀ (a b : Vector (BitVec 4) 32) (c : BitVec 32),
    let moved := fun atype btype => exactSum atype btype a b c - sext c
    |moved .s4 .s4| ≤ 2 ^ 11 ∧ |moved .u4 .u4| ≤ 7200 ∧ -1792 ≤ moved .s4 .s4 ∧ 0 ≤ moved .u4 .u4 ∧
      (-3840 ≤ moved .s4 .u4 ∧ moved .s4 .u4 ≤ 3360) ∧ -3840 ≤ moved .u4 .s4 ∧ moved .u4 .s4 ≤ 3360

/-! ## Each instruction: when it completes, what it leaves, and that it changes nothing else -/

/-- R112 with R81, R84, R88, R93, the four layout pairs: for every enabled state whose sources all hold values and
whose operands stand in their roles, the step completes; register `j` of `d` in each lane holds `dot_f16_f16` of its
two cells, nothing else changes, and every thread moves on. -/
def Obligations.CompletesF16F16 : Prop :=
  ∀ (d a b c : Vec) (s : State) (p : Nat),
    EnabledAt s p → AllHold s (a ++ b ++ c) →
    OperandsFit s ⟨d, a, b, c⟩ ⟨(4, .f16x2), (2, .f16x2), (2, .f16x2), (4, .f16x2)⟩ →
    Completes (.m8n8k4RowRowF16F16 d a b c) d s p (fun l => pair16 (elemF16F16 .row .row s ⟨d, a, b, c⟩ l)) ∧
    Completes (.m8n8k4RowColF16F16 d a b c) d s p (fun l => pair16 (elemF16F16 .row .col s ⟨d, a, b, c⟩ l)) ∧
    Completes (.m8n8k4ColRowF16F16 d a b c) d s p (fun l => pair16 (elemF16F16 .col .row s ⟨d, a, b, c⟩ l)) ∧
    Completes (.m8n8k4ColColF16F16 d a b c) d s p (fun l => pair16 (elemF16F16 .col .col s ⟨d, a, b, c⟩ l))

/-- R113 with R111: the same with `dot_f16_f32`, where the parameter admits the mixed forms. That C is then read by the
map of its own type `.f32` and D written by the map of `.f16` is the spec's own decision D8 (log entry 14). -/
def Obligations.CompletesF16F32 : Prop :=
  ∀ (d a b c : Vec) (s : State) (p : Nat),
    s.setup.params.admitMixedCd = true → EnabledAt s p → AllHold s (a ++ b ++ c) →
    OperandsFit s ⟨d, a, b, c⟩ ⟨(4, .f16x2), (2, .f16x2), (2, .f16x2), (8, .f32)⟩ →
    Completes (.m8n8k4RowRowF16F32 d a b c) d s p (fun l => pair16 (elemF16F32 .row .row s ⟨d, a, b, c⟩ l)) ∧
    Completes (.m8n8k4RowColF16F32 d a b c) d s p (fun l => pair16 (elemF16F32 .row .col s ⟨d, a, b, c⟩ l)) ∧
    Completes (.m8n8k4ColRowF16F32 d a b c) d s p (fun l => pair16 (elemF16F32 .col .row s ⟨d, a, b, c⟩ l)) ∧
    Completes (.m8n8k4ColColF16F32 d a b c) d s p (fun l => pair16 (elemF16F32 .col .col s ⟨d, a, b, c⟩ l))

/-- R114 with R111: the same with `dot_f32_f16`, where the parameter admits the mixed forms. That C is then read by the
map of its own type `.f16` and D written by the map of `.f32` is the spec's own decision D8 (log entry 14). -/
def Obligations.CompletesF32F16 : Prop :=
  ∀ (d a b c : Vec) (s : State) (p : Nat),
    s.setup.params.admitMixedCd = true → EnabledAt s p → AllHold s (a ++ b ++ c) →
    OperandsFit s ⟨d, a, b, c⟩ ⟨(8, .f32), (2, .f16x2), (2, .f16x2), (4, .f16x2)⟩ →
    Completes (.m8n8k4RowRowF32F16 d a b c) d s p (fun l j => .w32 (elemF32F16 .row .row s ⟨d, a, b, c⟩ l j)) ∧
    Completes (.m8n8k4RowColF32F16 d a b c) d s p (fun l j => .w32 (elemF32F16 .row .col s ⟨d, a, b, c⟩ l j)) ∧
    Completes (.m8n8k4ColRowF32F16 d a b c) d s p (fun l j => .w32 (elemF32F16 .col .row s ⟨d, a, b, c⟩ l j)) ∧
    Completes (.m8n8k4ColColF32F16 d a b c) d s p (fun l j => .w32 (elemF32F16 .col .col s ⟨d, a, b, c⟩ l j))

/-- R115: the same with `dot_f32_f32` and both accumulators by the map of `.f32`. -/
def Obligations.CompletesF32F32 : Prop :=
  ∀ (d a b c : Vec) (s : State) (p : Nat),
    EnabledAt s p → AllHold s (a ++ b ++ c) →
    OperandsFit s ⟨d, a, b, c⟩ ⟨(8, .f32), (2, .f16x2), (2, .f16x2), (8, .f32)⟩ →
    Completes (.m8n8k4RowRowF32F32 d a b c) d s p (fun l j => .w32 (elemF32F32 .row .row s ⟨d, a, b, c⟩ l j)) ∧
    Completes (.m8n8k4RowColF32F32 d a b c) d s p (fun l j => .w32 (elemF32F32 .row .col s ⟨d, a, b, c⟩ l j)) ∧
    Completes (.m8n8k4ColRowF32F32 d a b c) d s p (fun l j => .w32 (elemF32F32 .col .row s ⟨d, a, b, c⟩ l j)) ∧
    Completes (.m8n8k4ColColF32F32 d a b c) d s p (fun l j => .w32 (elemF32F32 .col .col s ⟨d, a, b, c⟩ l j))

/-- R135, its form written out for one thread: `dot_f64` of the four lanes of the row's group, the four lanes of the
column's group, and the thread's own `c_i`. -/
def Obligations.CompletesF64 : Prop :=
  ∀ (d a b c : Vec) (s : State) (p : Nat),
    EnabledAt s p → AllHold s (a ++ b ++ c) →
    OperandsFit s ⟨d, a, b, c⟩ ⟨(2, .f64), (1, .f64), (1, .f64), (2, .f64)⟩ →
    Completes (.m8n8k4F64 d a b c) d s p (fun l j => .w64 (elemF64 s ⟨d, a, b, c⟩ l j))

/-- R150: what one thread computes in each of the eight `m8n8k16` forms, by the types of A and B and by
`int_overflow`; the forms of mixed signedness where the parameter admits them (R151). -/
def Obligations.CompletesM8n8k16 : Prop :=
  ∀ (d a b c : Vec) (s : State) (p : Nat),
    EnabledAt s p → AllHold s (a ++ b ++ c) →
    OperandsFit s ⟨d, a, b, c⟩ ⟨(2, .s32), (1, .b32), (1, .b32), (2, .s32)⟩ →
    let S := fun atype btype => sumK16 atype btype s ⟨d, a, b, c⟩
    Completes (.m8n8k16S8S8 d a b c) d s p (fun l i => .w32 (wrap32 (S .s8 .s8 l i))) ∧
    Completes (.m8n8k16SatfiniteS8S8 d a b c) d s p (fun l i => .w32 (sat32 (S .s8 .s8 l i))) ∧
    Completes (.m8n8k16U8U8 d a b c) d s p (fun l i => .w32 (wrap32 (S .u8 .u8 l i))) ∧
    Completes (.m8n8k16SatfiniteU8U8 d a b c) d s p (fun l i => .w32 (sat32 (S .u8 .u8 l i))) ∧
    (s.setup.params.admitMixedSign = true →
      Completes (.m8n8k16S8U8 d a b c) d s p (fun l i => .w32 (wrap32 (S .s8 .u8 l i))) ∧
      Completes (.m8n8k16SatfiniteS8U8 d a b c) d s p (fun l i => .w32 (sat32 (S .s8 .u8 l i))) ∧
      Completes (.m8n8k16U8S8 d a b c) d s p (fun l i => .w32 (wrap32 (S .u8 .s8 l i))) ∧
      Completes (.m8n8k16SatfiniteU8S8 d a b c) d s p (fun l i => .w32 (sat32 (S .u8 .s8 l i))))

/-- R170: the same for the eight `m8n8k32` forms (R171). -/
def Obligations.CompletesM8n8k32 : Prop :=
  ∀ (d a b c : Vec) (s : State) (p : Nat),
    EnabledAt s p → AllHold s (a ++ b ++ c) →
    OperandsFit s ⟨d, a, b, c⟩ ⟨(2, .s32), (1, .b32), (1, .b32), (2, .s32)⟩ →
    let S := fun atype btype => sumK32 atype btype s ⟨d, a, b, c⟩
    Completes (.m8n8k32S4S4 d a b c) d s p (fun l i => .w32 (wrap32 (S .s4 .s4 l i))) ∧
    Completes (.m8n8k32SatfiniteS4S4 d a b c) d s p (fun l i => .w32 (sat32 (S .s4 .s4 l i))) ∧
    Completes (.m8n8k32U4U4 d a b c) d s p (fun l i => .w32 (wrap32 (S .u4 .u4 l i))) ∧
    Completes (.m8n8k32SatfiniteU4U4 d a b c) d s p (fun l i => .w32 (sat32 (S .u4 .u4 l i))) ∧
    (s.setup.params.admitMixedSign = true →
      Completes (.m8n8k32S4U4 d a b c) d s p (fun l i => .w32 (wrap32 (S .s4 .u4 l i))) ∧
      Completes (.m8n8k32SatfiniteS4U4 d a b c) d s p (fun l i => .w32 (sat32 (S .s4 .u4 l i))) ∧
      Completes (.m8n8k32U4S4 d a b c) d s p (fun l i => .w32 (wrap32 (S .u4 .s4 l i))) ∧
      Completes (.m8n8k32SatfiniteU4S4 d a b c) d s p (fun l i => .w32 (sat32 (S .u4 .s4 l i))))

/-- The worked examples of R152 to R155: every lane with the same `a` and `b`, `c` zero; the forms with `.satfinite`
give the same. -/
def Obligations.ExamplesM8n8k16 : Prop :=
  ∀ (d a b c : Vec) (s : State) (p : Nat) (va vb : BitVec 32),
    s.setup.params.admitMixedSign = true → EnabledAt s p →
    OperandsFit s ⟨d, a, b, c⟩ ⟨(2, .s32), (1, .b32), (1, .b32), (2, .s32)⟩ →
    (∀ l : Lane, (∀ r ∈ a, s.readReg l r = some (.w32 va)) ∧ (∀ r ∈ b, s.readReg l r = some (.w32 vb)) ∧
      ∀ r ∈ c, s.readReg l r = some (.w32 0)) →
    (va = 0xFFFFFFFF → vb = 0x01010101 →
      Completes (.m8n8k16S8S8 d a b c) d s p (fun _ _ => .w32 0xFFFFFFF0) ∧
      Completes (.m8n8k16SatfiniteS8S8 d a b c) d s p (fun _ _ => .w32 0xFFFFFFF0)) ∧
    (va = 0xFFFFFFFF → vb = 0xFFFFFFFF →
      Completes (.m8n8k16S8U8 d a b c) d s p (fun _ _ => .w32 0xFFFFF010) ∧
      Completes (.m8n8k16SatfiniteS8U8 d a b c) d s p (fun _ _ => .w32 0xFFFFF010) ∧
      Completes (.m8n8k16U8S8 d a b c) d s p (fun _ _ => .w32 0xFFFFF010) ∧
      Completes (.m8n8k16SatfiniteU8S8 d a b c) d s p (fun _ _ => .w32 0xFFFFF010) ∧
      Completes (.m8n8k16U8U8 d a b c) d s p (fun _ _ => .w32 0x000FE010) ∧
      Completes (.m8n8k16SatfiniteU8U8 d a b c) d s p (fun _ _ => .w32 0x000FE010))

/-- The worked examples of R172 to R175. -/
def Obligations.ExamplesM8n8k32 : Prop :=
  ∀ (d a b c : Vec) (s : State) (p : Nat) (va vb : BitVec 32),
    s.setup.params.admitMixedSign = true → EnabledAt s p →
    OperandsFit s ⟨d, a, b, c⟩ ⟨(2, .s32), (1, .b32), (1, .b32), (2, .s32)⟩ →
    (∀ l : Lane, (∀ r ∈ a, s.readReg l r = some (.w32 va)) ∧ (∀ r ∈ b, s.readReg l r = some (.w32 vb)) ∧
      ∀ r ∈ c, s.readReg l r = some (.w32 0)) →
    (va = 0x88888888 → vb = 0x88888888 →
      Completes (.m8n8k32S4S4 d a b c) d s p (fun _ _ => .w32 0x00000800) ∧
      Completes (.m8n8k32SatfiniteS4S4 d a b c) d s p (fun _ _ => .w32 0x00000800)) ∧
    (va = 0xFFFFFFFF → vb = 0xFFFFFFFF →
      Completes (.m8n8k32S4U4 d a b c) d s p (fun _ _ => .w32 0xFFFFFE20) ∧
      Completes (.m8n8k32SatfiniteS4U4 d a b c) d s p (fun _ _ => .w32 0xFFFFFE20) ∧
      Completes (.m8n8k32U4S4 d a b c) d s p (fun _ _ => .w32 0xFFFFFE20) ∧
      Completes (.m8n8k32SatfiniteU4S4 d a b c) d s p (fun _ _ => .w32 0xFFFFFE20) ∧
      Completes (.m8n8k32U4U4 d a b c) d s p (fun _ _ => .w32 0x00001C20) ∧
      Completes (.m8n8k32SatfiniteU4U4 d a b c) d s p (fun _ _ => .w32 0x00001C20))

/-- The worked examples of R112 to R115 (which give the form `row.col`; the others give the same) and of R135: every
lane with all elements of A and B 1.0 and one accumulator throughout. The premise on the numeric function is the named
property R85 of the machine's own one, which has no body (R84, decision D5, log entry 11), so that nothing but such a
premise can say a value of it; the mixed forms rest on decision D8 as well (log entry 14). -/
def Obligations.ExactDotExamples : Prop :=
  ∀ (d a b c : Vec) (s : State) (p : Nat), EnabledAt s p →
  (ExactF16F16 Config.dotF16F16 →
    OperandsFit s ⟨d, a, b, c⟩ ⟨(4, .f16x2), (2, .f16x2), (2, .f16x2), (4, .f16x2)⟩ →
    AllEqual s (a ++ b) (.w32 0x3C003C00) → AllEqual s c (.w32 0) →
    ∀ i ∈ ([.m8n8k4RowRowF16F16 d a b c, .m8n8k4RowColF16F16 d a b c, .m8n8k4ColRowF16F16 d a b c,
        .m8n8k4ColColF16F16 d a b c] : List Instr), Completes i d s p (fun _ _ => .w32 0x44004400)) ∧
  (ExactF16F32 Config.dotF16F32 → s.setup.params.admitMixedCd = true →
    OperandsFit s ⟨d, a, b, c⟩ ⟨(4, .f16x2), (2, .f16x2), (2, .f16x2), (8, .f32)⟩ →
    AllEqual s (a ++ b) (.w32 0x3C003C00) → AllEqual s c (.w32 0x3F800000) →
    ∀ i ∈ ([.m8n8k4RowRowF16F32 d a b c, .m8n8k4RowColF16F32 d a b c, .m8n8k4ColRowF16F32 d a b c,
        .m8n8k4ColColF16F32 d a b c] : List Instr), Completes i d s p (fun _ _ => .w32 0x45004500)) ∧
  (ExactF32F16 Config.dotF32F16 → s.setup.params.admitMixedCd = true →
    OperandsFit s ⟨d, a, b, c⟩ ⟨(8, .f32), (2, .f16x2), (2, .f16x2), (4, .f16x2)⟩ →
    AllEqual s (a ++ b) (.w32 0x3C003C00) → AllEqual s c (.w32 0x3C003C00) →
    ∀ i ∈ ([.m8n8k4RowRowF32F16 d a b c, .m8n8k4RowColF32F16 d a b c, .m8n8k4ColRowF32F16 d a b c,
        .m8n8k4ColColF32F16 d a b c] : List Instr), Completes i d s p (fun _ _ => .w32 0x40A00000)) ∧
  (ExactF32F32 Config.dotF32F32 →
    OperandsFit s ⟨d, a, b, c⟩ ⟨(8, .f32), (2, .f16x2), (2, .f16x2), (8, .f32)⟩ →
    AllEqual s (a ++ b) (.w32 0x3C003C00) → AllEqual s c (.w32 0) →
    ∀ i ∈ ([.m8n8k4RowRowF32F32 d a b c, .m8n8k4RowColF32F32 d a b c, .m8n8k4ColRowF32F32 d a b c,
        .m8n8k4ColColF32F32 d a b c] : List Instr), Completes i d s p (fun _ _ => .w32 0x40800000)) ∧
  (ExactF64 Config.dotF64 →
    OperandsFit s ⟨d, a, b, c⟩ ⟨(2, .f64), (1, .f64), (1, .f64), (2, .f64)⟩ →
    AllEqual s (a ++ b) (.w64 0x3FF0000000000000) → AllEqual s c (.w64 0) →
    Completes (.m8n8k4F64 d a b c) d s p (fun _ _ => .w64 0x4010000000000000))

/-! ## When an instruction does not complete -/

/-- R185 to R187: every statement whose opcode word is one of the three names is refused by that name: it makes a
program in which no earlier statement is refused answer with the name and its own number at every step, and the
instruction itself answers so too, whatever the state. The refusal by name is the spec's own decision D26; that the step
records the first refused statement and the meaning itself the statement thread 0 stands at is log entry 15, and where
the opcode word of a statement ends is log entry 19, both the model's choice. -/
def Obligations.NamedInstructionsRefused : Prop :=
  (∀ s : State, exec .ldmatrix s = .refused (.rejected s.site (.notDescribed .ldmatrix)) ∧
    exec .stmatrix s = .refused (.rejected s.site (.notDescribed .stmatrix)) ∧
    exec .movmatrix s = .refused (.rejected s.site (.notDescribed .movmatrix))) ∧
  ∀ (n : NamedOnly) (t : Text), opcodeWord t = n.text →
    (∀ su : Setup, StatementRefused su t (.notDescribed n)) ∧
    ∀ (s : State) (k : Nat), s.setup.program[k]? = some t →
      (∀ j < k, ∃ u i, s.setup.program[j]? = some u ∧ StatementAdmitted s.setup u i) →
      step s = .refused (.rejected k (.notDescribed n))

/-- R189, and R188 for `wmma` and `wgmma`: a statement with any other opcode word is refused. The two rules overlap on
`wmma` and `wgmma`; that these are refused by the checks `qualifiers` or `shape_known` and not as unknown opcode words is
the model's choice, log entry 8, and so is where a guard and the opcode word end, log entry 19: a name of R185 to R187
followed at once by a bracket is another opcode word. -/
def Obligations.OtherOpcodeWordsRefused : Prop :=
  ∀ (p : Params) (ds : List Decl) (t : Text),
    opcodeWord t ≠ tokMma → (∀ n : NamedOnly, opcodeWord t ≠ n.text) →
    (opcodeWord t ≠ tokWmma → opcodeWord t ≠ tokWgmma → decode p ds t = .error (.unknownOpcode (opcodeWord t))) ∧
    (opcodeWord t = tokWmma ∨ opcodeWord t = tokWgmma →
      decode p ds t = .error .qualifiers ∨ ∃ shape, decode p ds t = .error (.shapeKnown shape))

/-- R188: a term that is complete in its qualifiers but none of the 33 forms of R66 is refused by one of the four
checks the rule names, where the two parameters admit all 33. -/
def Obligations.EveryOtherMmaRefused : Prop :=
  ∀ (p : Params) (ds : List Decl) (t : MmaTerm),
    p.admitMixedCd = true → p.admitMixedSign = true → t.sync = true → t.aligned = true →
    (∀ x ∈ mmaRows, ¬ (t.shape = x.1.shape ∧ t.alayout = some x.1.alayout ∧ t.blayout = some x.1.blayout ∧
      t.satfinite = x.1.satfinite ∧ t.dtype = x.1.dtype ∧ t.atype = x.1.atype ∧ t.btype = x.1.btype ∧
      t.ctype = x.1.ctype ∧ t.extraQualifier = false)) →
    (∃ shape, t.check p ds = some (.shapeKnown shape)) ∨ t.check p ds = some .typeCombo ∨
      t.check p ds = some .layout ∨ t.check p ds = some .satfinite

/-- R64 with R63 and R65: a term is admitted exactly where every clause of the table passes (the widening that
`operand_type` permits as the parameter of log entry 6 says). -/
def Obligations.AdmittedIffEveryCheckPasses : Prop :=
  ∀ (p : Params) (ds : List Decl) (t : MmaTerm),
    t.check p ds = none ↔
      (t.sync = true ∧ t.aligned = true) ∧
      (t.shape = .m8n8k4 ∨ t.shape = .m8n8k16 ∨ t.shape = .m8n8k32) ∧
      (t.extraQualifier = false ∧
        ((t.shape = .m8n8k4 ∧ t.atype = .f16 ∧ t.btype = .f16 ∧ (t.ctype = .f16 ∨ t.ctype = .f32) ∧
            (t.dtype = .f16 ∨ t.dtype = .f32)) ∨
          (t.shape = .m8n8k4 ∧ t.atype = .f64 ∧ t.btype = .f64 ∧ t.ctype = .f64 ∧ t.dtype = .f64) ∨
          (t.shape = .m8n8k16 ∧ (t.atype = .s8 ∨ t.atype = .u8) ∧ (t.btype = .s8 ∨ t.btype = .u8) ∧
            t.ctype = .s32 ∧ t.dtype = .s32) ∨
          (t.shape = .m8n8k32 ∧ (t.atype = .s4 ∨ t.atype = .u4) ∧ (t.btype = .s4 ∨ t.btype = .u4) ∧
            t.ctype = .s32 ∧ t.dtype = .s32))) ∧
      (t.atype = .f16 → t.ctype = t.dtype ∨ p.admitMixedCd = true) ∧
      (t.shape = .m8n8k16 ∨ t.shape = .m8n8k32 → t.atype.signed = t.btype.signed ∨ p.admitMixedSign = true) ∧
      (t.alayout.isSome = true ∧ t.blayout.isSome = true ∧
        (t.atype ≠ .f16 → t.alayout = some .row ∧ t.blayout = some .col)) ∧
      (t.satfinite = true → t.shape = .m8n8k16 ∨ t.shape = .m8n8k32) ∧
      (∃ d a b c : Vec, t.d = .regs d ∧ t.a = .regs a ∧ t.b = .regs b ∧ t.c = .regs c ∧ t.extraOperand = false ∧
        d.length = t.roles.d.1 ∧ a.length = t.roles.a.1 ∧ b.length = t.roles.b.1 ∧ c.length = t.roles.c.1 ∧
        (∀ r ∈ d, (typeOf ds r).any (fun ty => RegType.fits p.admitUntyped ty t.roles.d.2) = true) ∧
        (∀ r ∈ a, (typeOf ds r).any (fun ty => RegType.fits p.admitUntyped ty t.roles.a.2) = true) ∧
        (∀ r ∈ b, (typeOf ds r).any (fun ty => RegType.fits p.admitUntyped ty t.roles.b.2) = true) ∧
        (∀ r ∈ c, (typeOf ds r).any (fun ty => RegType.fits p.admitUntyped ty t.roles.c.2) = true) ∧ d.Nodup) ∧
      t.guarded = false

/-- R64 with R194 (1): where several checks fail, the one reported is the first of the table. -/
def Obligations.FirstFailingCheckIsReported : Prop :=
  ∀ (p : Params) (ds : List Decl) (t : MmaTerm) (why : Reject),
    t.check p ds = some why ↔
      ∃ before after,
        [checkQualifiers t, checkShapeKnown t, checkTypeCombo t, checkMixedCd p t, checkMixedSign p t, checkLayout t,
          checkSatfinite t, checkOperandShape t, checkOperandType p ds t, checkDestDistinct t, checkNoGuard t] =
            before ++ some why :: after ∧ ∀ x ∈ before, x = none

/-- R111 (a), R151, R171: with the parameter false the mixed forms are refused, by `mixed_cd` and by `mixed_sign`,
whatever their operands. That a meaning called for such a form refuses as well, and records the statement thread 0
stands at, is the model's choice, log entry 15. -/
def Obligations.MixedFormsRefusedByParameter : Prop :=
  ∀ (d a b c : Vec) (s : State),
    (s.setup.params.admitMixedCd = false →
      ∀ i ∈ ([.m8n8k4RowRowF16F32 d a b c, .m8n8k4RowColF16F32 d a b c, .m8n8k4ColRowF16F32 d a b c,
          .m8n8k4ColColF16F32 d a b c, .m8n8k4RowRowF32F16 d a b c, .m8n8k4RowColF32F16 d a b c,
          .m8n8k4ColRowF32F16 d a b c, .m8n8k4ColColF32F16 d a b c] : List Instr),
        exec i s = .refused (.rejected s.site .mixedCd)) ∧
    (s.setup.params.admitMixedSign = false →
      ∀ i ∈ ([.m8n8k16S8U8 d a b c, .m8n8k16SatfiniteS8U8 d a b c, .m8n8k16U8S8 d a b c,
          .m8n8k16SatfiniteU8S8 d a b c, .m8n8k32S4U4 d a b c, .m8n8k32SatfiniteS4U4 d a b c, .m8n8k32U4S4 d a b c,
          .m8n8k32SatfiniteU4S4 d a b c] : List Instr),
        exec i s = .refused (.rejected s.site .mixedSign))

/-- R76 (the spec's own decision D13): for an admitted `mma` whose sources all hold values there is a step exactly where
all 32 threads are `running` at the same statement; everywhere else it is stuck, and so is the machine while some thread
has not exited, in a state that is not final. -/
def Obligations.StuckUnlessTogether : Prop :=
  ∀ (i : Instr) (s : State), i.refusal s.setup.params s.setup.decls = none →
    ((∀ q o, IsMma i q o → AllHold s o.sources) → ((∃ t, exec i s = .next t) ↔ ∃ p, EnabledAt s p)) ∧
    ((∀ p, ¬ EnabledAt s p) → exec i s = .fault .stuck ∧
      (s.refusal = none → (∃ l : Lane, s.threads[l].status ≠ .exited) → step s = .fault .stuck ∧ ¬ Final s))

/-- R90: where a source register of an enabled, admitted `mma` holds no value in some thread, the outcome is the fault
of the first such thread and register; no register is written, no `pc` moves, and all 32 threads are `faulted`. -/
def Obligations.UnwrittenSourceFaults : Prop :=
  ∀ (i : Instr) (q : Quals) (o : Operands) (s : State) (p : Nat),
    IsMma i q o → i.refusal s.setup.params s.setup.decls = none → EnabledAt s p →
    (∃ (l : Lane) (r : RegName), r ∈ o.a ++ o.b ++ o.c ∧ s.readReg l r = none) →
    ∃ (l : Lane) (r : RegName) (after : State),
      FirstUnwritten s (o.a ++ o.b ++ o.c) l r ∧ exec i s = .fault (.unwrittenRegister l r p after) ∧
      after.setup = s.setup ∧
      ∀ m : Lane, after.threads[m].pc = s.threads[m].pc ∧ after.threads[m].status = .faulted ∧
        ∀ x, after.readReg m x = s.readReg m x

/-- R192: after the fault every thread is `faulted`; a state with a faulted thread has no next state, by any
instruction or by the step, and is not final; a program with a refusal mark takes no step at all and its state is not
final. -/
def Obligations.MarksPersist : Prop :=
  (∀ i s l r p after, exec i s = .fault (.unwrittenRegister l r p after) →
    ∀ m : Lane, after.threads[m].status = .faulted) ∧
  (∀ (s : State) (l : Lane), s.threads[l].status = .faulted →
    (∀ i t, exec i s ≠ .next t) ∧ (∀ t, step s ≠ .next t) ∧ ¬ Final s) ∧
  ∀ (s : State) (r : Refusal), s.refusal = some r → step s = .refused r ∧ ¬ Final s

/-- R67, R192: the step is refused exactly where some statement of the program is, before anything runs and whatever
the threads are doing; the first refused statement is reported, with its number. That a refused program is answered so in
every state is log entry 4, that the first of several is reported is log entry 15, both the model's choice. -/
def Obligations.FirstRefusedStatementIsReported : Prop :=
  ∀ (s : State) (r : Refusal),
    step s = .refused r ↔
      ∃ (k : Nat) (t : Text) (why : Reject),
        r = .rejected k why ∧ s.setup.program[k]? = some t ∧ StatementRefused s.setup t why ∧
        ∀ j < k, ∃ u i, s.setup.program[j]? = some u ∧ StatementAdmitted s.setup u i

/-! ## The step and runs -/

/-- The step at a state whose program has no refused statement and whose threads stand together at a statement is the
meaning of the instruction that statement decodes to, and nothing besides. -/
def Obligations.StepRunsTheDecodedInstruction : Prop :=
  ∀ (s : State) (p : Nat) (t : Text) (i : Instr),
    s.refusal = none → EnabledAt s p → s.setup.program[p]? = some t →
    decode s.setup.params s.setup.decls t = .ok i → step s = exec i s

/-- R93 with R26, R32, R33: a step that completes runs one admitted `mma`, moves every thread on by exactly one
statement, leaves the configuration as it is, and changes no register outside that instruction's destination. -/
def Obligations.StepAdvancesEveryThreadByOne : Prop :=
  ∀ s t : State, step s = .next t →
    ∃ (p : Nat) (u : Text) (i : Instr) (q : Quals) (o : Operands),
      EnabledAt s p ∧ s.setup.program[p]? = some u ∧ StatementAdmitted s.setup u i ∧ IsMma i q o ∧
      exec i s = .next t ∧ Advanced s t p ∧ Unchanged s t o.d ∧
      ∀ (l : Lane), ∀ r ∈ o.d, (t.readReg l r).isSome = true

/-- R97: the destination registers after a step depend on the source registers of the 32 threads and on nothing else:
two states of one configuration that agree on them get the same values. -/
def Obligations.ResultDependsOnSourcesOnly : Prop :=
  ∀ (i : Instr) (q : Quals) (o : Operands) (s₁ s₂ t₁ t₂ : State),
    IsMma i q o → s₁.setup = s₂.setup →
    (∀ l, ∀ r ∈ o.a ++ o.b ++ o.c, s₁.readReg l r = s₂.readReg l r) →
    exec i s₁ = .next t₁ → exec i s₂ = .next t₂ →
    ∀ l, ∀ r ∈ o.d, t₁.readReg l r = t₂.readReg l r

/-- R110: in the `.f16` family the destination registers of a thread depend on the source registers of the eight
threads of its own computation and on no register of the other 24. -/
def Obligations.ComputationsAreIndependent : Prop :=
  ∀ (i : Instr) (q : Quals) (o : Operands) (s₁ s₂ t₁ t₂ : State) (l : Lane),
    IsMma i q o → q.atype = .f16 → s₁.setup = s₂.setup →
    (∀ m : Lane, compF16 m.val = compF16 l.val → ∀ r ∈ o.a ++ o.b ++ o.c, s₁.readReg m r = s₂.readReg m r) →
    exec i s₁ = .next t₁ → exec i s₂ = .next t₂ →
    ∀ r ∈ o.d, t₁.readReg l r = t₂.readReg l r

/-- R221: a run of `n` steps that completes has at most as many steps as the program has statements. -/
def Obligations.RunsAreFinite : Prop :=
  ∀ (s t : State) (n : Nat), Sys2Proof.core.run n s = .next t → n ≤ s.setup.program.length

/-- R218 with R33: where a run of as many steps as the program has statements completes from a launch, its state is
final: every thread has exited, one past the last statement, and there is no further step. -/
def Obligations.CompletedRunIsFinal : Prop :=
  ∀ (su : Setup) (inputs : List (Lane × RegName × Value)) (t : State),
    su.program ≠ [] → Sys2Proof.core.run su.program.length (State.launch su inputs) = .next t →
    Final t ∧ (∀ l : Lane, t.threads[l].pc = su.program.length) ∧ step t = .fault .runEnded

/-! ## Text -/

/-- Three statements written letter by letter from R58, R61, R62 and R185 decode to the instructions they stand
for. -/
def Obligations.SpelledStatementsDecode : Prop :=
  let names := fun (x : Char) (n : Nat) => (List.range n).map (fun j => txt ['%', x] ++ [BitVec.ofNat 8 (48 + j)])
  let ds := (names 'd' 2).map (fun r => (r, RegType.s32)) ++ (names 'c' 2).map (fun r => (r, RegType.s32)) ++
    (names 'a' 1).map (fun r => (r, RegType.b32)) ++ (names 'h' 4).map (fun r => (r, RegType.f16x2)) ++
    (names 'f' 8).map (fun r => (r, RegType.f32))
  decode Params.default ds
      (txt ['m', 'm', 'a', '.', 's', 'y', 'n', 'c', '.', 'a', 'l', 'i', 'g', 'n', 'e', 'd', '.', 'm', '8', 'n', '8', 'k',
        '1', '6', '.', 'r', 'o', 'w', '.', 'c', 'o', 'l', '.', 's', '3', '2', '.', 's', '8', '.', 'u', '8', '.', 's', '3',
        '2', ' '] ++ [123] ++ txt ['%', 'd', '0', ',', ' ', '%', 'd', '1'] ++ [125, 44, 32, 123] ++ txt ['%', 'a', '0'] ++
        [125, 44, 32, 123] ++ txt ['%', 'a', '0'] ++ [125, 44, 32, 123] ++
        txt ['%', 'c', '0', ',', ' ', '%', 'c', '1'] ++ [125, 59]) =
    .ok (.m8n8k16S8U8 (names 'd' 2) (names 'a' 1) (names 'a' 1) (names 'c' 2)) ∧
  decode Params.default ds
      (txt ['m', 'm', 'a', '.', 's', 'y', 'n', 'c', '.', 'a', 'l', 'i', 'g', 'n', 'e', 'd', '.', 'm', '8', 'n', '8', 'k',
        '4', '.', 'c', 'o', 'l', '.', 'r', 'o', 'w', '.', 'f', '3', '2', '.', 'f', '1', '6', '.', 'f', '1', '6', '.',
        'f', '1', '6', ' '] ++ [123] ++
        txt ['%', 'f', '0', ',', '%', 'f', '1', ',', '%', 'f', '2', ',', '%', 'f', '3', ',', '%', 'f', '4', ',', '%',
          'f', '5', ',', '%', 'f', '6', ',', '%', 'f', '7'] ++ [125, 44, 123] ++
        txt ['%', 'h', '0', ',', '%', 'h', '1'] ++ [125, 44, 123] ++ txt ['%', 'h', '2', ',', '%', 'h', '3'] ++
        [125, 44, 123] ++ txt ['%', 'h', '0', ',', '%', 'h', '1', ',', '%', 'h', '2', ',', '%', 'h', '3'] ++ [125, 59]) =
    .ok (.m8n8k4ColRowF32F16 (names 'f' 8) (names 'h' 2) ((names 'h' 4).drop 2) (names 'h' 4)) ∧
  decode Params.default ds (txt ['l', 'd', 'm', 'a', 't', 'r', 'i', 'x', '.', 's', 'y', 'n', 'c', ';']) = .ok .ldmatrix

/-- Decode and encode agree: the text of every admitted instruction, and of each of the three named ones, decodes to
it, with every operand at every value its role admits (R55, R58 to R62, R67). -/
def Obligations.DecodeEncodeAgree : Prop :=
  ∀ (p : Params) (ds : List Decl) (i : Instr),
    (i.wellFormed p ds = true ∨ ∃ n : NamedOnly, i = n.instr) → decode p ds (encode i) = .ok i

/-- R64, R67: an instruction the decoder gives is admitted, but for the three named ones, which it reads and which are
refused after it (log entry 15, the model's choice); and a statement it gives none for is refused with a reason that is
the failing check of its term or its opcode word, which ends where log entry 19 says. -/
def Obligations.DecoderGivesAdmittedInstructions : Prop :=
  ∀ (p : Params) (ds : List Decl) (t : Text),
    (∀ i, decode p ds t = .ok i → i.wellFormed p ds = true ∨ ∃ n : NamedOnly, i = n.instr) ∧
    ∀ why, decode p ds t = .error why →
      (∃ m, parseStmt t = .mma m ∧ m.check p ds = some why) ∨ ∃ w, parseStmt t = .unknown w ∧ why = .unknownOpcode w

/-! ## The invariant -/

/-- The state after reset meets the invariant. -/
def Obligations.InvariantAtReset : Prop := Inv State.reset

/-- A launch whose inputs have the widths of their declared registers meets the invariant (R21, R22, R31). An input of
another width would be stored as it is given (log entry 1). -/
def Obligations.InvariantAtLaunch : Prop :=
  ∀ (su : Setup) (inputs : List (Lane × RegName × Value)),
    (∀ x ∈ inputs, ∀ ty, typeOf su.decls x.2.1 = some ty → x.2.2.width = ty.width) → Inv (State.launch su inputs)

/-- Every step keeps the invariant: register files stay in canonical form, every value has the width of its register's
declared type (R22, R23), and the threads stay together, `exited` exactly past the last statement (R26, R33, R205 (c)). -/
def Obligations.InvariantKeptByEveryStep : Prop :=
  ∀ s t : State, Inv s → step s = .next t → Inv t

/-- The state a fault leaves meets the invariant as well (R192, R195). -/
def Obligations.InvariantKeptByTheFault : Prop :=
  ∀ (s : State) (l : Lane) (r : RegName) (p : Nat) (after : State),
    Inv s → step s = .fault (.unwrittenRegister l r p after) → Inv after

/-! ## A statement placed at reset -/

/-- A statement placed at reset (log entries 1 and 10, the model's choices) runs: every declared register of every lane
holds a value, so no register is unwritten since reset, and the next step completes the instruction that the number
decodes to, whichever of the 33 forms it is; one of the three named ones is refused by its name (R185 to R187). -/
def Obligations.PlacedInstructionRuns : Prop :=
  ∀ (nbits w : Nat) (i : Instr), decodeTableWord nbits w = some i →
    let s := State.reset.withFetchWord nbits w
    (∀ (l : Lane) (r : RegName), (typeOf s.setup.decls r).isSome = true → (s.readReg l r).isSome = true) ∧
    (∀ n : NamedOnly, i = n.instr → step s = .refused (.rejected 0 (.notDescribed n))) ∧
    ((∀ n : NamedOnly, i ≠ n.instr) → ∃ t, step s = .next t ∧ exec i s = .next t ∧ Advanced s t 0)
end

