-- ==== Sys2Proof/Laws/RegFile.lean ====
section
/-! SUPPORT. Laws of register files: read after write, the canonical form, and the write of a whole vector
(`10_state.md` R21, R22, R30; `40_mma_common.md` R80). -/

namespace Sys2Proof.Machine

@[simp] theorem RegFile.read_nil (j : Nat) : RegFile.read [] j = none := rfl

/-- Reading after writing one register: the written one holds the value, every other one what it held. -/
@[simp] theorem RegFile.read_write (rf : RegFile) (j k : Nat) (v : Value) :
    (RegFile.write rf j v).read k = if k = j then some v else RegFile.read rf k := by
  induction rf with
  | nil => simp [RegFile.write, RegFile.read, eq_comm]
  | cons x rest ih =>
    obtain ⟨n, u⟩ := x
    simp only [RegFile.write]
    by_cases hk : k = j
    · subst hk
      rw [if_pos rfl] at ih ⊢
      by_cases h1 : k < n
      · simp [h1, RegFile.read]
      · by_cases h2 : k = n
        · simp [h2, RegFile.read]
        · simp [h1, h2, RegFile.read, ih, Ne.symm h2]
    · rw [if_neg hk] at ih ⊢
      by_cases h1 : j < n
      · simp [h1, RegFile.read, Ne.symm hk]
      · by_cases h2 : j = n
        · subst h2; simp [RegFile.read, Ne.symm hk]
        · simp [h1, h2, RegFile.read, ih]

/-- What stands in a register file after a write is the written entry or an old one. -/
theorem RegFile.mem_write {rf : RegFile} {j : Nat} {v : Value} {x : Nat × Value} (h : x ∈ RegFile.write rf j v) :
    x = (j, v) ∨ x ∈ rf := by
  induction rf with
  | nil => simpa [RegFile.write] using h
  | cons y rest ih =>
    obtain ⟨n, u⟩ := y
    simp only [RegFile.write] at h
    split_ifs at h with h1 h2
    · simpa using h
    · rcases List.mem_cons.1 h with h | h
      · exact .inl h
      · exact .inr (List.mem_cons_of_mem _ h)
    · rcases List.mem_cons.1 h with h | h
      · exact .inr (h ▸ List.mem_cons_self)
      · exact (ih h).imp_right (List.mem_cons_of_mem _)

@[simp] theorem RegFile.wf_nil : RegFile.wf [] := List.Pairwise.nil

/-- A write keeps the canonical form. -/
theorem RegFile.wf_write {rf : RegFile} (h : rf.wf) (j : Nat) (v : Value) : (RegFile.write rf j v).wf := by
  induction rf with
  | nil => simp [RegFile.write, RegFile.wf]
  | cons y rest ih =>
    obtain ⟨n, u⟩ := y
    simp only [RegFile.wf, List.map_cons, List.pairwise_cons] at h ih ⊢
    simp only [RegFile.write]
    split_ifs with h1 h2
    · simp only [List.map_cons, List.pairwise_cons, List.mem_cons]
      refine ⟨?_, h⟩
      rintro a (rfl | ha)
      · exact h1
      · exact h1.trans (h.1 a ha)
    · subst h2
      simpa using h
    · simp only [List.map_cons, List.pairwise_cons]
      refine ⟨?_, ih h.2⟩
      intro a ha
      obtain ⟨x, hx, rfl⟩ := List.mem_map.1 ha
      rcases RegFile.mem_write hx with rfl | hx
      · show n < j; omega
      · exact h.1 _ (List.mem_map_of_mem hx)

/-- In canonical form an entry is what reading its number gives. -/
theorem RegFile.read_of_mem {rf : RegFile} (h : rf.wf) {j : Nat} {v : Value} (hm : (j, v) ∈ rf) :
    rf.read j = some v := by
  induction rf with
  | nil => cases hm
  | cons y rest ih =>
    obtain ⟨n, u⟩ := y
    simp only [RegFile.wf, List.map_cons, List.pairwise_cons] at h ih
    rcases List.mem_cons.1 hm with hm | hm
    · cases hm; simp [RegFile.read]
    · have := h.1 j (List.mem_map_of_mem hm)
      rw [RegFile.read, if_neg (by omega)]
      exact ih h.2 hm

/-- What reading gives stands in the file. -/
theorem RegFile.mem_of_read {rf : RegFile} {j : Nat} {v : Value} (h : rf.read j = some v) : (j, v) ∈ rf := by
  induction rf with
  | nil => simp at h
  | cons y rest ih =>
    obtain ⟨n, u⟩ := y
    rw [RegFile.read] at h
    split_ifs at h with hn
    · cases h; subst hn; exact List.mem_cons_self
    · exact List.mem_cons_of_mem _ (ih h)

/-! ## Names and numbers -/

/-- Two declared names with the same number are the same name. -/
theorem regIndex_inj {ds : List Decl} {r r' : RegName} {j : Nat} (h : regIndex ds r = some j)
    (h' : regIndex ds r' = some j) : r = r' := by
  unfold regIndex at h h'
  split_ifs at h h'
  rw [List.findIdx?_eq_some_iff_getElem] at h h'
  obtain ⟨hj, h1, -⟩ := h
  obtain ⟨_, h2, -⟩ := h'
  exact (beq_iff_eq.1 h1).symm.trans (beq_iff_eq.1 h2)

/-- A name has a number exactly where it has a type, and its declaration stands at that number. -/
theorem typeOf_eq_some {ds : List Decl} {r : RegName} {ty : RegType} (h : typeOf ds r = some ty) :
    ∃ j, regIndex ds r = some j ∧ ds[j]? = some (r, ty) := by
  unfold typeOf at h
  rw [Option.bind_eq_some_iff] at h
  obtain ⟨j, hj, h2⟩ := h
  refine ⟨j, hj, ?_⟩
  rw [Option.map_eq_some_iff] at h2
  obtain ⟨⟨n, t⟩, hd, rfl⟩ := h2
  unfold regIndex at hj
  split_ifs at hj
  rw [List.findIdx?_eq_some_iff_getElem] at hj
  obtain ⟨hlt, h1, -⟩ := hj
  rw [List.getElem?_eq_getElem hlt] at hd ⊢
  have : ds[j] = (n, t) := by simpa using hd
  rw [this] at h1 ⊢
  simp only [beq_iff_eq] at h1
  rw [h1]

/-! ## Writing a vector -/

@[simp] theorem RegFile.writeVec_nil (ds : List Decl) (rf : RegFile) (val : Nat → Value) :
    RegFile.writeVec ds rf [] val = rf := rfl

/-- A register whose name is not in the vector keeps what it held. -/
theorem RegFile.read_writeVec_of_not_mem {ds : List Decl} {d : Vec} {k : Nat} (rf : RegFile) (val : Nat → Value)
    (h : ∀ r ∈ d, regIndex ds r ≠ some k) : (RegFile.writeVec ds rf d val).read k = rf.read k := by
  induction d generalizing rf val with
  | nil => rfl
  | cons r rs ih =>
    rw [RegFile.writeVec, ih _ _ fun x hx => h x (List.mem_cons_of_mem _ hx)]
    split
    · rename_i j hj
      have : k ≠ j := fun e => h r List.mem_cons_self (e ▸ hj)
      simp [this]
    · rfl

/-- Register `i` of a vector of pairwise different declared names holds its own new value afterwards. -/
theorem RegFile.read_writeVec {ds : List Decl} {d : Vec} (hn : d.Nodup) (rf : RegFile) (val : Nat → Value)
    (i : Nat) (hi : i < d.length) {k : Nat} (hk : regIndex ds d[i] = some k) :
    (RegFile.writeVec ds rf d val).read k = some (val i) := by
  induction d generalizing rf val i with
  | nil => simp at hi
  | cons r rs ih =>
    rw [List.nodup_cons] at hn
    rw [RegFile.writeVec]
    cases i with
    | zero =>
      simp only [List.getElem_cons_zero] at hk
      rw [RegFile.read_writeVec_of_not_mem]
      · simp [hk]
      · intro x hx e
        exact hn.1 (regIndex_inj hk e ▸ hx)
    | succ i =>
      simp only [List.getElem_cons_succ] at hk
      exact ih hn.2 _ (fun j => val (j + 1)) i (by simpa using hi) hk

/-- Writing a vector keeps the canonical form. -/
theorem RegFile.wf_writeVec {rf : RegFile} (h : rf.wf) (ds : List Decl) (d : Vec) (val : Nat → Value) :
    (RegFile.writeVec ds rf d val).wf := by
  induction d generalizing rf val with
  | nil => exact h
  | cons r rs ih =>
    rw [RegFile.writeVec]
    apply ih
    split
    · exact RegFile.wf_write h _ _
    · exact h

/-- What stands in a register file after writing a vector is an old entry or a new value under its own number. -/
theorem RegFile.mem_writeVec {ds : List Decl} {d : Vec} {rf : RegFile} {val : Nat → Value} {x : Nat × Value}
    (h : x ∈ RegFile.writeVec ds rf d val) :
    x ∈ rf ∨ ∃ (i : Nat) (hi : i < d.length), regIndex ds d[i] = some x.1 ∧ x.2 = val i := by
  induction d generalizing rf val with
  | nil => exact .inl h
  | cons r rs ih =>
    rw [RegFile.writeVec] at h
    rcases ih h with h | ⟨i, hi, h1, h2⟩
    · split at h
      · rename_i j hj
        rcases RegFile.mem_write h with rfl | h
        · exact .inr ⟨0, by simp, hj, rfl⟩
        · exact .inl h
      · exact .inl h
    · exact .inr ⟨i + 1, by simpa using hi, h1, h2⟩

/-! ## A placed program's inputs -/

/-- Every register in the range that is set to 0 holds the 0 of its type, the others what they held. -/
theorem RegFile.read_zeroInputs (ds : List Decl) (rf : RegFile) (n j : Nat) :
    (zeroInputs rf n ds).read j =
      if n ≤ j then ((ds[j - n]?).map (fun d => valueOfType d.2 0)).or (rf.read j) else rf.read j := by
  induction ds generalizing rf n with
  | nil => simp [zeroInputs]
  | cons d ds ih =>
    rw [zeroInputs, ih, RegFile.read_write]
    rcases Nat.lt_trichotomy j n with h | rfl | h
    · rw [if_neg (by omega), if_neg (by omega), if_neg (by omega)]
    · simp
    · obtain ⟨k, rfl⟩ := Nat.exists_eq_add_of_lt h
      rw [if_pos (by omega), if_neg (by omega), if_pos (by omega), show n + k + 1 - n = k + 1 by omega,
        show n + k + 1 - (n + 1) = k by omega, List.getElem?_cons_succ]

end Sys2Proof.Machine
end

