-- ==== Sys2Proof/Laws/Admit.lean ====
section
/-! SUPPORT. The checks of `30_encoding.md` R64, taken apart: a term is admitted exactly where each of the eleven
passes, what an admitted instruction's operands are, and when the operands of a form pass. -/

namespace Sys2Proof

/-- A term is admitted exactly where every check passes (R64). -/
theorem MmaTerm.check_eq_none {p : Params} {ds : List Decl} {t : MmaTerm} :
    t.check p ds = none ↔
      checkQualifiers t = none ∧ checkShapeKnown t = none ∧ checkTypeCombo t = none ∧ checkMixedCd p t = none ∧
      checkMixedSign p t = none ∧ checkLayout t = none ∧ checkSatfinite t = none ∧ checkOperandShape t = none ∧
      checkOperandType p ds t = none ∧ checkDestDistinct t = none ∧ checkNoGuard t = none := by
  simp only [MmaTerm.check, Option.or_eq_none_iff]

/-- The first repeated name of a vector is missing exactly where its names are pairwise different. -/
theorem firstRepeated_eq_none {v : List RegName} : firstRepeated v = none ↔ v.Nodup := by
  induction v with
  | nil => simp [firstRepeated]
  | cons r rs ih =>
    rw [firstRepeated, List.nodup_cons, ← ih]
    by_cases h : r ∈ rs <;> simp [h]

/-- A vector has the length of its role and legal names. -/
theorem Operand.hasLength_iff {o : Operand} {n : Nat} :
    o.hasLength n = true ↔ ∃ v, o = .regs v ∧ v.length = n ∧ ∀ r ∈ v, RegName.legal r = true := by
  cases o with
  | regs v => simp [Operand.hasLength, List.all_eq_true]
  | other t => simp [Operand.hasLength]

/-- `operand_shape` passes exactly where the four operands are vectors of legal names of the right lengths and nothing
else is wrong with the operand list. -/
theorem checkOperandShape_eq_none {t : MmaTerm} :
    checkOperandShape t = none ↔
      t.d.hasLength t.roles.d.1 = true ∧ t.a.hasLength t.roles.a.1 = true ∧ t.b.hasLength t.roles.b.1 = true ∧
      t.c.hasLength t.roles.c.1 = true ∧ t.extraOperand = false := by
  unfold checkOperandShape
  simp only [Bool.not_eq_true']
  split_ifs <;> simp_all

/-- No register of an operand is mistyped exactly where each is declared in a type that serves the role. -/
theorem firstMistyped_eq_none {p : Params} {ds : List Decl} {o : Operand} {want : RegType} :
    firstMistyped p ds o want = none ↔
      ∀ r ∈ o.names, ∃ ty, typeOf ds r = some ty ∧ RegType.fits p.admitUntyped ty want = true := by
  unfold firstMistyped
  rw [List.find?_eq_none]
  refine forall₂_congr fun r _ => ?_
  cases h : typeOf ds r <;> simp

theorem checkOperandType_eq_none {p : Params} {ds : List Decl} {t : MmaTerm} :
    checkOperandType p ds t = none ↔
      firstMistyped p ds t.d t.roles.d.2 = none ∧ firstMistyped p ds t.a t.roles.a.2 = none ∧
      firstMistyped p ds t.b t.roles.b.2 = none ∧ firstMistyped p ds t.c t.roles.c.2 = none := by
  simp only [checkOperandType, Option.map_eq_none_iff, Option.or_eq_none_iff]

/-- A type serves a role of its own. -/
@[simp] theorem RegType.fits_self (b : Bool) (ty : RegType) : RegType.fits b ty ty = true := by
  simp [RegType.fits]

/-- A type that serves a role has its width (R23). -/
theorem RegType.width_of_fits {b : Bool} {ty want : RegType} (h : RegType.fits b ty want = true) :
    ty.width = want.width := by
  unfold RegType.fits at h
  simp only [Bool.or_eq_true, Bool.and_eq_true, beq_iff_eq] at h
  rcases h with rfl | ⟨-, h⟩
  · rfl
  · exact h

/-- A register with a number is a legal name. -/
theorem legal_of_regIndex {ds : List Decl} {r : RegName} {j : Nat} (h : regIndex ds r = some j) :
    RegName.legal r = true := by
  unfold regIndex at h
  split_ifs at h with hc
  simp only [Bool.and_eq_true] at hc
  exact hc.1

/-- A register with a declared type is a legal name. -/
theorem legal_of_typeOf {ds : List Decl} {r : RegName} {ty : RegType} (h : typeOf ds r = some ty) :
    RegName.legal r = true := by
  obtain ⟨j, hj, -⟩ := Machine.typeOf_eq_some h
  exact legal_of_regIndex hj

namespace Machine

/-- The seven checks of a form that do not look at its operands (R64). -/
abbrev QualifiersPass (p : Params) (q : Quals) (o : Operands) : Prop :=
  checkShapeKnown (q.term o) = none ∧ checkTypeCombo (q.term o) = none ∧ checkMixedCd p (q.term o) = none ∧
    checkMixedSign p (q.term o) = none ∧ checkLayout (q.term o) = none ∧ checkSatfinite (q.term o) = none

/-- Vectors of the right lengths, declared in the types of their roles, with different destination names, are
admitted wherever the form is (R63, R64). -/
theorem refusal_eq_none_of_fit {i : Instr} {q : Quals} {o : Operands} {s : State} (hi : IsMma i q o)
    (hq : QualifiersPass s.setup.params q o) (hf : OperandsFit s o (roles q.shape q.atype q.dtype q.ctype)) :
    i.refusal s.setup.params s.setup.decls = none := by
  obtain ⟨hd, ha, hb, hc, hn⟩ := hf
  unfold Instr.refusal Instr.stmt
  rw [show i.form = .inl (q, o) from hi]
  simp only
  rw [MmaTerm.check_eq_none]
  have typed : ∀ {r : RegName} {ty : RegType},
      (typeOf s.setup.decls r).any (fun t => RegType.fits s.setup.params.admitUntyped t ty) = true →
      ∃ t, typeOf s.setup.decls r = some t ∧ RegType.fits s.setup.params.admitUntyped t ty = true := by
    intro r ty h
    exact (Option.any_eq_true _ _).1 h
  have shape : ∀ {v : Vec} {x : Nat × RegType}, HasRole s v x.1 x.2 → (Operand.regs v).hasLength x.1 = true :=
    fun h => Operand.hasLength_iff.2 ⟨_, rfl, h.1, fun r hr => legal_of_typeOf (typed (h.2 r hr)).choose_spec.1⟩
  have type : ∀ {v : Vec} {x : Nat × RegType}, HasRole s v x.1 x.2 →
      firstMistyped s.setup.params s.setup.decls (Operand.regs v) x.2 = none :=
    fun h => firstMistyped_eq_none.2 fun r hr => typed (h.2 r hr)
  refine ⟨rfl, hq.1, hq.2.1, hq.2.2.1, hq.2.2.2.1, hq.2.2.2.2.1, hq.2.2.2.2.2, ?_, ?_, ?_, rfl⟩
  · exact checkOperandShape_eq_none.2 ⟨shape hd, shape ha, shape hb, shape hc, rfl⟩
  · exact checkOperandType_eq_none.2 ⟨type hd, type ha, type hb, type hc⟩
  · simp only [checkDestDistinct, Option.map_eq_none_iff]
    exact firstRepeated_eq_none.2 hn

/-- The registers of a vector of an admitted instruction: as many as its role asks for, each declared with the width
of the role. -/
abbrev WidthRole (ds : List Decl) (v : Vec) (n : Nat) (ty : RegType) : Prop :=
  v.length = n ∧ ∀ r ∈ v, ∃ ty', typeOf ds r = some ty' ∧ ty'.width = ty.width

/-- What the operands of an admitted instruction are (R63, R64, R91 (b)). -/
theorem operands_of_admitted {i : Instr} {q : Quals} {o : Operands} {p : Params} {ds : List Decl} (hi : IsMma i q o)
    (h : i.refusal p ds = none) :
    let r := roles q.shape q.atype q.dtype q.ctype
    WidthRole ds o.d r.d.1 r.d.2 ∧ WidthRole ds o.a r.a.1 r.a.2 ∧ WidthRole ds o.b r.b.1 r.b.2 ∧
      WidthRole ds o.c r.c.1 r.c.2 ∧ o.d.Nodup := by
  unfold Instr.refusal Instr.stmt at h
  rw [show i.form = .inl (q, o) from hi] at h
  simp only at h
  rw [MmaTerm.check_eq_none] at h
  obtain ⟨-, -, -, -, -, -, -, hs, ht, hn, -⟩ := h
  rw [checkOperandShape_eq_none] at hs
  rw [checkOperandType_eq_none] at ht
  have both : ∀ {v : Vec} {x : Nat × RegType}, (Operand.regs v).hasLength x.1 = true →
      firstMistyped p ds (Operand.regs v) x.2 = none → WidthRole ds v x.1 x.2 := by
    intro v x h1 h2
    obtain ⟨v', hv, hl, -⟩ := Operand.hasLength_iff.1 h1
    cases hv
    refine ⟨hl, fun r hr => ?_⟩
    obtain ⟨ty, h3, h4⟩ := firstMistyped_eq_none.1 h2 r hr
    exact ⟨ty, h3, RegType.width_of_fits h4⟩
  refine ⟨both hs.1 ht.1, both hs.2.1 ht.2.1, both hs.2.2.1 ht.2.2.1, both hs.2.2.2.1 ht.2.2.2, ?_⟩
  simp only [checkDestDistinct, Option.map_eq_none_iff] at hn
  exact firstRepeated_eq_none.1 hn

end Machine

end Sys2Proof
end

