-- ==== Sys2Proof/Laws/Floats.lean ====
section
/-! SUPPORT. Laws of the floating-point formats: a pattern's value by its magnitude in units of the smallest subnormal
number, which magnitudes a format has, that a number other than 0 has one pattern, and that `.f16` numbers are `.f32`
numbers (`10_state.md` R23, `40_mma_common.md` R85). -/

namespace Sys2Proof.Machine

/-- The fields of a pattern. -/
def FloatFormat.exponent (F : FloatFormat) (x : Nat) : Nat := x / 2 ^ F.fracBits % 2 ^ F.expBits
def FloatFormat.fraction (F : FloatFormat) (x : Nat) : Nat := x % 2 ^ F.fracBits

/-- The magnitude of a finite number with these fields, in units of the smallest subnormal number. -/
def FloatFormat.magnitude (F : FloatFormat) (ex frac : Nat) : Nat :=
  if ex = 0 then frac else (2 ^ F.fracBits + frac) * 2 ^ (ex - 1)

/-- The smallest subnormal number. -/
def FloatFormat.unit (F : FloatFormat) : ℚ := (2 : ℚ) ^ (1 - ((2 : Int) ^ (F.expBits - 1) - 1 + F.fracBits))

theorem FloatFormat.unit_pos (F : FloatFormat) : 0 < F.unit := zpow_pos (by norm_num) _

/-- The value of a finite pattern: sign times magnitude times unit. -/
theorem FloatFormat.value_of_finite {F : FloatFormat} {x : Nat} (h : F.exponent x ≠ 2 ^ F.expBits - 1) :
    F.value x =
      some ((if F.negative x then -1 else 1) * F.magnitude (F.exponent x) (F.fraction x) * F.unit) := by
  unfold FloatFormat.value FloatFormat.magnitude FloatFormat.unit FloatFormat.exponent FloatFormat.fraction at *
  simp only [if_neg h]
  by_cases h0 : x / 2 ^ F.fracBits % 2 ^ F.expBits = 0
  · simp only [if_pos h0]
  · simp only [if_neg h0]
    congr 1
    obtain ⟨k, hk⟩ := Nat.exists_eq_succ_of_ne_zero h0
    rw [hk]
    push_cast
    rw [show ((k : Int) + 1 - (2 ^ (F.expBits - 1) - 1 + F.fracBits)) =
      k + (1 - (2 ^ (F.expBits - 1) - 1 + F.fracBits)) by ring, zpow_add₀ (by norm_num), zpow_natCast]
    ring

/-- A finite pattern has no other value than that. -/
theorem FloatFormat.finite_of_value {F : FloatFormat} {x : Nat} {q : ℚ} (h : F.value x = some q) :
    F.exponent x ≠ 2 ^ F.expBits - 1 := by
  intro h'
  unfold FloatFormat.exponent at h'
  simp [FloatFormat.value, h'] at h

theorem FloatFormat.value_zero {F : FloatFormat} (h : 0 < F.expBits) : F.value 0 = some 0 := by
  have := Nat.one_lt_two_pow (n := F.expBits) (by omega)
  simp [FloatFormat.value]
  omega

/-- A pattern is put together from its sign and its fields. -/
theorem FloatFormat.pattern_eq {F : FloatFormat} {x : Nat} (h : x < 2 ^ F.width) :
    x = (if F.negative x then 2 ^ (F.expBits + F.fracBits) else 0) + F.exponent x * 2 ^ F.fracBits + F.fraction x := by
  have hs : x / 2 ^ (F.expBits + F.fracBits) < 2 := by
    rw [Nat.div_lt_iff_lt_mul (by positivity), ← pow_succ']
    rwa [show F.expBits + F.fracBits + 1 = F.width by unfold FloatFormat.width; omega]
  unfold FloatFormat.negative FloatFormat.exponent FloatFormat.fraction
  have e1 := Nat.div_add_mod x (2 ^ F.fracBits)
  have e2 := Nat.div_add_mod (x / 2 ^ F.fracBits) (2 ^ F.expBits)
  rw [Nat.div_div_eq_div_mul, ← pow_add, Nat.add_comm F.fracBits] at e2
  rw [Nat.mod_eq_of_lt hs]
  have bit : ∀ z < 2, z = 0 ∨ z = 1 := by omega
  rcases bit _ hs with h0 | h1
  · rw [h0] at e2 ⊢
    simp only [Nat.mul_zero, Nat.zero_add] at e2
    rw [e2]
    simpa [Nat.mul_comm] using e1.symm
  · rw [h1] at e2 ⊢
    simp only [Nat.mul_one] at e2
    rw [← e2] at e1
    rw [pow_add]
    simp only [beq_self_eq_true, if_true]
    linarith [e1, Nat.mul_comm (2 ^ F.fracBits) (2 ^ F.expBits + x / 2 ^ F.fracBits % 2 ^ F.expBits)]

/-- Fields in range give a magnitude that determines them. -/
theorem FloatFormat.magnitude_inj {F : FloatFormat} {ex ex' frac frac' : Nat} (hf : frac < 2 ^ F.fracBits)
    (hf' : frac' < 2 ^ F.fracBits) (h : F.magnitude ex frac = F.magnitude ex' frac') : ex = ex' ∧ frac = frac' := by
  have key : ∀ {e e' f f' : Nat}, f < 2 ^ F.fracBits → e < e' → F.magnitude e f < F.magnitude e' f' := by
    intro e e' f f' hlt hee
    unfold FloatFormat.magnitude
    rw [if_neg (by omega : e' ≠ 0)]
    have lower : 2 ^ F.fracBits * 2 ^ (e' - 1) ≤ (2 ^ F.fracBits + f') * 2 ^ (e' - 1) :=
      Nat.mul_le_mul_right _ (by omega)
    by_cases h0 : e = 0
    · rw [if_pos h0]
      have := Nat.one_le_two_pow (n := e' - 1)
      nlinarith
    · rw [if_neg h0]
      have hp : 2 * 2 ^ (e - 1) ≤ 2 ^ (e' - 1) := by
        rw [← pow_succ']
        exact Nat.pow_le_pow_right (by norm_num) (by omega)
      have := Nat.one_le_two_pow (n := e - 1)
      nlinarith
  rcases Nat.lt_trichotomy ex ex' with hl | he | hg
  · exact absurd h (key hf hl).ne
  · subst he
    refine ⟨rfl, ?_⟩
    unfold FloatFormat.magnitude at h
    split at h
    · exact h
    · have := Nat.eq_of_mul_eq_mul_right (by positivity) h
      omega
  · exact absurd h.symm (key hf' hg).ne

/-- A number other than 0 has one pattern. -/
theorem FloatFormat.value_inj {F : FloatFormat} {x y : Nat} {q : ℚ} (hx : x < 2 ^ F.width) (hy : y < 2 ^ F.width)
    (h : F.value x = some q) (h' : F.value y = some q) (hq : q ≠ 0) : x = y := by
  have ex := FloatFormat.value_of_finite (FloatFormat.finite_of_value h)
  have ey := FloatFormat.value_of_finite (FloatFormat.finite_of_value h')
  have heq : (if F.negative x then (-1 : ℚ) else 1) * F.magnitude (F.exponent x) (F.fraction x) * F.unit =
      (if F.negative y then (-1 : ℚ) else 1) * F.magnitude (F.exponent y) (F.fraction y) * F.unit :=
    Option.some.inj ((ex.symm.trans h).trans (h'.symm.trans ey))
  have hne : (if F.negative x then (-1 : ℚ) else 1) * F.magnitude (F.exponent x) (F.fraction x) * F.unit ≠ 0 := by
    rwa [Option.some.inj (ex.symm.trans h)]
  have hxy := mul_right_cancel₀ F.unit_pos.ne' heq
  have hm : (F.magnitude (F.exponent x) (F.fraction x) : ℚ) ≠ 0 := fun h0 => hne (by simp [h0])
  have hs : F.negative x = F.negative y ∧
      F.magnitude (F.exponent x) (F.fraction x) = F.magnitude (F.exponent y) (F.fraction y) := by
    clear ex ey hne
    generalize F.negative x = sx at hxy ⊢
    generalize F.negative y = sy at hxy ⊢
    cases sx <;> cases sy <;> simp at hxy ⊢
    · exact_mod_cast hxy
    · exact hm (by exact_mod_cast hxy.1)
    · exact hm (by exact_mod_cast hxy.1)
    · exact_mod_cast hxy
  have hfx : F.fraction x < 2 ^ F.fracBits := Nat.mod_lt _ (by positivity)
  have hfy : F.fraction y < 2 ^ F.fracBits := Nat.mod_lt _ (by positivity)
  obtain ⟨he, hf⟩ := FloatFormat.magnitude_inj hfx hfy hs.2
  rw [FloatFormat.pattern_eq hx, FloatFormat.pattern_eq hy, hs.1, he, hf]

/-- The magnitudes a format has: a multiple of a power of two with few enough digits. -/
theorem FloatFormat.magnitude_exists {F : FloatFormat} (k : Nat) :
    ∀ m, m < 2 ^ (F.fracBits + 1) → ∃ ex frac, ex ≤ k + 1 ∧ frac < 2 ^ F.fracBits ∧ F.magnitude ex frac = m * 2 ^ k := by
  induction k with
  | zero =>
    intro m hm
    by_cases h : m < 2 ^ F.fracBits
    · exact ⟨0, m, by omega, h, by simp [FloatFormat.magnitude]⟩
    · rw [pow_succ] at hm
      exact ⟨1, m - 2 ^ F.fracBits, by omega, by omega, by simp [FloatFormat.magnitude]; omega⟩
  | succ k ih =>
    intro m hm
    by_cases h : m < 2 ^ F.fracBits
    · obtain ⟨ex, frac, h1, h2, h3⟩ := ih (2 * m) (by rw [pow_succ]; omega)
      exact ⟨ex, frac, by omega, h2, by rw [h3, pow_succ]; ring⟩
    · rw [pow_succ] at hm
      exact ⟨k + 2, m - 2 ^ F.fracBits, by omega, by omega, by
        simp only [FloatFormat.magnitude, if_neg (by omega : k + 2 ≠ 0)]
        rw [show 2 ^ F.fracBits + (m - 2 ^ F.fracBits) = m by omega]; rfl⟩

/-- Fields in range with a sign are the fields of a pattern. -/
theorem FloatFormat.represents_of_fields {F : FloatFormat} {ex frac : Nat} (neg : Bool) (hex : ex < 2 ^ F.expBits - 1)
    (hf : frac < 2 ^ F.fracBits) : F.Represents ((if neg then -1 else 1) * F.magnitude ex frac * F.unit) := by
  let x := (if neg then 2 ^ (F.expBits + F.fracBits) else 0) + ex * 2 ^ F.fracBits + frac
  have low : ex * 2 ^ F.fracBits + frac < 2 ^ (F.expBits + F.fracBits) := by
    rw [pow_add]
    calc ex * 2 ^ F.fracBits + frac < (ex + 1) * 2 ^ F.fracBits := by rw [Nat.succ_mul]; omega
      _ ≤ _ := Nat.mul_le_mul_right _ (by omega)
  have hfr : F.fraction x = frac := by
    unfold FloatFormat.fraction
    simp only [x]
    cases neg <;> simp [pow_add, Nat.add_mod, Nat.mod_eq_of_lt hf]
  have hq : x / 2 ^ F.fracBits = (if neg then 2 ^ F.expBits else 0) + ex := by
    rw [Nat.div_eq_of_lt_le]
    · simp only [x]; cases neg <;> simp [pow_add, Nat.add_mul]
    · simp only [x]; cases neg <;> simp [pow_add, Nat.add_mul] <;> omega
  have hexp : F.exponent x = ex := by
    unfold FloatFormat.exponent
    rw [hq]
    cases neg <;> simp [Nat.mod_eq_of_lt (by omega : ex < 2 ^ F.expBits)]
  have hn : F.negative x = neg := by
    unfold FloatFormat.negative
    rw [Nat.add_comm F.expBits, pow_add, ← Nat.div_div_eq_div_mul, hq]
    have : ex / 2 ^ F.expBits = 0 := Nat.div_eq_of_lt (by omega)
    cases neg <;> simp [this]
  refine ⟨x, ?_, ?_⟩
  · rw [show F.width = F.expBits + F.fracBits + 1 by unfold FloatFormat.width; omega, pow_succ]
    simp only [x]
    cases neg <;> simp <;> omega
  · rw [FloatFormat.value_of_finite (by omega), hexp, hfr, hn]

/-- Every finite `.f16` number is an `.f32` number. -/
theorem fmtF32_represents_of_fmtF16 {q : ℚ} (h : fmtF16.Represents q) : fmtF32.Represents q := by
  obtain ⟨x, hx, hv⟩ := h
  have hfin := FloatFormat.finite_of_value hv
  have hv' := (FloatFormat.value_of_finite hfin).symm.trans hv
  have hex : fmtF16.exponent x < 2 ^ 5 - 1 := lt_of_le_of_ne
    (Nat.le_sub_one_of_lt (Nat.mod_lt _ (by positivity))) hfin
  have hfr : fmtF16.fraction x < 2 ^ 10 := Nat.mod_lt _ (by positivity)
  have mag : ∃ m k, m < 2 ^ (fmtF32.fracBits + 1) ∧ k ≤ 29 ∧
      fmtF16.magnitude (fmtF16.exponent x) (fmtF16.fraction x) = m * 2 ^ k := by
    unfold FloatFormat.magnitude
    split
    · exact ⟨fmtF16.fraction x, 0, by simp [fmtF32]; omega, by omega, by simp⟩
    · exact ⟨2 ^ 10 + fmtF16.fraction x, fmtF16.exponent x - 1, by simp [fmtF32]; omega, by omega, rfl⟩
  obtain ⟨m, k, hm, hk, hmk⟩ := mag
  obtain ⟨ex, frac, h1, h2, h3⟩ := FloatFormat.magnitude_exists (F := fmtF32) (125 + k) m hm
  have := FloatFormat.represents_of_fields (F := fmtF32) (fmtF16.negative x)
    (by simp [fmtF32]; omega : ex < 2 ^ fmtF32.expBits - 1) h2
  rw [h3] at this
  have hu : fmtF16.unit = 2 ^ 125 * fmtF32.unit := by
    simp only [FloatFormat.unit, fmtF16, fmtF32]; norm_num
  rw [← Option.some.inj hv', hmk, hu]
  convert this using 1
  push_cast
  rw [pow_add]
  ring

/-- A numeric function with the named property exists: the exact sum where the property fixes it, else 0. -/
theorem exists_exactWhenRepresentable {wm wc wd : Nat} (Fm Fc : FloatFormat) {Fd F : FloatFormat}
    (hF : ∀ q, F.Represents q → Fd.Represents q) (hw : Fd.width = wd) (hz : Fd.value 0 = some 0)
    (hz' : Fc.value 0 = some 0) :
    ∃ dot : Vector (BitVec wm) 4 → Vector (BitVec wm) 4 → BitVec wc → BitVec wd,
      ExactWhenRepresentable Fm Fc Fd F dot := by
  classical
  let good : Vector (BitVec wm) 4 → Vector (BitVec wm) 4 → BitVec wc → BitVec wd → Prop := fun a b c x =>
    ∀ (va vb : Fin 4 → ℚ) (vc : ℚ), (∀ k, Fm.value a[k].toNat = some (va k)) →
      (∀ k, Fm.value b[k].toNat = some (vb k)) → Fc.value c.toNat = some vc →
      Fd.value x.toNat = some (vc + ((List.finRange 4).map (fun k => va k * vb k)).sum) ∧
        (c = 0 → (∀ k, va k * vb k = 0 ∧ Fm.negative a[k].toNat = Fm.negative b[k].toNat) → x = 0)
  refine ⟨fun a b c => if h : ∃ x, good a b c x then h.choose else 0, ?_⟩
  intro a b c va vb vc ha hb hc hp hs
  simp only
  have hex : ∃ x, good a b c x := by
    obtain ⟨x, hx, hv⟩ := hF _ (hs _ (List.mem_sublists.2 (List.Sublist.refl _)) (by simp))
    by_cases hzero : c = 0 ∧ ∀ k, va k * vb k = 0 ∧ Fm.negative a[k].toNat = Fm.negative b[k].toNat
    · refine ⟨0, fun va' vb' vc' ha' hb' hc' => ⟨?_, fun _ _ => rfl⟩⟩
      have e1 : va' = va := funext fun k => Option.some.inj ((ha' k).symm.trans (ha k))
      have e2 : vb' = vb := funext fun k => Option.some.inj ((hb' k).symm.trans (hb k))
      have e3 : vc' = 0 := Option.some.inj (hc'.symm.trans (by rw [hzero.1]; exact hz'))
      subst e1 e2 e3
      rw [show (0 : BitVec wd).toNat = 0 from by simp, hz]
      congr 1
      simp [fun k => (hzero.2 k).1]
    · refine ⟨BitVec.ofNat wd x, fun va' vb' vc' ha' hb' hc' => ?_⟩
      have e1 : va' = va := funext fun k => Option.some.inj ((ha' k).symm.trans (ha k))
      have e2 : vb' = vb := funext fun k => Option.some.inj ((hb' k).symm.trans (hb k))
      have e3 : vc' = vc := Option.some.inj (hc'.symm.trans hc)
      subst e1 e2 e3
      refine ⟨?_, fun h1 h2 => absurd ⟨h1, h2⟩ hzero⟩
      rw [BitVec.toNat_ofNat, Nat.mod_eq_of_lt (by rw [← hw]; exact hx), hv, List.sum_cons]
  rw [dif_pos hex]
  have := hex.choose_spec va vb vc ha hb hc
  exact ⟨fun _ => this.1, fun h => by rw [this.1, h], this.2⟩

/-- Such functions of the five types of `00_scope.md` R9. -/
theorem exists_exactF16F16 : ∃ dot, ExactF16F16 dot :=
  exists_exactWhenRepresentable _ _ (fun _ h => h) (by decide) (FloatFormat.value_zero (by decide))
    (FloatFormat.value_zero (by decide))
theorem exists_exactF16F32 : ∃ dot, ExactF16F32 dot :=
  exists_exactWhenRepresentable _ _ (fun _ h => h) (by decide) (FloatFormat.value_zero (by decide))
    (FloatFormat.value_zero (by decide))
theorem exists_exactF32F16 : ∃ dot, ExactF32F16 dot :=
  exists_exactWhenRepresentable _ _ (fun _ => fmtF32_represents_of_fmtF16) (by decide)
    (FloatFormat.value_zero (by decide)) (FloatFormat.value_zero (by decide))
theorem exists_exactF32F32 : ∃ dot, ExactF32F32 dot :=
  exists_exactWhenRepresentable _ _ (fun _ h => h) (by decide) (FloatFormat.value_zero (by decide))
    (FloatFormat.value_zero (by decide))
theorem exists_exactF64 : ∃ dot, ExactF64 dot :=
  exists_exactWhenRepresentable _ _ (fun _ h => h) (by decide) (FloatFormat.value_zero (by decide))
    (FloatFormat.value_zero (by decide))

end Sys2Proof.Machine
end

