-- ==== Sys2Proof/Laws/State.lean ====
section
/-! SUPPORT. One lemma per field per update of the state, and what reading a register gives after each, so that no
later proof unfolds an update. The tagged lemmas speak of the thread at a number (`threads[i]`), which is the form
`simp` brings `threads[l]` into; the untagged ones speak of the thread of a lane. -/

namespace Sys2Proof.Machine

/-! ## `mapThreads` -/

@[simp] theorem State.mapThreads_setup (s : State) (f : Lane → Thread → Thread) :
    (s.mapThreads f).setup = s.setup := by
  simp only [State.mapThreads]

@[simp] theorem State.mapThreads_getElem (s : State) (f : Lane → Thread → Thread) (i : Nat) (h : i < 32) :
    (s.mapThreads f).threads[i] = f ⟨i, h⟩ s.threads[i] := by
  simp [State.mapThreads]

theorem State.mapThreads_threads (s : State) (f : Lane → Thread → Thread) (l : Lane) :
    (s.mapThreads f).threads[l] = f l s.threads[l] :=
  State.mapThreads_getElem s f l l.isLt

/-! ## `commit` -/

@[simp] theorem State.commit_setup (s : State) (d : Vec) (val : Lane → Nat → Value) :
    (s.commit d val).setup = s.setup := by
  simp only [State.commit, State.mapThreads_setup]

@[simp] theorem State.commit_getElem_regs (s : State) (d : Vec) (val : Lane → Nat → Value) (i : Nat) (h : i < 32) :
    ((s.commit d val).threads[i]).regs = s.threads[i].regs.writeVec s.setup.decls d (val ⟨i, h⟩) := by
  simp only [State.commit, State.mapThreads_getElem]

@[simp] theorem State.commit_getElem_pc (s : State) (d : Vec) (val : Lane → Nat → Value) (i : Nat) (h : i < 32) :
    ((s.commit d val).threads[i]).pc = s.threads[i].pc + 1 := by
  simp only [State.commit, State.mapThreads_getElem]

@[simp] theorem State.commit_getElem_status (s : State) (d : Vec) (val : Lane → Nat → Value) (i : Nat) (h : i < 32) :
    ((s.commit d val).threads[i]).status = statusAt s.setup.program.length (s.threads[i].pc + 1) := by
  simp only [State.commit, State.mapThreads_getElem]

theorem State.commit_regs (s : State) (d : Vec) (val : Lane → Nat → Value) (l : Lane) :
    (s.commit d val).threads[l].regs = s.threads[l].regs.writeVec s.setup.decls d (val l) :=
  State.commit_getElem_regs s d val l l.isLt

theorem State.commit_pc (s : State) (d : Vec) (val : Lane → Nat → Value) (l : Lane) :
    (s.commit d val).threads[l].pc = s.threads[l].pc + 1 :=
  State.commit_getElem_pc s d val l l.isLt

theorem State.commit_status (s : State) (d : Vec) (val : Lane → Nat → Value) (l : Lane) :
    (s.commit d val).threads[l].status = statusAt s.setup.program.length (s.threads[l].pc + 1) :=
  State.commit_getElem_status s d val l l.isLt

/-- A register that is not in the destination vector keeps its content. -/
theorem State.commit_readReg_of_not_mem (s : State) (d : Vec) (val : Lane → Nat → Value) (l : Lane) {r : RegName}
    (h : r ∉ d) : (s.commit d val).readReg l r = s.readReg l r := by
  unfold State.readReg
  rw [State.commit_setup, State.commit_regs]
  cases hj : regIndex s.setup.decls r with
  | none => rfl
  | some j =>
    exact RegFile.read_writeVec_of_not_mem _ _ fun x hx e => h (regIndex_inj hj e ▸ hx)

/-- A declared register of the destination vector, whose names are pairwise different, gets its new content. -/
theorem State.commit_readReg (s : State) (d : Vec) (val : Lane → Nat → Value) (l : Lane) (hn : d.Nodup) (j : Nat)
    (hj : j < d.length) (hd : (regIndex s.setup.decls d[j]).isSome = true) :
    (s.commit d val).readReg l d[j] = some (val l j) := by
  obtain ⟨k, hk⟩ := Option.isSome_iff_exists.1 hd
  unfold State.readReg
  rw [State.commit_setup, State.commit_regs, hk]
  exact RegFile.read_writeVec hn _ _ j hj hk

/-! ## `markFaulted` -/

@[simp] theorem State.markFaulted_setup (s : State) : s.markFaulted.setup = s.setup := by
  simp only [State.markFaulted, State.mapThreads_setup]

@[simp] theorem State.markFaulted_getElem (s : State) (i : Nat) (h : i < 32) :
    s.markFaulted.threads[i] = { s.threads[i] with status := .faulted } := by
  simp only [State.markFaulted, State.mapThreads_getElem]

theorem State.markFaulted_threads (s : State) (l : Lane) :
    s.markFaulted.threads[l] = { s.threads[l] with status := .faulted } :=
  State.markFaulted_getElem s l l.isLt

@[simp] theorem State.markFaulted_readReg (s : State) (l : Lane) (r : RegName) :
    s.markFaulted.readReg l r = s.readReg l r := by
  simp only [State.readReg, State.markFaulted_setup, State.markFaulted_threads]

/-! ## `launch`, `loadOne`, `reset` -/

@[simp] theorem State.launch_setup (su : Setup) (inputs : List (Lane × RegName × Value)) :
    (State.launch su inputs).setup = su := rfl

@[simp] theorem State.launch_getElem (su : Setup) (inputs : List (Lane × RegName × Value)) (i : Nat) (h : i < 32) :
    (State.launch su inputs).threads[i] = ⟨launchRegs su.decls ⟨i, h⟩ inputs, 0, .running⟩ := by
  simp [State.launch, Thread.launch]

theorem State.launch_threads (su : Setup) (inputs : List (Lane × RegName × Value)) (l : Lane) :
    (State.launch su inputs).threads[l] = ⟨launchRegs su.decls l inputs, 0, .running⟩ :=
  State.launch_getElem su inputs l l.isLt

@[simp] theorem State.loadOne_program (s : State) (t : Text) : (s.loadOne t).setup.program = [t] := rfl

@[simp] theorem State.loadOne_params (s : State) (t : Text) : (s.loadOne t).setup.params = s.setup.params := rfl

@[simp] theorem State.loadOne_decls (s : State) (t : Text) :
    (s.loadOne t).setup.decls = declareOperands t s.setup.decls := rfl

@[simp] theorem State.loadOne_getElem (s : State) (t : Text) (i : Nat) (h : i < 32) :
    (s.loadOne t).threads[i] =
      ⟨zeroInputs s.threads[i].regs s.setup.decls.length
        ((declareOperands t s.setup.decls).drop s.setup.decls.length), 0, .running⟩ := by
  simp [State.loadOne]

theorem State.loadOne_threads (s : State) (t : Text) (l : Lane) :
    (s.loadOne t).threads[l] =
      ⟨zeroInputs s.threads[l].regs s.setup.decls.length
        ((declareOperands t s.setup.decls).drop s.setup.decls.length), 0, .running⟩ :=
  State.loadOne_getElem s t l l.isLt

@[simp] theorem State.reset_setup : State.reset.setup = emptySetup := rfl

@[simp] theorem State.reset_getElem (i : Nat) (h : i < 32) : State.reset.threads[i] = Thread.launch := by
  simp [State.reset]

theorem State.reset_threads (l : Lane) : State.reset.threads[l] = Thread.launch :=
  State.reset_getElem l l.isLt

/-- After a statement is placed at reset, every declared register of every lane holds the 0 of its type. -/
theorem State.reset_loadOne_readReg (t : Text) (l : Lane) (r : RegName) :
    (State.reset.loadOne t).readReg l r = (typeOf (declareOperands t []) r).map (fun ty => valueOfType ty 0) := by
  rw [State.readReg, State.loadOne_decls, State.loadOne_threads, State.reset_threads, typeOf, Option.map_bind]
  congr 1
  funext j
  simp [Thread.launch, RegFile.read_zeroInputs, emptySetup, Function.comp_def]

/-- Two states with the same configuration and, lane by lane, the same threads are the same state. -/
theorem State.ext_lanes {s t : State} (hs : s.setup = t.setup) (ht : ∀ l : Lane, s.threads[l] = t.threads[l]) :
    s = t := by
  obtain ⟨su, th⟩ := s
  obtain ⟨su', th'⟩ := t
  cases hs
  congr 1
  exact Vector.ext fun i hi => ht ⟨i, hi⟩

end Sys2Proof.Machine
end

