-- ==== Sys2Proof/Laws/Ops.lean ====
section
/-! SUPPORT. What each shared operation can do, said once: the enabling condition, the search for an unwritten source,
the collective step, the meaning of an instruction, the decoding of a program, and the step. Later proofs cite these
and unfold none of them. -/

namespace Sys2Proof.Machine

@[simp] theorem mem_lanes (l : Lane) : l ∈ lanes := List.mem_finRange l

/-! ## The enabling condition -/

/-- `enabledAt` answers the statement at which all 32 threads are `running` (R76). -/
theorem State.enabledAt_eq_some {s : State} {p : Nat} : s.enabledAt = some p ↔ EnabledAt s p := by
  unfold State.enabledAt EnabledAt
  simp only
  constructor
  · intro h
    split_ifs at h with hc
    rw [List.all_eq_true] at hc
    cases h
    intro l
    have := hc l (mem_lanes l)
    simpa using this
  · intro h
    have h0 := (h 0).2
    rw [if_pos, h0]
    rw [List.all_eq_true]
    intro l _
    rw [(h l).1, (h l).2, h0]
    simp

/-- `enabledAt` answers nothing exactly where no statement is common to 32 `running` threads. -/
theorem State.enabledAt_eq_none {s : State} : s.enabledAt = none ↔ ∀ p, ¬ EnabledAt s p := by
  constructor
  · intro h p hp
    rw [State.enabledAt_eq_some.2 hp] at h
    cases h
  · intro h
    cases hp : s.enabledAt with
    | none => rfl
    | some p => exact absurd (State.enabledAt_eq_some.1 hp) (h p)

/-- There is only one statement at which a state is enabled. -/
theorem EnabledAt.unique {s : State} {p q : Nat} (h : EnabledAt s p) (h' : EnabledAt s q) : p = q :=
  (h 0).2.symm.trans (h' 0).2

theorem State.allExited_iff {s : State} : s.allExited = true ↔ ∀ l : Lane, s.threads[l].status = .exited := by
  unfold State.allExited
  rw [List.all_eq_true]
  exact ⟨fun h l => by simpa using h l (mem_lanes l), fun h l _ => by rw [h l]; rfl⟩

/-- An enabled state is not over. -/
theorem EnabledAt.allExited {s : State} {p : Nat} (h : EnabledAt s p) : s.allExited = false := by
  rw [← Bool.not_eq_true, State.allExited_iff]
  intro hx
  have := (hx 0).symm.trans (h 0).1
  cases this

/-! ## Unwritten sources -/

/-- No source is unwritten exactly where all of them hold values. -/
theorem State.firstUnwritten_eq_none {s : State} {rs : List RegName} :
    s.firstUnwritten rs = none ↔ AllHold s rs := by
  unfold State.firstUnwritten AllHold
  rw [List.findSome?_eq_none_iff]
  constructor
  · intro h l r hr
    have := h l (mem_lanes l)
    rw [Option.map_eq_none_iff, List.find?_eq_none] at this
    have := this r hr
    cases hv : s.readReg l r <;> simp_all
  · intro h l _
    rw [Option.map_eq_none_iff, List.find?_eq_none]
    intro r hr
    have := h l r hr
    cases hv : s.readReg l r <;> simp_all

/-- The unwritten source that is found is the first: in its own lane every earlier register of the list holds a value,
and in every lower lane all of them do. -/
theorem State.firstUnwritten_eq_some {s : State} {rs : List RegName} {l : Lane} {r : RegName}
    (h : s.firstUnwritten rs = some (l, r)) :
    FirstUnwritten s rs l r := by
  unfold State.firstUnwritten at h
  rw [List.findSome?_eq_some_iff] at h
  obtain ⟨l₁, a, l₂, hl, ha, hb⟩ := h
  rw [Option.map_eq_some_iff] at ha
  obtain ⟨r', hr', he⟩ := ha
  cases he
  rw [List.find?_eq_some_iff_append] at hr'
  obtain ⟨hn, as, bs, has, hbs⟩ := hr'
  refine ⟨⟨as, bs, has, by simpa using hn, fun x hx => ?_⟩, fun m hm x hx => ?_⟩
  · have := hbs x hx
    cases hv : s.readReg l x <;> simp_all
  · have hsorted : lanes.Pairwise (· < ·) := List.pairwise_lt_finRange 32
    have hmem : m ∈ l₁ := by
      have hm' : m ∈ lanes := mem_lanes m
      rw [hl] at hm' hsorted
      rcases List.mem_append.1 hm' with h1 | h1
      · exact h1
      · exfalso
        rcases List.mem_cons.1 h1 with rfl | h2
        · exact lt_irrefl _ hm
        · have := (List.pairwise_append.1 hsorted).2.1
          rw [List.pairwise_cons] at this
          exact lt_asymm hm (this.1 m h2)
    have := hb m hmem
    rw [Option.map_eq_none_iff, List.find?_eq_none] at this
    have := this x hx
    cases hv : s.readReg m x <;> simp_all

/-! ## The collective step -/

variable {wa wb wc wd K : Nat}

/-- Refused: nothing else is looked at (R194 (1)). -/
theorem mmaStep_refused (f : Form wa wb wc wd K) {i : Instr} (o : Operands) {s : State} {why : Reject}
    (h : i.refusal s.setup.params s.setup.decls = some why) :
    mmaStep f i o s = .refused (.rejected s.site why) := by
  unfold mmaStep; rw [h]

/-- Admitted, but not enabled: stuck (R76, R194 (2)). -/
theorem mmaStep_stuck (f : Form wa wb wc wd K) {i : Instr} (o : Operands) {s : State}
    (h : i.refusal s.setup.params s.setup.decls = none) (he : ∀ p, ¬ EnabledAt s p) :
    mmaStep f i o s = .fault .stuck := by
  unfold mmaStep; rw [h, State.enabledAt_eq_none.2 he]

/-- Enabled, but a source holds no value: the fault (R90, R194 (3)). -/
theorem mmaStep_unwritten (f : Form wa wb wc wd K) {i : Instr} {o : Operands} {s : State} {p : Nat} {l : Lane}
    {r : RegName} (h : i.refusal s.setup.params s.setup.decls = none) (he : EnabledAt s p)
    (hu : s.firstUnwritten o.sources = some (l, r)) :
    mmaStep f i o s = .fault (.unwrittenRegister l r p s.markFaulted) := by
  unfold mmaStep; rw [h, State.enabledAt_eq_some.2 he]; simp only [hu, raiseUnwritten]

/-- Enabled with every source holding a value: done (R89). -/
theorem mmaStep_done (f : Form wa wb wc wd K) {i : Instr} {o : Operands} {s : State} {p : Nat}
    (h : i.refusal s.setup.params s.setup.decls = none) (he : EnabledAt s p) (ha : AllHold s o.sources) :
    mmaStep f i o s = .next (s.commit o.d (f.result s o)) := by
  unfold mmaStep; rw [h, State.enabledAt_eq_some.2 he]; simp only [State.firstUnwritten_eq_none.2 ha]

/-- Everything the collective step can do when it goes on. -/
theorem mmaStep_next {f : Form wa wb wc wd K} {i : Instr} {o : Operands} {s t : State}
    (h : mmaStep f i o s = .next t) :
    i.refusal s.setup.params s.setup.decls = none ∧ (∃ p, EnabledAt s p) ∧ AllHold s o.sources ∧
      t = s.commit o.d (f.result s o) := by
  unfold mmaStep at h
  split at h
  · cases h
  · rename_i hr
    split at h
    · cases h
    · rename_i p hp
      split at h
      · cases h
      · rename_i hu
        cases h
        exact ⟨hr, ⟨p, State.enabledAt_eq_some.1 hp⟩, State.firstUnwritten_eq_none.1 hu, rfl⟩

/-! ## The meaning of an instruction -/

/-- The meaning of every row that is an `mma` is the collective step of a form whose destination registers have the
type of their role (`30_encoding.md` R63). -/
theorem exec_mma {i : Instr} {q : Quals} {o : Operands} (h : IsMma i q o) :
    ∃ (wa wb wc wd K : Nat) (f : Form wa wb wc wd K),
      f.dType = (roles q.shape q.atype q.dtype q.ctype).d.2 ∧ ∀ s, exec i s = mmaStep f i o s := by
  cases i <;> simp only [IsMma, Instr.form, Sum.inl.injEq, Prod.mk.injEq, reduceCtorEq] at h <;>
    (obtain ⟨rfl, rfl⟩ := h; exact ⟨_, _, _, _, _, _, rfl, fun _ => rfl⟩)

/-- The three named instructions are refused by their names (R185 to R187). -/
theorem exec_named {i : Instr} {n : NamedOnly} (h : i.form = .inr n) (s : State) :
    exec i s = .refused (.rejected s.site (.notDescribed n)) := by
  cases i <;> simp only [Instr.form, Sum.inr.injEq, reduceCtorEq] at h <;> (subst h; rfl)

/-- An admitted instruction is an `mma`. -/
theorem isMma_of_admitted {p : Params} {ds : List Decl} {i : Instr} (h : i.refusal p ds = none) :
    ∃ q o, IsMma i q o := by
  unfold Instr.refusal Instr.stmt at h
  cases hf : i.form with
  | inl x => exact ⟨x.1, x.2, hf⟩
  | inr n => rw [hf] at h; simp at h

/-- Everything an instruction can do when it goes on. -/
theorem exec_next {i : Instr} {s t : State} (h : exec i s = .next t) :
    ∃ (q : Quals) (o : Operands) (p : Nat) (wd : Nat) (per : Nat) (e : Lane → Nat → BitVec wd),
      IsMma i q o ∧ i.refusal s.setup.params s.setup.decls = none ∧ EnabledAt s p ∧ AllHold s o.sources ∧
      t = s.commit o.d (fun l => packRegister (roles q.shape q.atype q.dtype q.ctype).d.2 per (e l)) := by
  cases hf : i.form with
  | inr n => rw [exec_named hf] at h; cases h
  | inl x =>
    obtain ⟨wa, wb, wc, wd, K, f, ht, hx⟩ := exec_mma (i := i) (q := x.1) (o := x.2) hf
    rw [hx] at h
    obtain ⟨hr, ⟨p, hp⟩, ha, rfl⟩ := mmaStep_next h
    exact ⟨x.1, x.2, p, wd, f.d.per, f.cell s x.2, hf, hr, hp, ha, by rw [← ht]; rfl⟩

/-! ## Decoding a program -/

/-- A program that decodes has one admitted instruction for each of its statements, the one its text decodes to. -/
theorem loadFrom_ok {su : Setup} {n : Nat} {ts : List Text} {is : List Instr} (h : loadFrom su n ts = .ok is) :
    List.Forall₂ (fun t i => decode su.params su.decls t = .ok i ∧ i.refusal su.params su.decls = none) ts is := by
  induction ts generalizing n is with
  | nil => cases h; exact .nil
  | cons t ts ih =>
    rw [loadFrom] at h
    split at h
    · cases h
    · rename_i i hi
      split at h
      · cases h
      · rename_i hr
        split at h
        · cases h
        · rename_i is' his
          cases h
          exact .cons ⟨hi, hr⟩ (ih his)

/-- Where every statement decodes to an admitted instruction the program decodes to their list. -/
theorem loadFrom_of_forall {su : Setup} {n : Nat} {ts : List Text} {is : List Instr}
    (h : List.Forall₂ (fun t i => decode su.params su.decls t = .ok i ∧ i.refusal su.params su.decls = none) ts is) :
    loadFrom su n ts = .ok is := by
  induction h generalizing n with
  | nil => rfl
  | cons h _ ih => rw [loadFrom, h.1]; simp only [h.2]; rw [ih]

/-- A program decodes or has a refusal mark, and not both (R192). -/
theorem State.refusal_eq_none {s : State} : s.refusal = none ↔ ∃ is, s.instrs = .ok is := by
  unfold State.refusal
  cases s.instrs <;> simp

/-- Decoding looks at the configuration alone. -/
theorem State.instrs_congr {s t : State} (h : s.setup = t.setup) : s.instrs = t.instrs := by
  unfold State.instrs; rw [h]

/-! ## The step -/

/-- The step at a state whose common statement decodes to `i` is the meaning of `i`. -/
theorem step_eq_exec {s : State} {is : List Instr} {p : Nat} {i : Instr} (hi : s.instrs = .ok is)
    (hp : EnabledAt s p) (h : is[p]? = some i) : step s = exec i s := by
  unfold step
  rw [hi]
  simp only [hp.allExited, State.enabledAt_eq_some.2 hp, h, Bool.false_eq_true, if_false]

/-- Everything the step can do when it goes on. -/
theorem step_next {s t : State} (h : step s = .next t) :
    ∃ (is : List Instr) (p : Nat) (i : Instr),
      s.instrs = .ok is ∧ EnabledAt s p ∧ is[p]? = some i ∧ exec i s = .next t := by
  unfold step at h
  split at h
  · cases h
  · rename_i is hi
    split_ifs at h
    split at h
    · cases h
    · rename_i p hp
      split at h
      · cases h
      · rename_i i hpi
        exact ⟨is, p, i, hi, State.enabledAt_eq_some.1 hp, hpi, h⟩

end Sys2Proof.Machine
end

