-- ==== Sys2Proof/Laws/PerInstr.lean ====
section
/-! SUPPORT. Statements about every instruction as syntax, one lemma for each constructor. -/

namespace Sys2Proof.Laws.RowRoundTrip

/-- A row is found again from its own qualifiers and operands, alone and by way of its term (`30_encoding.md` R66,
R71), and whatever its operands are it passes the checks of R64 that neither a parameter nor an operand decides; a
named instruction is found again from its name. -/
def Statement (i : Instr) : Prop :=
  match i.form with
  | .inl (q, o) =>
    q.instr o = some i ∧ (q.term o).instr = some i ∧
      checkQualifiers (q.term o) = none ∧ checkShapeKnown (q.term o) = none ∧ checkTypeCombo (q.term o) = none ∧
      checkLayout (q.term o) = none ∧ checkSatfinite (q.term o) = none ∧ checkNoGuard (q.term o) = none
  | .inr n => n.instr = i

theorem m8n8k4RowRowF16F16 (d a b c : Vec) : Statement (.m8n8k4RowRowF16F16 d a b c) := by
  refine ⟨?_, ?_, ?_, ?_, ?_, ?_, ?_, ?_⟩ <;> rfl
theorem m8n8k4RowRowF16F32 (d a b c : Vec) : Statement (.m8n8k4RowRowF16F32 d a b c) := by
  refine ⟨?_, ?_, ?_, ?_, ?_, ?_, ?_, ?_⟩ <;> rfl
theorem m8n8k4RowRowF32F16 (d a b c : Vec) : Statement (.m8n8k4RowRowF32F16 d a b c) := by
  refine ⟨?_, ?_, ?_, ?_, ?_, ?_, ?_, ?_⟩ <;> rfl
theorem m8n8k4RowRowF32F32 (d a b c : Vec) : Statement (.m8n8k4RowRowF32F32 d a b c) := by
  refine ⟨?_, ?_, ?_, ?_, ?_, ?_, ?_, ?_⟩ <;> rfl
theorem m8n8k4RowColF16F16 (d a b c : Vec) : Statement (.m8n8k4RowColF16F16 d a b c) := by
  refine ⟨?_, ?_, ?_, ?_, ?_, ?_, ?_, ?_⟩ <;> rfl
theorem m8n8k4RowColF16F32 (d a b c : Vec) : Statement (.m8n8k4RowColF16F32 d a b c) := by
  refine ⟨?_, ?_, ?_, ?_, ?_, ?_, ?_, ?_⟩ <;> rfl
theorem m8n8k4RowColF32F16 (d a b c : Vec) : Statement (.m8n8k4RowColF32F16 d a b c) := by
  refine ⟨?_, ?_, ?_, ?_, ?_, ?_, ?_, ?_⟩ <;> rfl
theorem m8n8k4RowColF32F32 (d a b c : Vec) : Statement (.m8n8k4RowColF32F32 d a b c) := by
  refine ⟨?_, ?_, ?_, ?_, ?_, ?_, ?_, ?_⟩ <;> rfl
theorem m8n8k4ColRowF16F16 (d a b c : Vec) : Statement (.m8n8k4ColRowF16F16 d a b c) := by
  refine ⟨?_, ?_, ?_, ?_, ?_, ?_, ?_, ?_⟩ <;> rfl
theorem m8n8k4ColRowF16F32 (d a b c : Vec) : Statement (.m8n8k4ColRowF16F32 d a b c) := by
  refine ⟨?_, ?_, ?_, ?_, ?_, ?_, ?_, ?_⟩ <;> rfl
theorem m8n8k4ColRowF32F16 (d a b c : Vec) : Statement (.m8n8k4ColRowF32F16 d a b c) := by
  refine ⟨?_, ?_, ?_, ?_, ?_, ?_, ?_, ?_⟩ <;> rfl
theorem m8n8k4ColRowF32F32 (d a b c : Vec) : Statement (.m8n8k4ColRowF32F32 d a b c) := by
  refine ⟨?_, ?_, ?_, ?_, ?_, ?_, ?_, ?_⟩ <;> rfl
theorem m8n8k4ColColF16F16 (d a b c : Vec) : Statement (.m8n8k4ColColF16F16 d a b c) := by
  refine ⟨?_, ?_, ?_, ?_, ?_, ?_, ?_, ?_⟩ <;> rfl
theorem m8n8k4ColColF16F32 (d a b c : Vec) : Statement (.m8n8k4ColColF16F32 d a b c) := by
  refine ⟨?_, ?_, ?_, ?_, ?_, ?_, ?_, ?_⟩ <;> rfl
theorem m8n8k4ColColF32F16 (d a b c : Vec) : Statement (.m8n8k4ColColF32F16 d a b c) := by
  refine ⟨?_, ?_, ?_, ?_, ?_, ?_, ?_, ?_⟩ <;> rfl
theorem m8n8k4ColColF32F32 (d a b c : Vec) : Statement (.m8n8k4ColColF32F32 d a b c) := by
  refine ⟨?_, ?_, ?_, ?_, ?_, ?_, ?_, ?_⟩ <;> rfl
theorem m8n8k4F64 (d a b c : Vec) : Statement (.m8n8k4F64 d a b c) := by
  refine ⟨?_, ?_, ?_, ?_, ?_, ?_, ?_, ?_⟩ <;> rfl
theorem m8n8k16S8S8 (d a b c : Vec) : Statement (.m8n8k16S8S8 d a b c) := by
  refine ⟨?_, ?_, ?_, ?_, ?_, ?_, ?_, ?_⟩ <;> rfl
theorem m8n8k16SatfiniteS8S8 (d a b c : Vec) : Statement (.m8n8k16SatfiniteS8S8 d a b c) := by
  refine ⟨?_, ?_, ?_, ?_, ?_, ?_, ?_, ?_⟩ <;> rfl
theorem m8n8k16S8U8 (d a b c : Vec) : Statement (.m8n8k16S8U8 d a b c) := by
  refine ⟨?_, ?_, ?_, ?_, ?_, ?_, ?_, ?_⟩ <;> rfl
theorem m8n8k16SatfiniteS8U8 (d a b c : Vec) : Statement (.m8n8k16SatfiniteS8U8 d a b c) := by
  refine ⟨?_, ?_, ?_, ?_, ?_, ?_, ?_, ?_⟩ <;> rfl
theorem m8n8k16U8S8 (d a b c : Vec) : Statement (.m8n8k16U8S8 d a b c) := by
  refine ⟨?_, ?_, ?_, ?_, ?_, ?_, ?_, ?_⟩ <;> rfl
theorem m8n8k16SatfiniteU8S8 (d a b c : Vec) : Statement (.m8n8k16SatfiniteU8S8 d a b c) := by
  refine ⟨?_, ?_, ?_, ?_, ?_, ?_, ?_, ?_⟩ <;> rfl
theorem m8n8k16U8U8 (d a b c : Vec) : Statement (.m8n8k16U8U8 d a b c) := by
  refine ⟨?_, ?_, ?_, ?_, ?_, ?_, ?_, ?_⟩ <;> rfl
theorem m8n8k16SatfiniteU8U8 (d a b c : Vec) : Statement (.m8n8k16SatfiniteU8U8 d a b c) := by
  refine ⟨?_, ?_, ?_, ?_, ?_, ?_, ?_, ?_⟩ <;> rfl
theorem m8n8k32S4S4 (d a b c : Vec) : Statement (.m8n8k32S4S4 d a b c) := by
  refine ⟨?_, ?_, ?_, ?_, ?_, ?_, ?_, ?_⟩ <;> rfl
theorem m8n8k32SatfiniteS4S4 (d a b c : Vec) : Statement (.m8n8k32SatfiniteS4S4 d a b c) := by
  refine ⟨?_, ?_, ?_, ?_, ?_, ?_, ?_, ?_⟩ <;> rfl
theorem m8n8k32S4U4 (d a b c : Vec) : Statement (.m8n8k32S4U4 d a b c) := by
  refine ⟨?_, ?_, ?_, ?_, ?_, ?_, ?_, ?_⟩ <;> rfl
theorem m8n8k32SatfiniteS4U4 (d a b c : Vec) : Statement (.m8n8k32SatfiniteS4U4 d a b c) := by
  refine ⟨?_, ?_, ?_, ?_, ?_, ?_, ?_, ?_⟩ <;> rfl
theorem m8n8k32U4S4 (d a b c : Vec) : Statement (.m8n8k32U4S4 d a b c) := by
  refine ⟨?_, ?_, ?_, ?_, ?_, ?_, ?_, ?_⟩ <;> rfl
theorem m8n8k32SatfiniteU4S4 (d a b c : Vec) : Statement (.m8n8k32SatfiniteU4S4 d a b c) := by
  refine ⟨?_, ?_, ?_, ?_, ?_, ?_, ?_, ?_⟩ <;> rfl
theorem m8n8k32U4U4 (d a b c : Vec) : Statement (.m8n8k32U4U4 d a b c) := by
  refine ⟨?_, ?_, ?_, ?_, ?_, ?_, ?_, ?_⟩ <;> rfl
theorem m8n8k32SatfiniteU4U4 (d a b c : Vec) : Statement (.m8n8k32SatfiniteU4U4 d a b c) := by
  refine ⟨?_, ?_, ?_, ?_, ?_, ?_, ?_, ?_⟩ <;> rfl
theorem ldmatrix : Statement .ldmatrix := rfl
theorem stmatrix : Statement .stmatrix := rfl
theorem movmatrix : Statement .movmatrix := rfl

end Sys2Proof.Laws.RowRoundTrip
end

