-- ==== Sys2Proof/Laws/Text.lean ====
section
/-! SUPPORT. Laws of the text functions of `Decode.lean`: splitting what was joined, trimming what has no blanks at
its ends, and reading back a vector expression (`30_encoding.md` R62). -/

namespace Sys2Proof

/-! ## Pieces -/

/-- Bytes put in front of the first piece, one after another. -/
theorem foldr_consHead (xs x : Text) (rest : List Text) :
    xs.foldr consHead (x :: rest) = (xs ++ x) :: rest := by
  induction xs with
  | nil => rfl
  | cons b bs ih => rw [List.foldr_cons, ih]; rfl

/-- Bytes that are no separator go to the first piece. -/
theorem splitAt_append {sep : Byte} {xs : Text} (h : ∀ b ∈ xs, b ≠ sep) (ys : Text) :
    splitAt sep (xs ++ ys) = xs.foldr consHead (splitAt sep ys) := by
  induction xs with
  | nil => rfl
  | cons b bs ih =>
    rw [List.cons_append, splitAt, if_neg (by simpa using h b List.mem_cons_self),
      ih fun c hc => h c (List.mem_cons_of_mem _ hc), List.foldr_cons]

/-- Splitting at a separator what was joined with the separator and a blank. -/
theorem splitAt_joinWith {v : List Text} {w : Text} (h : ∀ x ∈ w :: v, ∀ b ∈ x, b ≠ bComma) :
    splitAt bComma (joinWith [bComma, bBlank] (w :: v)) = w :: v.map (bBlank :: ·) := by
  induction v generalizing w with
  | nil =>
    have := splitAt_append (h w List.mem_cons_self) []
    rw [List.append_nil] at this
    rw [joinWith, this, splitAt, foldr_consHead, List.append_nil]
    rfl
  | cons x xs ih =>
    rw [joinWith]
    · rw [List.append_assoc, splitAt_append (h w List.mem_cons_self)]
      rw [List.cons_append, splitAt, if_pos (by rfl)]
      have hx : splitAt bComma ([bBlank] ++ joinWith [bComma, bBlank] (x :: xs)) = (bBlank :: x) :: xs.map (bBlank :: ·) := by
        rw [splitAt_append (by simp [bBlank, bComma]), ih fun y hy => h y (List.mem_cons_of_mem _ hy)]
        rfl
      rw [hx, foldr_consHead, List.append_nil]
      rfl
    · simp

/-- Inside braces nothing splits. -/
theorem splitOperands_inside {xs : Text} (h : ∀ b ∈ xs, b ≠ bOpen ∧ b ≠ bClose) (ys : Text) :
    splitOperands true (xs ++ ys) = xs.foldr consHead (splitOperands true ys) := by
  induction xs with
  | nil => rfl
  | cons b bs ih =>
    obtain ⟨h1, h2⟩ := h b List.mem_cons_self
    rw [List.cons_append, splitOperands]
    simp only [Bool.not_true, Bool.and_false, Bool.false_eq_true, if_false, beq_iff_eq, h1, h2]
    rw [ih fun c hc => h c (List.mem_cons_of_mem _ hc), List.foldr_cons]

/-! ## Blanks -/

@[simp] theorem skipBlanks_cons_of_not {b : Byte} (h : isBlank b = false) (t : Text) : skipBlanks (b :: t) = b :: t := by
  simp [skipBlanks, h]

/-- A text whose first and last byte are no blanks is its own trimming; one blank in front makes no difference. -/
theorem trim_of_ends {t : Text} {b c : Byte} (hb : isBlank b = false) (hc : isBlank c = false)
    (h1 : t.head? = some b) (h2 : t.getLast? = some c) : trim t = t ∧ trim (bBlank :: t) = t := by
  obtain ⟨u, rfl⟩ : ∃ u, t = b :: u := by
    cases t with
    | nil => simp at h1
    | cons x u => exact ⟨u, by simp at h1; rw [h1]⟩
  have hr : skipBlanks (b :: u).reverse = (b :: u).reverse := by
    have : (b :: u).reverse.head? = some c := by rw [List.head?_reverse, h2]
    cases hh : (b :: u).reverse with
    | nil => rfl
    | cons x w =>
      rw [hh] at this
      simp only [List.head?_cons, Option.some.injEq] at this
      exact skipBlanks_cons_of_not (this ▸ hc) w
  have h0 : skipBlanks (bBlank :: b :: u) = b :: u := by
    have : isBlank bBlank = true := by decide
    simp [skipBlanks, this, hb]
  constructor
  · rw [trim, skipBlanks_cons_of_not hb, hr, List.reverse_reverse]
  · rw [trim, h0, hr, List.reverse_reverse]

/-! ## Register names -/

/-- The bytes of a register name: no blank, no separator, no brace. -/
theorem RegName.byte_of_legal {r : RegName} (h : RegName.legal r = true) :
    r ≠ [] ∧ ∀ b ∈ r, isBlank b = false ∧ b ≠ bComma ∧ b ≠ bSemicolon ∧ b ≠ bOpen ∧ b ≠ bClose := by
  cases r with
  | nil => simp [RegName.legal] at h
  | cons p rest =>
    simp only [RegName.legal, Bool.and_eq_true, beq_iff_eq, List.all_eq_true] at h
    obtain ⟨⟨rfl, -⟩, hall⟩ := h
    refine ⟨by simp, fun b hb => ?_⟩
    rcases List.mem_cons.1 hb with rfl | hb
    · decide
    · have key : ∀ b : Byte, isNameByte b = true →
          isBlank b = false ∧ b ≠ bComma ∧ b ≠ bSemicolon ∧ b ≠ bOpen ∧ b ≠ bClose := by decide
      exact key b (hall b hb)

/-- A register name is its own trimming; one blank in front makes no difference. -/
theorem RegName.trim_of_legal {r : RegName} (h : RegName.legal r = true) : trim r = r ∧ trim (bBlank :: r) = r := by
  obtain ⟨hne, hb⟩ := RegName.byte_of_legal h
  exact trim_of_ends (hb _ (List.head_mem hne)).1 (hb _ (List.getLast_mem hne)).1
    (List.head?_eq_some_head hne) (List.getLast?_eq_some_getLast hne)

/-- The bytes between the braces of a vector expression of register names. -/
theorem joinWith_bytes {v : Vec} (h : ∀ r ∈ v, RegName.legal r = true) :
    ∀ b ∈ joinWith [bComma, bBlank] v, b ≠ bSemicolon ∧ b ≠ bOpen ∧ b ≠ bClose := by
  induction v with
  | nil => simp [joinWith]
  | cons x xs ih =>
    have hx : ∀ b ∈ x, b ≠ bSemicolon ∧ b ≠ bOpen ∧ b ≠ bClose := fun b hb =>
      ((RegName.byte_of_legal (h x List.mem_cons_self)).2 b hb).2.2
    have hxs := ih fun r hr => h r (List.mem_cons_of_mem _ hr)
    cases xs with
    | nil => simpa [joinWith] using hx
    | cons y ys =>
      intro b hb
      rw [joinWith] at hb
      · simp only [List.mem_append, List.mem_cons, List.not_mem_nil, or_false] at hb
        rcases hb with (hb | rfl | rfl) | hb
        · exact hx b hb
        · decide
        · decide
        · exact hxs b hb
      · simp

/-- A vector expression is read back, with or without a blank in front (R62). -/
theorem parseOperand_encodeVec {v : Vec} (hne : v ≠ []) (h : ∀ r ∈ v, RegName.legal r = true) :
    parseOperand (encodeVec v) = .regs v ∧ parseOperand (bBlank :: encodeVec v) = .regs v := by
  obtain ⟨w, ws, rfl⟩ := List.exists_cons_of_ne_nil hne
  have ends := trim_of_ends (t := encodeVec (w :: ws)) (b := bOpen) (c := bClose) (by decide) (by decide) rfl
    (by simp [encodeVec, List.getLast?_cons])
  have names : (splitAt bComma (joinWith [bComma, bBlank] (w :: ws))).map trim = w :: ws := by
    rw [splitAt_joinWith fun x hx b hb => ((RegName.byte_of_legal (h x hx)).2 b hb).2.1]
    rw [List.map_cons, (RegName.trim_of_legal (h w List.mem_cons_self)).1, List.map_map]
    congr 1
    conv_rhs => rw [← List.map_id ws]
    exact List.map_congr_left fun x hx => (RegName.trim_of_legal (h x (List.mem_cons_of_mem _ hx))).2
  have hall : (w :: ws).all RegName.legal = true := List.all_eq_true.2 h
  have body : ∀ piece, trim piece = encodeVec (w :: ws) → parseOperand piece = .regs (w :: ws) := by
    intro piece hp
    unfold parseOperand
    rw [hp]
    simp only [encodeVec]
    rw [if_pos (by simp), List.dropLast_concat, names, if_pos hall]
  exact ⟨body _ ends.1, body _ ends.2⟩

/-- A vector expression with what stands before it goes whole into one piece of the operand list. -/
theorem splitOperands_encodeVec {v : Vec} (h : ∀ r ∈ v, RegName.legal r = true) (ys : Text) :
    splitOperands false (encodeVec v ++ ys) = (encodeVec v).foldr consHead (splitOperands false ys) := by
  have inner := joinWith_bytes h
  simp only [encodeVec, List.cons_append, List.append_assoc, List.foldr_cons, List.foldr_append, List.foldr_nil,
    List.nil_append]
  rw [splitOperands]
  simp only [show (bOpen == bComma && !false) = false by decide, Bool.false_eq_true, if_false,
    show (bOpen == bOpen) = true by decide, if_true]
  rw [splitOperands_inside (fun b hb => (inner b hb).2), splitOperands]
  simp [show (bClose == bOpen) = false by decide]

/-- The four operands of a statement, as `encode` writes them, are read back (R62). -/
theorem operands_encode {d a b c : Vec} (hd : d ≠ [] ∧ ∀ r ∈ d, RegName.legal r = true)
    (ha : a ≠ [] ∧ ∀ r ∈ a, RegName.legal r = true) (hb : b ≠ [] ∧ ∀ r ∈ b, RegName.legal r = true)
    (hc : c ≠ [] ∧ ∀ r ∈ c, RegName.legal r = true) :
    (splitOperands false
        (bBlank :: joinWith [bComma, bBlank] [encodeVec d, encodeVec a, encodeVec b, encodeVec c])).map parseOperand =
      [.regs d, .regs a, .regs b, .regs c] := by
  have blank : ∀ t, splitOperands false (bBlank :: t) = consHead bBlank (splitOperands false t) := fun t => by
    rw [splitOperands]; rfl
  have comma : ∀ t, splitOperands false (bComma :: t) = [] :: splitOperands false t := fun t => by
    rw [splitOperands]; rfl
  have one : ∀ {v : Vec} {t : Text} {rest : List Text}, (∀ r ∈ v, RegName.legal r = true) →
      splitOperands false t = [] :: rest →
      splitOperands false (bBlank :: (encodeVec v ++ t)) = (bBlank :: encodeVec v) :: rest := by
    intro v t rest hv ht
    rw [blank, splitOperands_encodeVec hv, ht, foldr_consHead, List.append_nil]
    rfl
  have last : splitOperands false (bBlank :: encodeVec c) = [bBlank :: encodeVec c] := by
    have := one (t := []) (rest := []) hc.2 rfl
    rwa [List.append_nil] at this
  have : splitOperands false
      (bBlank :: joinWith [bComma, bBlank] [encodeVec d, encodeVec a, encodeVec b, encodeVec c]) =
      [bBlank :: encodeVec d, bBlank :: encodeVec a, bBlank :: encodeVec b, bBlank :: encodeVec c] := by
    simp only [joinWith, List.append_assoc, List.cons_append, List.nil_append]
    rw [one hd.2 (comma _), one ha.2 (comma _), one hb.2 (comma _), last]
  rw [this]
  simp only [List.map_cons, List.map_nil, (parseOperand_encodeVec hd.1 hd.2).2, (parseOperand_encodeVec ha.1 ha.2).2,
    (parseOperand_encodeVec hb.1 hb.2).2, (parseOperand_encodeVec hc.1 hc.2).2]

end Sys2Proof
end

