-- ==== Sys2Proof/Tests/Slice0.lean ====
section
/-! SUPPORT. The model's own tests: one refused term for each check, one spelled statement for each constructor, one
cell of one step for each instruction, the fault and the stuck state, and a state that meets the hypotheses of each
statement that has some. Expected values are those of spec/: its mnemonics (`opcode_table.json`), its recovered
figures (`41_mma_m8n8k4_f16.md` section 5, `42_mma_m8n8k4_f64.md` section 4) and its vectors (`95_test_vectors.md`). -/

set_option Elab.async false

namespace Sys2Proof.Machine.Tests

/-! ## Names, declarations, states -/

/-- The register `%` followed by a letter and a digit. -/
def reg (x : Char) (n : Nat) : RegName := txt ['%', x] ++ [BitVec.ofNat 8 (48 + n)]

/-- The first `n` registers of a letter. -/
def regs (x : Char) (n : Nat) : Vec := (List.range n).map (reg x)

/-- Declarations of `regs x n`. -/
def declare (x : Char) (n : Nat) (ty : RegType) : List Decl := (regs x n).map (fun r => (r, ty))

/-- Registers for the integer forms: `%a0`, `%b0` (numbers 0, 1), `%c0`, `%c1` (2, 3), `%d0`, `%d1` (4, 5). -/
def declsInt : List Decl := declare 'a' 1 .b32 ++ declare 'b' 1 .b32 ++ declare 'c' 2 .s32 ++ declare 'd' 2 .s32

/-- Registers for the `.f64` form, with the same numbers. -/
def declsF64 : List Decl := declare 'a' 1 .f64 ++ declare 'b' 1 .f64 ++ declare 'c' 2 .f64 ++ declare 'd' 2 .f64

/-- Registers for the `.f16` forms: `%a0`, `%a1` (0, 1), `%b0`, `%b1` (2, 3), accumulators of `.f16x2` `%c0` to `%c3`
(4 to 7) and `%d0` to `%d3` (8 to 11), of `.f32` `%f0` to `%f7` (12 to 19) and `%g0` to `%g7` (20 to 27). -/
def declsF16 : List Decl :=
  declare 'a' 2 .f16x2 ++ declare 'b' 2 .f16x2 ++ declare 'c' 4 .f16x2 ++ declare 'd' 4 .f16x2 ++
    declare 'f' 8 .f32 ++ declare 'g' 8 .f32

/-- A warp at statement 0 of a program, with the registers of each lane. -/
def warp (ds : List Decl) (program : List Text) (rf : Lane → RegFile) : State :=
  ⟨⟨Params.default, ds, program⟩, Vector.ofFn (fun l => ⟨rf l, 0, .running⟩)⟩

/-- A register of a lane after an outcome that goes on. -/
def after (x : Host.Outcome State Fault Refusal) (l : Lane) (r : RegName) : Option Value :=
  match x with
  | .next t => t.readReg l r
  | _ => none

/-! ## Text -/

/-- The operands of each kind of form, spelled out (R62). -/
def spelled (ops : List (Char × Nat)) : Text :=
  [32] ++ joinWith [44, 32] (ops.map (fun x => [123] ++ joinWith [44, 32] (regs x.1 x.2) ++ [125])) ++ [59]

theorem test_decode_m8n8k4RowRowF16F16 : decode Params.default declsF16 (txt ['m', 'm', 'a', '.', 's', 'y', 'n',
      'c', '.', 'a', 'l', 'i', 'g', 'n', 'e', 'd', '.', 'm', '8', 'n', '8', 'k', '4', '.', 'r', 'o', 'w', '.', 'r',
      'o', 'w', '.', 'f', '1', '6', '.', 'f', '1', '6', '.', 'f', '1', '6', '.', 'f', '1', '6'] ++ spelled [('d',
      4), ('a', 2), ('b', 2), ('c', 4)]) = .ok (.m8n8k4RowRowF16F16 (regs 'd' 4) (regs 'a' 2) (regs 'b' 2) (regs 'c'
      4)) := by decide +kernel

theorem test_decode_m8n8k4RowRowF16F32 : decode Params.default declsF16 (txt ['m', 'm', 'a', '.', 's', 'y', 'n',
      'c', '.', 'a', 'l', 'i', 'g', 'n', 'e', 'd', '.', 'm', '8', 'n', '8', 'k', '4', '.', 'r', 'o', 'w', '.', 'r',
      'o', 'w', '.', 'f', '1', '6', '.', 'f', '1', '6', '.', 'f', '1', '6', '.', 'f', '3', '2'] ++ spelled [('d',
      4), ('a', 2), ('b', 2), ('f', 8)]) = .ok (.m8n8k4RowRowF16F32 (regs 'd' 4) (regs 'a' 2) (regs 'b' 2) (regs 'f'
      8)) := by decide +kernel

theorem test_decode_m8n8k4RowRowF32F16 : decode Params.default declsF16 (txt ['m', 'm', 'a', '.', 's', 'y', 'n',
      'c', '.', 'a', 'l', 'i', 'g', 'n', 'e', 'd', '.', 'm', '8', 'n', '8', 'k', '4', '.', 'r', 'o', 'w', '.', 'r',
      'o', 'w', '.', 'f', '3', '2', '.', 'f', '1', '6', '.', 'f', '1', '6', '.', 'f', '1', '6'] ++ spelled [('g',
      8), ('a', 2), ('b', 2), ('c', 4)]) = .ok (.m8n8k4RowRowF32F16 (regs 'g' 8) (regs 'a' 2) (regs 'b' 2) (regs 'c'
      4)) := by decide +kernel

theorem test_decode_m8n8k4RowRowF32F32 : decode Params.default declsF16 (txt ['m', 'm', 'a', '.', 's', 'y', 'n',
      'c', '.', 'a', 'l', 'i', 'g', 'n', 'e', 'd', '.', 'm', '8', 'n', '8', 'k', '4', '.', 'r', 'o', 'w', '.', 'r',
      'o', 'w', '.', 'f', '3', '2', '.', 'f', '1', '6', '.', 'f', '1', '6', '.', 'f', '3', '2'] ++ spelled [('g',
      8), ('a', 2), ('b', 2), ('f', 8)]) = .ok (.m8n8k4RowRowF32F32 (regs 'g' 8) (regs 'a' 2) (regs 'b' 2) (regs 'f'
      8)) := by decide +kernel

theorem test_decode_m8n8k4RowColF16F16 : decode Params.default declsF16 (txt ['m', 'm', 'a', '.', 's', 'y', 'n',
      'c', '.', 'a', 'l', 'i', 'g', 'n', 'e', 'd', '.', 'm', '8', 'n', '8', 'k', '4', '.', 'r', 'o', 'w', '.', 'c',
      'o', 'l', '.', 'f', '1', '6', '.', 'f', '1', '6', '.', 'f', '1', '6', '.', 'f', '1', '6'] ++ spelled [('d',
      4), ('a', 2), ('b', 2), ('c', 4)]) = .ok (.m8n8k4RowColF16F16 (regs 'd' 4) (regs 'a' 2) (regs 'b' 2) (regs 'c'
      4)) := by decide +kernel

theorem test_decode_m8n8k4RowColF16F32 : decode Params.default declsF16 (txt ['m', 'm', 'a', '.', 's', 'y', 'n',
      'c', '.', 'a', 'l', 'i', 'g', 'n', 'e', 'd', '.', 'm', '8', 'n', '8', 'k', '4', '.', 'r', 'o', 'w', '.', 'c',
      'o', 'l', '.', 'f', '1', '6', '.', 'f', '1', '6', '.', 'f', '1', '6', '.', 'f', '3', '2'] ++ spelled [('d',
      4), ('a', 2), ('b', 2), ('f', 8)]) = .ok (.m8n8k4RowColF16F32 (regs 'd' 4) (regs 'a' 2) (regs 'b' 2) (regs 'f'
      8)) := by decide +kernel

theorem test_decode_m8n8k4RowColF32F16 : decode Params.default declsF16 (txt ['m', 'm', 'a', '.', 's', 'y', 'n',
      'c', '.', 'a', 'l', 'i', 'g', 'n', 'e', 'd', '.', 'm', '8', 'n', '8', 'k', '4', '.', 'r', 'o', 'w', '.', 'c',
      'o', 'l', '.', 'f', '3', '2', '.', 'f', '1', '6', '.', 'f', '1', '6', '.', 'f', '1', '6'] ++ spelled [('g',
      8), ('a', 2), ('b', 2), ('c', 4)]) = .ok (.m8n8k4RowColF32F16 (regs 'g' 8) (regs 'a' 2) (regs 'b' 2) (regs 'c'
      4)) := by decide +kernel

theorem test_decode_m8n8k4RowColF32F32 : decode Params.default declsF16 (txt ['m', 'm', 'a', '.', 's', 'y', 'n',
      'c', '.', 'a', 'l', 'i', 'g', 'n', 'e', 'd', '.', 'm', '8', 'n', '8', 'k', '4', '.', 'r', 'o', 'w', '.', 'c',
      'o', 'l', '.', 'f', '3', '2', '.', 'f', '1', '6', '.', 'f', '1', '6', '.', 'f', '3', '2'] ++ spelled [('g',
      8), ('a', 2), ('b', 2), ('f', 8)]) = .ok (.m8n8k4RowColF32F32 (regs 'g' 8) (regs 'a' 2) (regs 'b' 2) (regs 'f'
      8)) := by decide +kernel

theorem test_decode_m8n8k4ColRowF16F16 : decode Params.default declsF16 (txt ['m', 'm', 'a', '.', 's', 'y', 'n',
      'c', '.', 'a', 'l', 'i', 'g', 'n', 'e', 'd', '.', 'm', '8', 'n', '8', 'k', '4', '.', 'c', 'o', 'l', '.', 'r',
      'o', 'w', '.', 'f', '1', '6', '.', 'f', '1', '6', '.', 'f', '1', '6', '.', 'f', '1', '6'] ++ spelled [('d',
      4), ('a', 2), ('b', 2), ('c', 4)]) = .ok (.m8n8k4ColRowF16F16 (regs 'd' 4) (regs 'a' 2) (regs 'b' 2) (regs 'c'
      4)) := by decide +kernel

theorem test_decode_m8n8k4ColRowF16F32 : decode Params.default declsF16 (txt ['m', 'm', 'a', '.', 's', 'y', 'n',
      'c', '.', 'a', 'l', 'i', 'g', 'n', 'e', 'd', '.', 'm', '8', 'n', '8', 'k', '4', '.', 'c', 'o', 'l', '.', 'r',
      'o', 'w', '.', 'f', '1', '6', '.', 'f', '1', '6', '.', 'f', '1', '6', '.', 'f', '3', '2'] ++ spelled [('d',
      4), ('a', 2), ('b', 2), ('f', 8)]) = .ok (.m8n8k4ColRowF16F32 (regs 'd' 4) (regs 'a' 2) (regs 'b' 2) (regs 'f'
      8)) := by decide +kernel

theorem test_decode_m8n8k4ColRowF32F16 : decode Params.default declsF16 (txt ['m', 'm', 'a', '.', 's', 'y', 'n',
      'c', '.', 'a', 'l', 'i', 'g', 'n', 'e', 'd', '.', 'm', '8', 'n', '8', 'k', '4', '.', 'c', 'o', 'l', '.', 'r',
      'o', 'w', '.', 'f', '3', '2', '.', 'f', '1', '6', '.', 'f', '1', '6', '.', 'f', '1', '6'] ++ spelled [('g',
      8), ('a', 2), ('b', 2), ('c', 4)]) = .ok (.m8n8k4ColRowF32F16 (regs 'g' 8) (regs 'a' 2) (regs 'b' 2) (regs 'c'
      4)) := by decide +kernel

theorem test_decode_m8n8k4ColRowF32F32 : decode Params.default declsF16 (txt ['m', 'm', 'a', '.', 's', 'y', 'n',
      'c', '.', 'a', 'l', 'i', 'g', 'n', 'e', 'd', '.', 'm', '8', 'n', '8', 'k', '4', '.', 'c', 'o', 'l', '.', 'r',
      'o', 'w', '.', 'f', '3', '2', '.', 'f', '1', '6', '.', 'f', '1', '6', '.', 'f', '3', '2'] ++ spelled [('g',
      8), ('a', 2), ('b', 2), ('f', 8)]) = .ok (.m8n8k4ColRowF32F32 (regs 'g' 8) (regs 'a' 2) (regs 'b' 2) (regs 'f'
      8)) := by decide +kernel

theorem test_decode_m8n8k4ColColF16F16 : decode Params.default declsF16 (txt ['m', 'm', 'a', '.', 's', 'y', 'n',
      'c', '.', 'a', 'l', 'i', 'g', 'n', 'e', 'd', '.', 'm', '8', 'n', '8', 'k', '4', '.', 'c', 'o', 'l', '.', 'c',
      'o', 'l', '.', 'f', '1', '6', '.', 'f', '1', '6', '.', 'f', '1', '6', '.', 'f', '1', '6'] ++ spelled [('d',
      4), ('a', 2), ('b', 2), ('c', 4)]) = .ok (.m8n8k4ColColF16F16 (regs 'd' 4) (regs 'a' 2) (regs 'b' 2) (regs 'c'
      4)) := by decide +kernel

theorem test_decode_m8n8k4ColColF16F32 : decode Params.default declsF16 (txt ['m', 'm', 'a', '.', 's', 'y', 'n',
      'c', '.', 'a', 'l', 'i', 'g', 'n', 'e', 'd', '.', 'm', '8', 'n', '8', 'k', '4', '.', 'c', 'o', 'l', '.', 'c',
      'o', 'l', '.', 'f', '1', '6', '.', 'f', '1', '6', '.', 'f', '1', '6', '.', 'f', '3', '2'] ++ spelled [('d',
      4), ('a', 2), ('b', 2), ('f', 8)]) = .ok (.m8n8k4ColColF16F32 (regs 'd' 4) (regs 'a' 2) (regs 'b' 2) (regs 'f'
      8)) := by decide +kernel

theorem test_decode_m8n8k4ColColF32F16 : decode Params.default declsF16 (txt ['m', 'm', 'a', '.', 's', 'y', 'n',
      'c', '.', 'a', 'l', 'i', 'g', 'n', 'e', 'd', '.', 'm', '8', 'n', '8', 'k', '4', '.', 'c', 'o', 'l', '.', 'c',
      'o', 'l', '.', 'f', '3', '2', '.', 'f', '1', '6', '.', 'f', '1', '6', '.', 'f', '1', '6'] ++ spelled [('g',
      8), ('a', 2), ('b', 2), ('c', 4)]) = .ok (.m8n8k4ColColF32F16 (regs 'g' 8) (regs 'a' 2) (regs 'b' 2) (regs 'c'
      4)) := by decide +kernel

theorem test_decode_m8n8k4ColColF32F32 : decode Params.default declsF16 (txt ['m', 'm', 'a', '.', 's', 'y', 'n',
      'c', '.', 'a', 'l', 'i', 'g', 'n', 'e', 'd', '.', 'm', '8', 'n', '8', 'k', '4', '.', 'c', 'o', 'l', '.', 'c',
      'o', 'l', '.', 'f', '3', '2', '.', 'f', '1', '6', '.', 'f', '1', '6', '.', 'f', '3', '2'] ++ spelled [('g',
      8), ('a', 2), ('b', 2), ('f', 8)]) = .ok (.m8n8k4ColColF32F32 (regs 'g' 8) (regs 'a' 2) (regs 'b' 2) (regs 'f'
      8)) := by decide +kernel

theorem test_decode_m8n8k4F64 : decode Params.default declsF64 (txt ['m', 'm', 'a', '.', 's', 'y', 'n', 'c', '.',
      'a', 'l', 'i', 'g', 'n', 'e', 'd', '.', 'm', '8', 'n', '8', 'k', '4', '.', 'r', 'o', 'w', '.', 'c', 'o', 'l',
      '.', 'f', '6', '4', '.', 'f', '6', '4', '.', 'f', '6', '4', '.', 'f', '6', '4'] ++ spelled [('d', 2), ('a',
      1), ('b', 1), ('c', 2)]) = .ok (.m8n8k4F64 (regs 'd' 2) (regs 'a' 1) (regs 'b' 1) (regs 'c' 2)) := by
  decide +kernel

theorem test_decode_m8n8k16S8S8 : decode Params.default declsInt (txt ['m', 'm', 'a', '.', 's', 'y', 'n', 'c', '.',
      'a', 'l', 'i', 'g', 'n', 'e', 'd', '.', 'm', '8', 'n', '8', 'k', '1', '6', '.', 'r', 'o', 'w', '.', 'c', 'o',
      'l', '.', 's', '3', '2', '.', 's', '8', '.', 's', '8', '.', 's', '3', '2'] ++ spelled [('d', 2), ('a', 1),
      ('b', 1), ('c', 2)]) = .ok (.m8n8k16S8S8 (regs 'd' 2) (regs 'a' 1) (regs 'b' 1) (regs 'c' 2)) := by
  decide +kernel

theorem test_decode_m8n8k16SatfiniteS8S8 : decode Params.default declsInt (txt ['m', 'm', 'a', '.', 's', 'y', 'n',
      'c', '.', 'a', 'l', 'i', 'g', 'n', 'e', 'd', '.', 'm', '8', 'n', '8', 'k', '1', '6', '.', 'r', 'o', 'w', '.',
      'c', 'o', 'l', '.', 's', 'a', 't', 'f', 'i', 'n', 'i', 't', 'e', '.', 's', '3', '2', '.', 's', '8', '.', 's',
      '8', '.', 's', '3', '2'] ++ spelled [('d', 2), ('a', 1), ('b', 1), ('c', 2)]) = .ok (.m8n8k16SatfiniteS8S8
      (regs 'd' 2) (regs 'a' 1) (regs 'b' 1) (regs 'c' 2)) := by decide +kernel

theorem test_decode_m8n8k16S8U8 : decode Params.default declsInt (txt ['m', 'm', 'a', '.', 's', 'y', 'n', 'c', '.',
      'a', 'l', 'i', 'g', 'n', 'e', 'd', '.', 'm', '8', 'n', '8', 'k', '1', '6', '.', 'r', 'o', 'w', '.', 'c', 'o',
      'l', '.', 's', '3', '2', '.', 's', '8', '.', 'u', '8', '.', 's', '3', '2'] ++ spelled [('d', 2), ('a', 1),
      ('b', 1), ('c', 2)]) = .ok (.m8n8k16S8U8 (regs 'd' 2) (regs 'a' 1) (regs 'b' 1) (regs 'c' 2)) := by
  decide +kernel

theorem test_decode_m8n8k16SatfiniteS8U8 : decode Params.default declsInt (txt ['m', 'm', 'a', '.', 's', 'y', 'n',
      'c', '.', 'a', 'l', 'i', 'g', 'n', 'e', 'd', '.', 'm', '8', 'n', '8', 'k', '1', '6', '.', 'r', 'o', 'w', '.',
      'c', 'o', 'l', '.', 's', 'a', 't', 'f', 'i', 'n', 'i', 't', 'e', '.', 's', '3', '2', '.', 's', '8', '.', 'u',
      '8', '.', 's', '3', '2'] ++ spelled [('d', 2), ('a', 1), ('b', 1), ('c', 2)]) = .ok (.m8n8k16SatfiniteS8U8
      (regs 'd' 2) (regs 'a' 1) (regs 'b' 1) (regs 'c' 2)) := by decide +kernel

theorem test_decode_m8n8k16U8S8 : decode Params.default declsInt (txt ['m', 'm', 'a', '.', 's', 'y', 'n', 'c', '.',
      'a', 'l', 'i', 'g', 'n', 'e', 'd', '.', 'm', '8', 'n', '8', 'k', '1', '6', '.', 'r', 'o', 'w', '.', 'c', 'o',
      'l', '.', 's', '3', '2', '.', 'u', '8', '.', 's', '8', '.', 's', '3', '2'] ++ spelled [('d', 2), ('a', 1),
      ('b', 1), ('c', 2)]) = .ok (.m8n8k16U8S8 (regs 'd' 2) (regs 'a' 1) (regs 'b' 1) (regs 'c' 2)) := by
  decide +kernel

theorem test_decode_m8n8k16SatfiniteU8S8 : decode Params.default declsInt (txt ['m', 'm', 'a', '.', 's', 'y', 'n',
      'c', '.', 'a', 'l', 'i', 'g', 'n', 'e', 'd', '.', 'm', '8', 'n', '8', 'k', '1', '6', '.', 'r', 'o', 'w', '.',
      'c', 'o', 'l', '.', 's', 'a', 't', 'f', 'i', 'n', 'i', 't', 'e', '.', 's', '3', '2', '.', 'u', '8', '.', 's',
      '8', '.', 's', '3', '2'] ++ spelled [('d', 2), ('a', 1), ('b', 1), ('c', 2)]) = .ok (.m8n8k16SatfiniteU8S8
      (regs 'd' 2) (regs 'a' 1) (regs 'b' 1) (regs 'c' 2)) := by decide +kernel

theorem test_decode_m8n8k16U8U8 : decode Params.default declsInt (txt ['m', 'm', 'a', '.', 's', 'y', 'n', 'c', '.',
      'a', 'l', 'i', 'g', 'n', 'e', 'd', '.', 'm', '8', 'n', '8', 'k', '1', '6', '.', 'r', 'o', 'w', '.', 'c', 'o',
      'l', '.', 's', '3', '2', '.', 'u', '8', '.', 'u', '8', '.', 's', '3', '2'] ++ spelled [('d', 2), ('a', 1),
      ('b', 1), ('c', 2)]) = .ok (.m8n8k16U8U8 (regs 'd' 2) (regs 'a' 1) (regs 'b' 1) (regs 'c' 2)) := by
  decide +kernel

theorem test_decode_m8n8k16SatfiniteU8U8 : decode Params.default declsInt (txt ['m', 'm', 'a', '.', 's', 'y', 'n',
      'c', '.', 'a', 'l', 'i', 'g', 'n', 'e', 'd', '.', 'm', '8', 'n', '8', 'k', '1', '6', '.', 'r', 'o', 'w', '.',
      'c', 'o', 'l', '.', 's', 'a', 't', 'f', 'i', 'n', 'i', 't', 'e', '.', 's', '3', '2', '.', 'u', '8', '.', 'u',
      '8', '.', 's', '3', '2'] ++ spelled [('d', 2), ('a', 1), ('b', 1), ('c', 2)]) = .ok (.m8n8k16SatfiniteU8U8
      (regs 'd' 2) (regs 'a' 1) (regs 'b' 1) (regs 'c' 2)) := by decide +kernel

theorem test_decode_m8n8k32S4S4 : decode Params.default declsInt (txt ['m', 'm', 'a', '.', 's', 'y', 'n', 'c', '.',
      'a', 'l', 'i', 'g', 'n', 'e', 'd', '.', 'm', '8', 'n', '8', 'k', '3', '2', '.', 'r', 'o', 'w', '.', 'c', 'o',
      'l', '.', 's', '3', '2', '.', 's', '4', '.', 's', '4', '.', 's', '3', '2'] ++ spelled [('d', 2), ('a', 1),
      ('b', 1), ('c', 2)]) = .ok (.m8n8k32S4S4 (regs 'd' 2) (regs 'a' 1) (regs 'b' 1) (regs 'c' 2)) := by
  decide +kernel

theorem test_decode_m8n8k32SatfiniteS4S4 : decode Params.default declsInt (txt ['m', 'm', 'a', '.', 's', 'y', 'n',
      'c', '.', 'a', 'l', 'i', 'g', 'n', 'e', 'd', '.', 'm', '8', 'n', '8', 'k', '3', '2', '.', 'r', 'o', 'w', '.',
      'c', 'o', 'l', '.', 's', 'a', 't', 'f', 'i', 'n', 'i', 't', 'e', '.', 's', '3', '2', '.', 's', '4', '.', 's',
      '4', '.', 's', '3', '2'] ++ spelled [('d', 2), ('a', 1), ('b', 1), ('c', 2)]) = .ok (.m8n8k32SatfiniteS4S4
      (regs 'd' 2) (regs 'a' 1) (regs 'b' 1) (regs 'c' 2)) := by decide +kernel

theorem test_decode_m8n8k32S4U4 : decode Params.default declsInt (txt ['m', 'm', 'a', '.', 's', 'y', 'n', 'c', '.',
      'a', 'l', 'i', 'g', 'n', 'e', 'd', '.', 'm', '8', 'n', '8', 'k', '3', '2', '.', 'r', 'o', 'w', '.', 'c', 'o',
      'l', '.', 's', '3', '2', '.', 's', '4', '.', 'u', '4', '.', 's', '3', '2'] ++ spelled [('d', 2), ('a', 1),
      ('b', 1), ('c', 2)]) = .ok (.m8n8k32S4U4 (regs 'd' 2) (regs 'a' 1) (regs 'b' 1) (regs 'c' 2)) := by
  decide +kernel

theorem test_decode_m8n8k32SatfiniteS4U4 : decode Params.default declsInt (txt ['m', 'm', 'a', '.', 's', 'y', 'n',
      'c', '.', 'a', 'l', 'i', 'g', 'n', 'e', 'd', '.', 'm', '8', 'n', '8', 'k', '3', '2', '.', 'r', 'o', 'w', '.',
      'c', 'o', 'l', '.', 's', 'a', 't', 'f', 'i', 'n', 'i', 't', 'e', '.', 's', '3', '2', '.', 's', '4', '.', 'u',
      '4', '.', 's', '3', '2'] ++ spelled [('d', 2), ('a', 1), ('b', 1), ('c', 2)]) = .ok (.m8n8k32SatfiniteS4U4
      (regs 'd' 2) (regs 'a' 1) (regs 'b' 1) (regs 'c' 2)) := by decide +kernel

theorem test_decode_m8n8k32U4S4 : decode Params.default declsInt (txt ['m', 'm', 'a', '.', 's', 'y', 'n', 'c', '.',
      'a', 'l', 'i', 'g', 'n', 'e', 'd', '.', 'm', '8', 'n', '8', 'k', '3', '2', '.', 'r', 'o', 'w', '.', 'c', 'o',
      'l', '.', 's', '3', '2', '.', 'u', '4', '.', 's', '4', '.', 's', '3', '2'] ++ spelled [('d', 2), ('a', 1),
      ('b', 1), ('c', 2)]) = .ok (.m8n8k32U4S4 (regs 'd' 2) (regs 'a' 1) (regs 'b' 1) (regs 'c' 2)) := by
  decide +kernel

theorem test_decode_m8n8k32SatfiniteU4S4 : decode Params.default declsInt (txt ['m', 'm', 'a', '.', 's', 'y', 'n',
      'c', '.', 'a', 'l', 'i', 'g', 'n', 'e', 'd', '.', 'm', '8', 'n', '8', 'k', '3', '2', '.', 'r', 'o', 'w', '.',
      'c', 'o', 'l', '.', 's', 'a', 't', 'f', 'i', 'n', 'i', 't', 'e', '.', 's', '3', '2', '.', 'u', '4', '.', 's',
      '4', '.', 's', '3', '2'] ++ spelled [('d', 2), ('a', 1), ('b', 1), ('c', 2)]) = .ok (.m8n8k32SatfiniteU4S4
      (regs 'd' 2) (regs 'a' 1) (regs 'b' 1) (regs 'c' 2)) := by decide +kernel

theorem test_decode_m8n8k32U4U4 : decode Params.default declsInt (txt ['m', 'm', 'a', '.', 's', 'y', 'n', 'c', '.',
      'a', 'l', 'i', 'g', 'n', 'e', 'd', '.', 'm', '8', 'n', '8', 'k', '3', '2', '.', 'r', 'o', 'w', '.', 'c', 'o',
      'l', '.', 's', '3', '2', '.', 'u', '4', '.', 'u', '4', '.', 's', '3', '2'] ++ spelled [('d', 2), ('a', 1),
      ('b', 1), ('c', 2)]) = .ok (.m8n8k32U4U4 (regs 'd' 2) (regs 'a' 1) (regs 'b' 1) (regs 'c' 2)) := by
  decide +kernel

theorem test_decode_m8n8k32SatfiniteU4U4 : decode Params.default declsInt (txt ['m', 'm', 'a', '.', 's', 'y', 'n',
      'c', '.', 'a', 'l', 'i', 'g', 'n', 'e', 'd', '.', 'm', '8', 'n', '8', 'k', '3', '2', '.', 'r', 'o', 'w', '.',
      'c', 'o', 'l', '.', 's', 'a', 't', 'f', 'i', 'n', 'i', 't', 'e', '.', 's', '3', '2', '.', 'u', '4', '.', 'u',
      '4', '.', 's', '3', '2'] ++ spelled [('d', 2), ('a', 1), ('b', 1), ('c', 2)]) = .ok (.m8n8k32SatfiniteU4U4
      (regs 'd' 2) (regs 'a' 1) (regs 'b' 1) (regs 'c' 2)) := by decide +kernel

theorem test_decode_ldmatrix : decode Params.default [] (txt ['l', 'd', 'm', 'a', 't', 'r', 'i', 'x'] ++ [59]) = .ok
      .ldmatrix := by decide +kernel

theorem test_decode_stmatrix : decode Params.default [] (txt ['s', 't', 'm', 'a', 't', 'r', 'i', 'x'] ++ [59]) = .ok
      .stmatrix := by decide +kernel

theorem test_decode_movmatrix : decode Params.default [] (txt ['m', 'o', 'v', 'm', 'a', 't', 'r', 'i', 'x'] ++ [59])
      = .ok .movmatrix := by decide +kernel

/-! ## Well-formedness: each check with a term it refuses -/

/-- An admitted term, the reference statement of `95_test_vectors.md` section 3.7. -/
def good : MmaTerm := (⟨.m8n8k16, .row, .col, false, .s32, .s8, .s8, .s32⟩ : Quals).term ⟨regs 'd' 2, regs 'a' 1, regs 'b' 1, regs 'c' 2⟩

/-- An admitted term of the `.f16` family, with accumulators of different types. -/
def goodF16 : MmaTerm :=
  (⟨.m8n8k4, .col, .row, false, .f32, .f16, .f16, .f16⟩ : Quals).term ⟨regs 'g' 8, regs 'a' 2, regs 'b' 2, regs 'c' 4⟩

theorem test_admits_good : good.check Params.default declsInt = none := by decide +kernel
theorem test_admits_good_f16 : goodF16.check Params.default declsF16 = none := by decide +kernel
theorem test_refuses_missing_sync : ({ good with sync := false }).check Params.default declsInt = some .qualifiers := by
  decide +kernel
theorem test_refuses_missing_aligned :
    ({ good with aligned := false }).check Params.default declsInt = some .qualifiers := by decide +kernel
theorem test_refuses_unknown_shape :
    ({ good with shape := .other [109] }).check Params.default declsInt = some (.shapeKnown [109]) := by decide +kernel
theorem test_refuses_types_of_another_shape :
    ({ good with atype := .s4, btype := .s4 }).check Params.default declsInt = some .typeCombo := by decide +kernel
theorem test_refuses_surplus_qualifier :
    ({ good with extraQualifier := true }).check Params.default declsInt = some .typeCombo := by decide +kernel
theorem test_refuses_mixed_accumulators :
    goodF16.check { Params.default with admitMixedCd := false } declsF16 = some .mixedCd := by decide +kernel
theorem test_refuses_mixed_sign :
    ({ good with btype := .u8 }).check { Params.default with admitMixedSign := false } declsInt = some .mixedSign := by
  decide +kernel
theorem test_refuses_layout :
    ({ good with alayout := some .col }).check Params.default declsInt = some .layout := by decide +kernel
theorem test_refuses_satfinite_on_floats :
    ({ goodF16 with satfinite := true }).check Params.default declsF16 = some .satfinite := by decide +kernel
theorem test_refuses_short_destination :
    ({ good with d := .regs (regs 'd' 1) }).check Params.default declsInt = some (.operandShape .d) := by decide +kernel
theorem test_refuses_immediate :
    ({ good with c := .other [48] }).check Params.default declsInt = some (.operandShape .c) := by decide +kernel
theorem test_refuses_mistyped_register :
    ({ good with a := .regs (regs 'x' 1) }).check Params.default (declsInt ++ declare 'x' 1 .f64) =
      some (.operandType (reg 'x' 0)) := by decide +kernel
theorem test_refuses_lane_number_as_operand :
    ({ good with a := .regs [laneidName] }).check Params.default ((laneidName, .b32) :: declsInt) =
      some (.operandType laneidName) := by decide +kernel
theorem test_admits_untyped_bits :
    ({ good with c := .regs (regs 'x' 2) }).check Params.default (declsInt ++ declare 'x' 2 .b32) = none := by
  decide +kernel
theorem test_refuses_untyped_bits_where_not_admitted :
    ({ good with c := .regs (regs 'x' 2) }).check { Params.default with admitUntyped := false }
      (declsInt ++ declare 'x' 2 .b32) = some (.operandType (reg 'x' 0)) := by decide +kernel
theorem test_refuses_repeated_destination :
    ({ good with d := .regs [reg 'd' 0, reg 'd' 0] }).check Params.default declsInt =
      some (.destDistinct (reg 'd' 0)) := by decide +kernel
theorem test_refuses_guard : ({ good with guarded := true }).check Params.default declsInt = some .noGuard := by
  decide +kernel
theorem test_reports_the_first_check :
    ({ good with aligned := false, shape := .other [], d := .regs [reg 'd' 0, reg 'd' 0] }).check Params.default
      declsInt = some .qualifiers := by decide +kernel
theorem test_named_not_well_formed : Instr.ldmatrix.wellFormed Params.default [] = false := by decide
theorem test_refuses_unknown_opcode :
    decode Params.default declsInt (txt ['a', 'd', 'd', '.', 's', '3', '2', ' ', '%', 'c', '0', ';']) =
      .error (.unknownOpcode (txt ['a', 'd', 'd'])) := by decide +kernel

/-! ## Integer cells

Vectors K1 (lane 13, `d[1]`) and Q1 (lane 14, `d[0]`) of `95_test_vectors.md`: only the registers the cell is made of
hold other values than 0. Vectors K2 and Q2 where K1 or Q1 does not tell two forms apart, O1, O4 and O8 to O10 for
overflow: every lane has the same registers. -/

/-- A word of a short table of lanes. -/
def pick (first : Nat) (table : List (BitVec 32)) (l : Lane) : BitVec 32 :=
  if first ≤ l.val then table.getD (l.val - first) 0 else 0

def intState (a b c0 c1 : Lane → BitVec 32) : State :=
  warp declsInt [] (fun l => [(0, .w32 (a l)), (1, .w32 (b l)), (2, .w32 (c0 l)), (3, .w32 (c1 l))])

def uniform (a b c : BitVec 32) : State := intState (fun _ => a) (fun _ => b) (fun _ => c) (fun _ => c)

def k1 : State :=
  intState (pick 12 [0x00010203, 0xFCFDFEFF, 0xF8F9FAFB, 0xF4F5F6F7])
    (pick 12 [0x02FF01FE, 0xFF01FE00, 0x01FE0002, 0xFE0002FF]) (fun _ => 0) (pick 13 [0x12F])

def q1 : State :=
  intState (pick 12 [0x210FEDCB, 0xA9876543, 0x210FEDCB, 0xA9876543])
    (pick 16 [0x1EB852FC, 0x9630DA74, 0x1EB852FC, 0x9630DA74]) (pick 14 [0xFFFFFC3A]) (fun _ => 0)

theorem test_m8n8k16S8S8_k1 :
    after (exec (.m8n8k16S8S8 (regs 'd' 2) (regs 'a' 1) (regs 'b' 1) (regs 'c' 2)) k1) 13 (reg 'd' 1) =
      some (.w32 0x138) := by decide +kernel
theorem test_m8n8k16S8U8_k1 :
    after (exec (.m8n8k16S8U8 (regs 'd' 2) (regs 'a' 1) (regs 'b' 1) (regs 'c' 2)) k1) 13 (reg 'd' 1) =
      some (.w32 0xFFFFE338) := by decide +kernel
theorem test_m8n8k16U8S8_k1 :
    after (exec (.m8n8k16U8S8 (regs 'd' 2) (regs 'a' 1) (regs 'b' 1) (regs 'c' 2)) k1) 13 (reg 'd' 1) =
      some (.w32 0xFFFFFF38) := by decide +kernel
theorem test_m8n8k16U8U8_k1 :
    after (exec (.m8n8k16U8U8 (regs 'd' 2) (regs 'a' 1) (regs 'b' 1) (regs 'c' 2)) k1) 13 (reg 'd' 1) =
      some (.w32 0x4E138) := by decide +kernel
theorem test_m8n8k32S4S4_q1 :
    after (exec (.m8n8k32S4S4 (regs 'd' 2) (regs 'a' 1) (regs 'b' 1) (regs 'c' 2)) q1) 14 (reg 'd' 0) =
      some (.w32 0xFFFFFC1A) := by decide +kernel
theorem test_m8n8k32S4U4_q1 :
    after (exec (.m8n8k32S4U4 (regs 'd' 2) (regs 'a' 1) (regs 'b' 1) (regs 'c' 2)) q1) 14 (reg 'd' 0) =
      some (.w32 0xFFFFFB9A) := by decide +kernel
theorem test_m8n8k32U4S4_q1 :
    after (exec (.m8n8k32U4S4 (regs 'd' 2) (regs 'a' 1) (regs 'b' 1) (regs 'c' 2)) q1) 14 (reg 'd' 0) =
      some (.w32 0xFFFFFB9A) := by decide +kernel
theorem test_m8n8k32U4U4_q1 :
    after (exec (.m8n8k32U4U4 (regs 'd' 2) (regs 'a' 1) (regs 'b' 1) (regs 'c' 2)) q1) 14 (reg 'd' 0) =
      some (.w32 0x31A) := by decide +kernel
theorem test_m8n8k16SatfiniteS8U8_k2 :
    after (exec (.m8n8k16SatfiniteS8U8 (regs 'd' 2) (regs 'a' 1) (regs 'b' 1) (regs 'c' 2)) (uniform 0x80808080 0xFFFFFFFF 0)) 31 (reg 'd' 1) =
      some (.w32 0xFFF80800) := by decide +kernel
theorem test_m8n8k16SatfiniteU8S8_k2 :
    after (exec (.m8n8k16SatfiniteU8S8 (regs 'd' 2) (regs 'a' 1) (regs 'b' 1) (regs 'c' 2)) (uniform 0x80808080 0xFFFFFFFF 0)) 0 (reg 'd' 0) =
      some (.w32 0xFFFFF800) := by decide +kernel
theorem test_m8n8k16SatfiniteU8U8_k2 :
    after (exec (.m8n8k16SatfiniteU8U8 (regs 'd' 2) (regs 'a' 1) (regs 'b' 1) (regs 'c' 2)) (uniform 0x80808080 0xFFFFFFFF 0)) 7 (reg 'd' 1) =
      some (.w32 0x7F800) := by decide +kernel
theorem test_m8n8k32S4U4_q2 :
    after (exec (.m8n8k32S4U4 (regs 'd' 2) (regs 'a' 1) (regs 'b' 1) (regs 'c' 2)) (uniform 0x88888888 0xFFFFFFFF 0)) 5 (reg 'd' 0) =
      some (.w32 0xFFFFF100) := by decide +kernel
theorem test_m8n8k32U4S4_q2 :
    after (exec (.m8n8k32U4S4 (regs 'd' 2) (regs 'a' 1) (regs 'b' 1) (regs 'c' 2)) (uniform 0x88888888 0xFFFFFFFF 0)) 5 (reg 'd' 0) =
      some (.w32 0xFFFFFF00) := by decide +kernel
theorem test_m8n8k32SatfiniteS4U4_q2 :
    after (exec (.m8n8k32SatfiniteS4U4 (regs 'd' 2) (regs 'a' 1) (regs 'b' 1) (regs 'c' 2)) (uniform 0x88888888 0xFFFFFFFF 0)) 30 (reg 'd' 1) =
      some (.w32 0xFFFFF100) := by decide +kernel
theorem test_m8n8k32SatfiniteU4S4_q2 :
    after (exec (.m8n8k32SatfiniteU4S4 (regs 'd' 2) (regs 'a' 1) (regs 'b' 1) (regs 'c' 2)) (uniform 0x88888888 0xFFFFFFFF 0)) 2 (reg 'd' 1) =
      some (.w32 0xFFFFFF00) := by decide +kernel
theorem test_m8n8k32SatfiniteU4U4_q2 :
    after (exec (.m8n8k32SatfiniteU4U4 (regs 'd' 2) (regs 'a' 1) (regs 'b' 1) (regs 'c' 2)) (uniform 0x88888888 0xFFFFFFFF 0)) 2 (reg 'd' 1) =
      some (.w32 0xF00) := by decide +kernel
theorem test_wrap_o1 :
    after (exec (.m8n8k16S8S8 (regs 'd' 2) (regs 'a' 1) (regs 'b' 1) (regs 'c' 2)) (uniform 0x01010101 0x01010101 0x7FFFFFFF)) 0 (reg 'd' 0) =
      some (.w32 0x8000000F) := by decide +kernel
theorem test_satfinite_o4 :
    after (exec (.m8n8k16SatfiniteS8S8 (regs 'd' 2) (regs 'a' 1) (regs 'b' 1) (regs 'c' 2)) (uniform 0xFFFFFFFF 0x01010101 0x80000000)) 31 (reg 'd' 1) =
      some (.w32 0x80000000) := by decide +kernel
theorem test_satfinite_clamps_once_o8 :
    after (exec (.m8n8k16SatfiniteS8S8 (regs 'd' 2) (regs 'a' 1) (regs 'b' 1) (regs 'c' 2)) (uniform 0x01010101 0xFF01FF01 0x7FFFFFFF)) 9 (reg 'd' 1) =
      some (.w32 0x7FFFFFFF) := by decide +kernel
theorem test_satfinite_o9 :
    after (exec (.m8n8k32SatfiniteS4S4 (regs 'd' 2) (regs 'a' 1) (regs 'b' 1) (regs 'c' 2)) (uniform 0x88888888 0x88888888 0x7FFFFFFF)) 4 (reg 'd' 0) =
      some (.w32 0x7FFFFFFF) := by decide +kernel
theorem test_wrap_o10 :
    after (exec (.m8n8k32S4S4 (regs 'd' 2) (regs 'a' 1) (regs 'b' 1) (regs 'c' 2)) (uniform 0x88888888 0x77777777 0x80000000)) 4 (reg 'd' 0) =
      some (.w32 0x7FFFF900) := by decide +kernel

/-- In place (R91 (a), accepted variant A1): the sources are read before the destination is written. -/
theorem test_in_place :
    after (exec (.m8n8k16S8S8 (regs 'c' 2) (regs 'a' 1) (regs 'b' 1) (regs 'c' 2)) k1) 13 (reg 'c' 1) =
      some (.w32 0x138) := by decide +kernel

/-! ## Floating-point cells

The numeric functions cannot be evaluated, so the forms are tried with one that shows which elements reach a cell:
`a[2] + 131 * b[1] + 17161 * c`. Element `i` of lane `l` is the number `4 l + i` in A and B and `8 l + i` in C. The
cell is (5, 2) of computation 2: `d[1]`, low half, of lane 21 by the `.f16` map, `d[0]` of lane 23 by the `.f32` map.
By the figures A[5][2] is T21.a2 (row) or T22.a1 (col), B[1][2] is T5.b2 (row) or T6.b1 (col), and C[5][2] is
T21.c2 (`.f16`) or T23.c0 (`.f32`). -/

/-- Elements `n` and `n + 1` in one register. -/
def pair (n : Nat) : Value := .w32 (BitVec.ofNat 32 (n + 65536 * (n + 1)))

/-- A warp whose elements are their own numbers. -/
def numbered : State :=
  warp declsF16 [] (fun l =>
    [(0, pair (4 * l.val)), (1, pair (4 * l.val + 2)), (2, pair (4 * l.val)), (3, pair (4 * l.val + 2))] ++
      (List.range 4).map (fun j => (4 + j, pair (8 * l.val + 2 * j))) ++
      (List.range 8).map (fun j => (12 + j, .w32 (BitVec.ofNat 32 (8 * l.val + j)))))

/-- A numeric function that shows which elements it was given. -/
def probe {wc wd : Nat} (a b : Vector (BitVec 16) 4) (c : BitVec wc) : BitVec wd :=
  BitVec.ofNat wd (a[2].toNat + 131 * b[1].toNat + 17161 * c.toNat)

/-- The low 16 bits of what a register holds. -/
def low (v : Option Value) : Option (BitVec 16) := v.map (fun x => x.element 16 0)

theorem test_m8n8k4RowRowF16F16_cell :
    low (after (mmaStep (formF16F16 probe .row .row) (.m8n8k4RowRowF16F16 (regs 'd' 4) (regs 'a' 2) (regs 'b' 2) (regs 'c' 4))
      ⟨regs 'd' 4, regs 'a' 2, regs 'b' 2, regs 'c' 4⟩ numbered) 21 (reg 'd' 1)) = some 36754 := by decide +kernel
theorem test_m8n8k4RowRowF16F32_cell :
    low (after (mmaStep (formF16F32 probe .row .row) (.m8n8k4RowRowF16F32 (regs 'd' 4) (regs 'a' 2) (regs 'b' 2) (regs 'f' 8))
      ⟨regs 'd' 4, regs 'a' 2, regs 'b' 2, regs 'f' 8⟩ numbered) 21 (reg 'd' 1)) = some 14864 := by decide +kernel
theorem test_m8n8k4RowRowF32F16_cell :
    after (mmaStep (formF32F16 probe .row .row) (.m8n8k4RowRowF32F16 (regs 'g' 8) (regs 'a' 2) (regs 'b' 2) (regs 'c' 4))
      ⟨regs 'g' 8, regs 'a' 2, regs 'b' 2, regs 'c' 4⟩ numbered) 23 (reg 'g' 0) = some (.w32 2920338) := by decide +kernel
theorem test_m8n8k4RowRowF32F32_cell :
    after (mmaStep (formF32F32 probe .row .row) (.m8n8k4RowRowF32F32 (regs 'g' 8) (regs 'a' 2) (regs 'b' 2) (regs 'f' 8))
      ⟨regs 'g' 8, regs 'a' 2, regs 'b' 2, regs 'f' 8⟩ numbered) 23 (reg 'g' 0) = some (.w32 3160592) := by decide +kernel
theorem test_m8n8k4RowColF16F16_cell :
    low (after (mmaStep (formF16F16 probe .row .col) (.m8n8k4RowColF16F16 (regs 'd' 4) (regs 'a' 2) (regs 'b' 2) (regs 'c' 4))
      ⟨regs 'd' 4, regs 'a' 2, regs 'b' 2, regs 'c' 4⟩ numbered) 21 (reg 'd' 1)) = some 37147 := by decide +kernel
theorem test_m8n8k4RowColF16F32_cell :
    low (after (mmaStep (formF16F32 probe .row .col) (.m8n8k4RowColF16F32 (regs 'd' 4) (regs 'a' 2) (regs 'b' 2) (regs 'f' 8))
      ⟨regs 'd' 4, regs 'a' 2, regs 'b' 2, regs 'f' 8⟩ numbered) 21 (reg 'd' 1)) = some 15257 := by decide +kernel
theorem test_m8n8k4RowColF32F16_cell :
    after (mmaStep (formF32F16 probe .row .col) (.m8n8k4RowColF32F16 (regs 'g' 8) (regs 'a' 2) (regs 'b' 2) (regs 'c' 4))
      ⟨regs 'g' 8, regs 'a' 2, regs 'b' 2, regs 'c' 4⟩ numbered) 23 (reg 'g' 0) = some (.w32 2920731) := by decide +kernel
theorem test_m8n8k4RowColF32F32_cell :
    after (mmaStep (formF32F32 probe .row .col) (.m8n8k4RowColF32F32 (regs 'g' 8) (regs 'a' 2) (regs 'b' 2) (regs 'f' 8))
      ⟨regs 'g' 8, regs 'a' 2, regs 'b' 2, regs 'f' 8⟩ numbered) 23 (reg 'g' 0) = some (.w32 3160985) := by decide +kernel
theorem test_m8n8k4ColRowF16F16_cell :
    low (after (mmaStep (formF16F16 probe .col .row) (.m8n8k4ColRowF16F16 (regs 'd' 4) (regs 'a' 2) (regs 'b' 2) (regs 'c' 4))
      ⟨regs 'd' 4, regs 'a' 2, regs 'b' 2, regs 'c' 4⟩ numbered) 21 (reg 'd' 1)) = some 36757 := by decide +kernel
theorem test_m8n8k4ColRowF16F32_cell :
    low (after (mmaStep (formF16F32 probe .col .row) (.m8n8k4ColRowF16F32 (regs 'd' 4) (regs 'a' 2) (regs 'b' 2) (regs 'f' 8))
      ⟨regs 'd' 4, regs 'a' 2, regs 'b' 2, regs 'f' 8⟩ numbered) 21 (reg 'd' 1)) = some 14867 := by decide +kernel
theorem test_m8n8k4ColRowF32F16_cell :
    after (mmaStep (formF32F16 probe .col .row) (.m8n8k4ColRowF32F16 (regs 'g' 8) (regs 'a' 2) (regs 'b' 2) (regs 'c' 4))
      ⟨regs 'g' 8, regs 'a' 2, regs 'b' 2, regs 'c' 4⟩ numbered) 23 (reg 'g' 0) = some (.w32 2920341) := by decide +kernel
theorem test_m8n8k4ColRowF32F32_cell :
    after (mmaStep (formF32F32 probe .col .row) (.m8n8k4ColRowF32F32 (regs 'g' 8) (regs 'a' 2) (regs 'b' 2) (regs 'f' 8))
      ⟨regs 'g' 8, regs 'a' 2, regs 'b' 2, regs 'f' 8⟩ numbered) 23 (reg 'g' 0) = some (.w32 3160595) := by decide +kernel
theorem test_m8n8k4ColColF16F16_cell :
    low (after (mmaStep (formF16F16 probe .col .col) (.m8n8k4ColColF16F16 (regs 'd' 4) (regs 'a' 2) (regs 'b' 2) (regs 'c' 4))
      ⟨regs 'd' 4, regs 'a' 2, regs 'b' 2, regs 'c' 4⟩ numbered) 21 (reg 'd' 1)) = some 37150 := by decide +kernel
theorem test_m8n8k4ColColF16F32_cell :
    low (after (mmaStep (formF16F32 probe .col .col) (.m8n8k4ColColF16F32 (regs 'd' 4) (regs 'a' 2) (regs 'b' 2) (regs 'f' 8))
      ⟨regs 'd' 4, regs 'a' 2, regs 'b' 2, regs 'f' 8⟩ numbered) 21 (reg 'd' 1)) = some 15260 := by decide +kernel
theorem test_m8n8k4ColColF32F16_cell :
    after (mmaStep (formF32F16 probe .col .col) (.m8n8k4ColColF32F16 (regs 'g' 8) (regs 'a' 2) (regs 'b' 2) (regs 'c' 4))
      ⟨regs 'g' 8, regs 'a' 2, regs 'b' 2, regs 'c' 4⟩ numbered) 23 (reg 'g' 0) = some (.w32 2920734) := by decide +kernel
theorem test_m8n8k4ColColF32F32_cell :
    after (mmaStep (formF32F32 probe .col .col) (.m8n8k4ColColF32F32 (regs 'g' 8) (regs 'a' 2) (regs 'b' 2) (regs 'f' 8))
      ⟨regs 'g' 8, regs 'a' 2, regs 'b' 2, regs 'f' 8⟩ numbered) 23 (reg 'g' 0) = some (.w32 3160988) := by decide +kernel

/-- The `.f64` form, lane 14, `d[0]`, the cell (3, 4): A[3][2] is T14.a0, B[1][4] is T17.b0, C[3][4] is T14.c0 (figures
53 to 55). Every element is the number of its lane. -/
theorem test_m8n8k4F64_cell :
    after (mmaStep (formF64 (fun a b c => a[2] + 1000 * b[1] + 1000000 * c)) (.m8n8k4F64 (regs 'd' 2) (regs 'a' 1) (regs 'b' 1) (regs 'c' 2))
      ⟨regs 'd' 2, regs 'a' 1, regs 'b' 1, regs 'c' 2⟩
      (warp declsF64 [] (fun l => (List.range 4).map (fun j => (j, .w64 (BitVec.ofNat 64 l.val)))))) 14 (reg 'd' 0) =
      some (.w64 14017014) := by decide +kernel

/-! ## Fault, stuck, refusal, end (vectors F1a to F1d, S1, program P6) -/

/-- The reference instruction and its text. -/
def ref : Instr := .m8n8k16S8S8 (regs 'd' 2) (regs 'a' 1) (regs 'b' 1) (regs 'c' 2)
def refText : Text := encode ref

/-- All sources hold 0 but those left out. -/
def holding (missing : Lane → Nat → Bool) : State :=
  warp declsInt [refText] (fun l => ((List.range 4).filter (fun j => !missing l j)).map (fun j => (j, .w32 0)))

/-- The fault of an outcome: lane, register, statement, and whether the state it leaves has register `d0` of lane 0
without a value, every `pc` still 0 and every thread faulted. -/
def faultOf (x : Host.Outcome State Fault Refusal) : Option (Lane × RegName × Nat × Bool) :=
  match x with
  | .fault (.unwrittenRegister l r p s) =>
    some (l, r, p, (s.readReg 0 (reg 'd' 0)).isNone && lanes.all (fun m => s.threads[m].pc == 0 && s.threads[m].status == .faulted))
  | _ => none

theorem test_fault_f1a :
    faultOf (step (holding (fun l j => j == 3 || (l == 3 && j == 0)))) = some (0, reg 'c' 1, 0, true) := by
  decide +kernel
theorem test_fault_f1b :
    faultOf (step (holding (fun l j => l == 9 && (j == 1 || j == 2)))) = some (9, reg 'b' 0, 0, true) := by
  decide +kernel
theorem test_fault_f1c :
    faultOf (step (holding (fun l j => l == 31 && j == 3))) = some (31, reg 'c' 1, 0, true) := by decide +kernel
theorem test_unwritten_destination_f1d :
    after (step (holding (fun _ _ => false))) 31 (reg 'd' 1) = some (.w32 0) := by decide +kernel

/-- One thread stands elsewhere. -/
def apart : State := (holding (fun _ _ => false)).mapThreads (fun l t => if l = 5 then { t with pc := 1 } else t)

/-- Which outcome it is: 0 next, 1 stuck, 2 over, 3 another fault, 4 refused. -/
def kindOf (x : Host.Outcome State Fault Refusal) : Nat :=
  match x with
  | .next _ => 0
  | .fault .stuck => 1
  | .fault .runEnded => 2
  | .fault _ => 3
  | .refused _ => 4

theorem test_stuck : kindOf (step apart) = 1 ∧ kindOf (exec ref apart) = 1 := by decide +kernel
theorem test_reset_is_over : kindOf (step State.reset) = 2 := by decide +kernel

/-- The refusal of an outcome. -/
def refusalOf (x : Host.Outcome State Fault Refusal) : Option Refusal :=
  match x with
  | .refused r => some r
  | _ => none

/-- A program whose second statement is `ldmatrix` takes no step at all. -/
theorem test_refused_program :
    refusalOf (step (warp declsInt [refText, encode .ldmatrix] (fun _ => (List.range 4).map (fun j => (j, .w32 0))))) =
      some (.rejected 1 (.notDescribed .ldmatrix)) := by decide +kernel

/-- A statement loaded by its number runs at the next step, as the first after reset. -/
theorem test_loaded_statement_runs :
    let n := refText.foldr (fun b acc => b.toNat + 256 * acc) 0
    decodeTableWord (8 * refText.length) n = some ref ∧
      after (step (State.reset.withFetchWord (8 * refText.length) n)) 12 (reg 'd' 1) = some (.w32 0) := by
  decide +kernel

/-! ## Hypotheses of the statements

One theorem for each statement of `Certificates/Slice0/Obligations.lean` that has hypotheses, `met_<its name>`, each
with concrete states and operands that meet them all together; several where the statement has several clauses. -/

theorem next_of_kind {x : Host.Outcome State Fault Refusal} (h : kindOf x = 0) : ∃ t, x = .next t := by
  cases x with
  | next t => exact ⟨t, rfl⟩
  | fault f => cases f <;> simp [kindOf] at h
  | refused r => simp [kindOf] at h

/-- The reference program with every source at 0. -/
def ready : State := holding (fun _ _ => false)

theorem met_LaneIdentity : ∃ t, step ready = .next t := next_of_kind (by decide +kernel)
theorem met_LayoutMapsAreBijections : ∀ q ∈ [1, 4], 1 ≤ q ∧ q ≤ 4 ∧ ∃ l : Lane, compF16 l.val = q := by decide
theorem met_LayoutFormulasF16 : (3 : Nat) < 4 ∧ (7 : Nat) < 8 ∧ locCdF32 (31 : Lane).val 7 = (7, 7) := by decide
theorem met_LayoutFormulasOther : (1 : Nat) < 2 ∧ locAK32 (31 : Lane).val 7 = (7, 31) := by decide
theorem met_ParticipationTable : holder compF16 (partA16 .row) 4 7 3 = some (31, 3) := by decide +kernel
theorem met_HoldersOfF16Cells : holder compF16 (partA16 .row) (compF16 (21 : Lane).val) 7 3 = some (23, 3) ∧
    holder compF16 accF32 (compF16 (0 : Lane).val) 0 0 = some (0, 0) := by decide +kernel
theorem met_HoldersOfOtherCells : holder compAll ⟨8, 8, locAK32⟩ 1 7 31 = some (31, 7) ∧
    holder compAll ⟨2, 1, locCdF64⟩ 1 0 0 = some (0, 0) := by decide +kernel
theorem met_ElementPlacement : (0 : Nat) < 4 ∧ (63 : Nat) < 64 := by decide
theorem met_PackedElementsReadBack : 16 * 2 = RegType.f16x2.width ∧ 8 * 4 = RegType.b32.width ∧
    4 * 8 = RegType.b32.width ∧ 32 * 1 = RegType.s32.width ∧ 64 * 1 = RegType.f64.width := by decide
theorem met_WrapIsModularInAnyOrder :
    (0 < 4 ∧ 4 ≤ 32 ∧ (List.finRange 32).Perm (List.finRange 32)) ∧
      (0 < 8 ∧ 8 ≤ 32 ∧ (List.finRange 16).reverse.Perm (List.finRange 16)) :=
  ⟨⟨by decide, by decide, .refl _⟩, by decide, by decide, List.reverse_perm _⟩
theorem met_SatfiniteClampsOnce :
    exactSum .s8 .s8 (Vector.replicate 16 (0 : BitVec 8)) (Vector.replicate 16 0) 0x7FFFFFFF = 2147483647 ∧
      exactSum .s8 .s8 (Vector.replicate 16 (0 : BitVec 8)) (Vector.replicate 16 0) 0x80000000 = -2147483648 := by decide +kernel

/-- The operands of each kind of form, as roles. -/
theorem met_CompletesF16F16 : EnabledAt numbered 0 ∧ AllHold numbered (regs 'a' 2 ++ regs 'b' 2 ++ regs 'c' 4) ∧
    OperandsFit numbered ⟨regs 'd' 4, regs 'a' 2, regs 'b' 2, regs 'c' 4⟩
      ⟨(4, .f16x2), (2, .f16x2), (2, .f16x2), (4, .f16x2)⟩ := by decide +kernel
theorem met_CompletesF16F32 : numbered.setup.params.admitMixedCd = true ∧ EnabledAt numbered 0 ∧
    AllHold numbered (regs 'a' 2 ++ regs 'b' 2 ++ regs 'f' 8) ∧
    OperandsFit numbered ⟨regs 'd' 4, regs 'a' 2, regs 'b' 2, regs 'f' 8⟩
      ⟨(4, .f16x2), (2, .f16x2), (2, .f16x2), (8, .f32)⟩ := by decide +kernel
theorem met_CompletesF32F16 : numbered.setup.params.admitMixedCd = true ∧ EnabledAt numbered 0 ∧
    AllHold numbered (regs 'a' 2 ++ regs 'b' 2 ++ regs 'c' 4) ∧
    OperandsFit numbered ⟨regs 'g' 8, regs 'a' 2, regs 'b' 2, regs 'c' 4⟩
      ⟨(8, .f32), (2, .f16x2), (2, .f16x2), (4, .f16x2)⟩ := by decide +kernel
theorem met_CompletesF32F32 : EnabledAt numbered 0 ∧ AllHold numbered (regs 'a' 2 ++ regs 'b' 2 ++ regs 'f' 8) ∧
    OperandsFit numbered ⟨regs 'g' 8, regs 'a' 2, regs 'b' 2, regs 'f' 8⟩
      ⟨(8, .f32), (2, .f16x2), (2, .f16x2), (8, .f32)⟩ := by decide +kernel

/-- A warp for the `.f64` form. -/
def doubles : State := warp declsF64 [] (fun l => (List.range 4).map (fun j => (j, .w64 (BitVec.ofNat 64 l.val))))

theorem met_CompletesF64 : EnabledAt doubles 0 ∧ AllHold doubles (regs 'a' 1 ++ regs 'b' 1 ++ regs 'c' 2) ∧
    OperandsFit doubles ⟨regs 'd' 2, regs 'a' 1, regs 'b' 1, regs 'c' 2⟩ ⟨(2, .f64), (1, .f64), (1, .f64), (2, .f64)⟩ := by
  decide +kernel
theorem met_CompletesM8n8k16_and_M8n8k32 : k1.setup.params.admitMixedSign = true ∧ EnabledAt k1 0 ∧
    AllHold k1 (regs 'a' 1 ++ regs 'b' 1 ++ regs 'c' 2) ∧
    OperandsFit k1 ⟨regs 'd' 2, regs 'a' 1, regs 'b' 1, regs 'c' 2⟩ ⟨(2, .s32), (1, .b32), (1, .b32), (2, .s32)⟩ := by
  decide +kernel

/-- The hypotheses of the worked examples, for one pair of words. -/
def Example (va vb : BitVec 32) : Prop :=
  (uniform va vb 0).setup.params.admitMixedSign = true ∧ EnabledAt (uniform va vb 0) 0 ∧
    OperandsFit (uniform va vb 0) ⟨regs 'd' 2, regs 'a' 1, regs 'b' 1, regs 'c' 2⟩
      ⟨(2, .s32), (1, .b32), (1, .b32), (2, .s32)⟩ ∧
    ∀ l : Lane, (∀ r ∈ regs 'a' 1, (uniform va vb 0).readReg l r = some (.w32 va)) ∧
      (∀ r ∈ regs 'b' 1, (uniform va vb 0).readReg l r = some (.w32 vb)) ∧
      ∀ r ∈ regs 'c' 2, (uniform va vb 0).readReg l r = some (.w32 0)

theorem met_ExamplesM8n8k16_signed : Example 0xFFFFFFFF 0x01010101 := by unfold Example; decide +kernel
theorem met_ExamplesM8n8k16_and_M8n8k32_ones : Example 0xFFFFFFFF 0xFFFFFFFF := by unfold Example; decide +kernel
theorem met_ExamplesM8n8k32_signed : Example 0x88888888 0x88888888 := by unfold Example; decide +kernel

/-- All sources of the worked examples of the `.f16` forms: A and B all 1.0, the accumulators of both types given. -/
def ones (c f : BitVec 32) : State :=
  warp declsF16 [] (fun _ => (List.range 4).map (fun j => (j, .w32 0x3C003C00)) ++
    (List.range 4).map (fun j => (4 + j, .w32 c)) ++ (List.range 8).map (fun j => (12 + j, .w32 f)))

def onesF64 : State :=
  warp declsF64 [] (fun _ => [(0, .w64 0x3FF0000000000000), (1, .w64 0x3FF0000000000000), (2, .w64 0), (3, .w64 0)])

/-- The premise on the numeric functions is met by functions of their types (the functions themselves have no body). -/
theorem met_ExactDotExamples_property : (∃ dot, ExactF16F16 dot) ∧ (∃ dot, ExactF16F32 dot) ∧
    (∃ dot, ExactF32F16 dot) ∧ (∃ dot, ExactF32F32 dot) ∧ ∃ dot, ExactF64 dot :=
  ⟨exists_exactF16F16, exists_exactF16F32, exists_exactF32F16, exists_exactF32F32, exists_exactF64⟩
theorem met_ExactDotExamples_F16F16 : EnabledAt (ones 0 0) 0 ∧
    OperandsFit (ones 0 0) ⟨regs 'd' 4, regs 'a' 2, regs 'b' 2, regs 'c' 4⟩
      ⟨(4, .f16x2), (2, .f16x2), (2, .f16x2), (4, .f16x2)⟩ ∧
    AllEqual (ones 0 0) (regs 'a' 2 ++ regs 'b' 2) (.w32 0x3C003C00) ∧ AllEqual (ones 0 0) (regs 'c' 4) (.w32 0) := by
  decide +kernel
theorem met_ExactDotExamples_F16F32 : EnabledAt (ones 0 0x3F800000) 0 ∧
    (ones 0 0x3F800000).setup.params.admitMixedCd = true ∧
    OperandsFit (ones 0 0x3F800000) ⟨regs 'd' 4, regs 'a' 2, regs 'b' 2, regs 'f' 8⟩
      ⟨(4, .f16x2), (2, .f16x2), (2, .f16x2), (8, .f32)⟩ ∧
    AllEqual (ones 0 0x3F800000) (regs 'a' 2 ++ regs 'b' 2) (.w32 0x3C003C00) ∧
    AllEqual (ones 0 0x3F800000) (regs 'f' 8) (.w32 0x3F800000) := by decide +kernel
theorem met_ExactDotExamples_F32F16 : EnabledAt (ones 0x3C003C00 0) 0 ∧
    (ones 0x3C003C00 0).setup.params.admitMixedCd = true ∧
    OperandsFit (ones 0x3C003C00 0) ⟨regs 'g' 8, regs 'a' 2, regs 'b' 2, regs 'c' 4⟩
      ⟨(8, .f32), (2, .f16x2), (2, .f16x2), (4, .f16x2)⟩ ∧
    AllEqual (ones 0x3C003C00 0) (regs 'a' 2 ++ regs 'b' 2) (.w32 0x3C003C00) ∧
    AllEqual (ones 0x3C003C00 0) (regs 'c' 4) (.w32 0x3C003C00) := by decide +kernel
theorem met_ExactDotExamples_F32F32 :
    OperandsFit (ones 0 0) ⟨regs 'g' 8, regs 'a' 2, regs 'b' 2, regs 'f' 8⟩
      ⟨(8, .f32), (2, .f16x2), (2, .f16x2), (8, .f32)⟩ ∧ AllEqual (ones 0 0) (regs 'f' 8) (.w32 0) := by decide +kernel
theorem met_ExactDotExamples_F64 : EnabledAt onesF64 0 ∧
    OperandsFit onesF64 ⟨regs 'd' 2, regs 'a' 1, regs 'b' 1, regs 'c' 2⟩ ⟨(2, .f64), (1, .f64), (1, .f64), (2, .f64)⟩ ∧
    AllEqual onesF64 (regs 'a' 1 ++ regs 'b' 1) (.w64 0x3FF0000000000000) ∧
    AllEqual onesF64 (regs 'c' 2) (.w64 0) := by decide +kernel

/-- A program of the reference statement and `ldmatrix`. -/
def second : State :=
  warp declsInt [refText, encode .ldmatrix] (fun _ => (List.range 4).map (fun j => (j, .w32 0)))

theorem ref_admitted : StatementAdmitted second.setup refText ref := by unfold StatementAdmitted; decide +kernel
theorem met_NamedInstructionsRefused : (∀ n : NamedOnly, opcodeWord (encode n.instr) = n.text) ∧
    second.setup.program[1]? = some (encode .ldmatrix) ∧
    ∀ j < 1, ∃ u i, second.setup.program[j]? = some u ∧ StatementAdmitted second.setup u i :=
  ⟨fun n => by cases n <;> decide +kernel, rfl,
    fun j hj => ⟨refText, ref, by rw [Nat.lt_one_iff.1 hj]; rfl, ref_admitted⟩⟩
theorem met_OtherOpcodeWordsRefused :
    (∀ w ∈ [(txt ['a', 'd', 'd'], ';'), ([], ';'), (tokWmma, '.'), (tokWgmma, '.')],
      opcodeWord (w.1 ++ txt [w.2]) = w.1 ∧ w.1 ≠ tokMma ∧ w.1 ≠ NamedOnly.ldmatrix.text ∧
        w.1 ≠ NamedOnly.stmatrix.text ∧ w.1 ≠ NamedOnly.movmatrix.text) ∧
    txt ['a', 'd', 'd'] ≠ tokWmma ∧ txt ['a', 'd', 'd'] ≠ tokWgmma := by decide +kernel

/-- Both reasons occur: `wgmma` with both qualifiers has no known shape, without them it fails `qualifiers`. -/
theorem test_refuses_wgmma :
    decode Params.default [] (tokWgmma ++ [46] ++ tokSync ++ [46] ++ tokAligned ++ [46] ++ Shape.m8n8k16.text ++ [59]) =
      .error (.shapeKnown Shape.m8n8k16.text) ∧
    decode Params.default [] (tokWgmma ++ [46] ++ Shape.m8n8k16.text ++ [59]) = .error .qualifiers := by decide +kernel

/-- None of the 33 forms has these qualifiers. -/
def NoRow (t : MmaTerm) : Prop :=
  ∀ x ∈ mmaRows, ¬ (t.shape = x.1.shape ∧ t.alayout = some x.1.alayout ∧ t.blayout = some x.1.blayout ∧
    t.satfinite = x.1.satfinite ∧ t.dtype = x.1.dtype ∧ t.atype = x.1.atype ∧ t.btype = x.1.btype ∧
    t.ctype = x.1.ctype ∧ t.extraQualifier = false)

theorem met_EveryOtherMmaRefused : Params.default.admitMixedCd = true ∧ Params.default.admitMixedSign = true ∧
    ∀ t ∈ [{ good with shape := .other [] }, { good with atype := .s4 }, { good with alayout := some .col },
        { goodF16 with satfinite := true }], t.sync = true ∧ t.aligned = true ∧ NoRow t := by
  unfold NoRow; decide +kernel

/-- A warp under given parameters. -/
def under (p : Params) : State := ⟨⟨p, declsInt, []⟩, numbered.threads⟩

theorem met_MixedFormsRefusedByParameter :
    (under ⟨false, true, true⟩).setup.params.admitMixedCd = false ∧
      (under ⟨true, false, true⟩).setup.params.admitMixedSign = false := by decide +kernel

theorem ref_isMma : IsMma ref ⟨.m8n8k16, .row, .col, false, .s32, .s8, .s8, .s32⟩
    ⟨regs 'd' 2, regs 'a' 1, regs 'b' 1, regs 'c' 2⟩ := rfl
theorem met_StuckUnlessTogether :
    (ref.refusal ready.setup.params ready.setup.decls = none ∧ EnabledAt ready 0 ∧
      AllHold ready (regs 'a' 1 ++ regs 'b' 1 ++ regs 'c' 2)) ∧
    (ref.refusal apart.setup.params apart.setup.decls = none ∧ (∀ p, ¬ EnabledAt apart p) ∧
      apart.refusal = none ∧ ∃ l : Lane, apart.threads[l].status ≠ .exited) :=
  ⟨by decide +kernel, by decide +kernel, State.enabledAt_eq_none.1 (by decide +kernel), by decide +kernel⟩

/-- The state of vector F1c: register `c1` of lane 31 holds no value. -/
def gap : State := holding (fun l j => l == 31 && j == 3)

theorem met_UnwrittenSourceFaults : ref.refusal gap.setup.params gap.setup.decls = none ∧ EnabledAt gap 0 ∧
    ∃ (l : Lane) (r : RegName), r ∈ regs 'a' 1 ++ regs 'b' 1 ++ regs 'c' 2 ∧ gap.readReg l r = none := by
  refine ⟨by decide +kernel, by decide +kernel, 31, reg 'c' 1, by decide +kernel⟩

theorem fault_of_faultOf {x : Host.Outcome State Fault Refusal} {l : Lane} {r : RegName} {p : Nat} {b : Bool}
    (h : faultOf x = some (l, r, p, b)) : ∃ s, x = .fault (.unwrittenRegister l r p s) := by
  cases x with
  | fault f =>
    cases f with
    | unwrittenRegister l' r' p' s =>
      simp only [faultOf, Option.some.injEq, Prod.mk.injEq] at h
      exact ⟨s, by rw [h.1, h.2.1, h.2.2.1]⟩
    | stuck => simp [faultOf] at h
    | runEnded => simp [faultOf] at h
  | next s => simp [faultOf] at h
  | refused r => simp [faultOf] at h

theorem met_MarksPersist : (∃ s, exec ref gap = .fault (.unwrittenRegister 31 (reg 'c' 1) 0 s)) ∧
    (∃ l : Lane, ready.markFaulted.threads[l].status = .faulted) ∧
    second.refusal = some (.rejected 1 (.notDescribed .ldmatrix)) :=
  ⟨fault_of_faultOf (b := true) (by decide +kernel), ⟨0, by decide +kernel⟩, by decide +kernel⟩
theorem met_StepRunsTheDecodedInstruction : ready.refusal = none ∧ EnabledAt ready 0 ∧
    ready.setup.program[0]? = some refText ∧ decode ready.setup.params ready.setup.decls refText = .ok ref := by
  decide +kernel
theorem met_StepAdvancesEveryThreadByOne : ∃ t, step ready = .next t := met_LaneIdentity

/-- `ready` with a value in a destination register, and `numbered` with other accumulators outside computation 1. -/
def readyToo : State := ready.mapThreads (fun _ t => { t with regs := t.regs.write 4 (.w32 5) })
def numberedToo : State :=
  numbered.mapThreads (fun l t => if compF16 l.val = 1 then t else { t with regs := t.regs.write 4 (.w32 5) })

theorem met_ResultDependsOnSourcesOnly : ready ≠ readyToo ∧ ready.setup = readyToo.setup ∧
    (∀ l, ∀ r ∈ regs 'a' 1 ++ regs 'b' 1 ++ regs 'c' 2, ready.readReg l r = readyToo.readReg l r) ∧
    (∃ t, exec ref ready = .next t) ∧ ∃ t, exec ref readyToo = .next t :=
  ⟨by decide +kernel, rfl, by decide +kernel, next_of_kind (by decide +kernel), next_of_kind (by decide +kernel)⟩
theorem met_ComputationsAreIndependent :
    IsMma (.m8n8k4RowColF16F16 (regs 'd' 4) (regs 'a' 2) (regs 'b' 2) (regs 'c' 4))
      ⟨.m8n8k4, .row, .col, false, .f16, .f16, .f16, .f16⟩ ⟨regs 'd' 4, regs 'a' 2, regs 'b' 2, regs 'c' 4⟩ ∧
    numbered ≠ numberedToo ∧ numbered.setup = numberedToo.setup ∧
    (∀ m : Lane, compF16 m.val = compF16 (0 : Lane).val → ∀ r ∈ regs 'a' 2 ++ regs 'b' 2 ++ regs 'c' 4,
      numbered.readReg m r = numberedToo.readReg m r) ∧
    (∃ t, exec (.m8n8k4RowColF16F16 (regs 'd' 4) (regs 'a' 2) (regs 'b' 2) (regs 'c' 4)) numbered = .next t) ∧
    ∃ t, exec (.m8n8k4RowColF16F16 (regs 'd' 4) (regs 'a' 2) (regs 'b' 2) (regs 'c' 4)) numberedToo = .next t :=
  ⟨rfl, by decide +kernel, rfl, by decide +kernel, next_of_kind (by decide +kernel), next_of_kind (by decide +kernel)⟩
theorem met_RunsAreFinite : ∃ t, Sys2Proof.core.run 1 ready = .next t := next_of_kind (by decide +kernel)

/-- The inputs of a launch of the reference program: every source of every lane at 0. -/
def zeros : List (Lane × RegName × Value) :=
  lanes.flatMap (fun l => (regs 'a' 1 ++ regs 'b' 1 ++ regs 'c' 2).map (fun r => (l, r, .w32 0)))

theorem met_CompletedRunIsFinal : ready.setup.program ≠ [] ∧
    ∃ t, Sys2Proof.core.run ready.setup.program.length (State.launch ready.setup zeros) = .next t :=
  ⟨by decide +kernel, next_of_kind (by decide +kernel)⟩
theorem met_DecodeEncodeAgree : ref.wellFormed Params.default declsInt = true ∧ Instr.stmatrix = NamedOnly.stmatrix.instr := by
  decide +kernel
theorem met_DecoderGivesAdmittedInstructions : decode Params.default declsInt refText = .ok ref ∧
    decode Params.default [] refText = .error (.operandType (reg 'd' 0)) ∧
    decode Params.default [] [] = .error (.unknownOpcode []) := by decide +kernel
theorem met_InvariantAtLaunch :
    ∀ x ∈ zeros, ∀ ty, typeOf ready.setup.decls x.2.1 = some ty → x.2.2.width = ty.width := by
  intro x hx ty h
  have hw : ∀ x ∈ zeros, (typeOf ready.setup.decls x.2.1).all (fun ty => x.2.2.width == ty.width) = true := by
    decide +kernel
  have := hw x hx
  rw [h] at this
  simpa using this

/-- Every register file of a warp is canonical and typed, as one computation. -/
def typed (s : State) : Bool :=
  lanes.all (fun l => decide s.threads[l].regs.wf &&
    s.threads[l].regs.all (fun x => (s.setup.decls[x.1]?).any (fun d => x.2.width == d.2.width)))

theorem inv_of_typed {s : State} (h : typed s = true) (ht : Together s) : Inv s := by
  refine ⟨fun l => ?_, ht⟩
  have hl := List.all_eq_true.1 h l (List.mem_finRange l)
  simp only [Bool.and_eq_true, decide_eq_true_eq, List.all_eq_true] at hl
  refine ⟨hl.1, fun x hx => ?_⟩
  obtain ⟨d, hd, hw⟩ := Option.any_eq_true _ _ |>.1 (hl.2 x hx)
  exact ⟨d, hd, by simpa using hw⟩

theorem together_at_zero {s : State} (h : EnabledAt s 0) (hp : 0 < s.setup.program.length) : Together s :=
  ⟨0, .running, fun l => ⟨(h l).2, (h l).1⟩, fun h => by simp at h, fun _ => .inl hp⟩

theorem met_InvariantKeptByEveryStep : Inv ready ∧ ∃ t, step ready = .next t :=
  ⟨inv_of_typed (by decide +kernel) (together_at_zero (by decide +kernel) (by decide +kernel)), met_LaneIdentity⟩
theorem met_InvariantKeptByTheFault :
    Inv gap ∧ ∃ s, step gap = .fault (.unwrittenRegister 31 (reg 'c' 1) 0 s) :=
  ⟨inv_of_typed (by decide +kernel) (together_at_zero (by decide +kernel) (by decide +kernel)),
    fault_of_faultOf (b := true) (by decide +kernel)⟩

/-- A text as a number, first byte lowest. -/
def wordOf (t : Text) : Nat := t.foldr (fun b acc => b.toNat + 256 * acc) 0

theorem met_PlacedInstructionRuns :
    (decodeTableWord (8 * refText.length) (wordOf refText) = some ref ∧ ∀ n ∈ [NamedOnly.ldmatrix, .stmatrix, .movmatrix],
      ref ≠ n.instr ∧ decodeTableWord (8 * (encode n.instr).length) (wordOf (encode n.instr)) = some n.instr) ∧
    (typeOf (State.reset.withFetchWord (8 * refText.length) (wordOf refText)).setup.decls (reg 'c' 1)).isSome = true := by
  decide +kernel

end Sys2Proof.Machine.Tests
end

/-! SUPPORT. Proofs about the participation table and the layout maps of the `m8n8k4`/`.f16` family
(`41_mma_m8n8k4_f16.md` R101, R104 to R109). -/

namespace Sys2Proof.Machine

/-! ## Which lanes hold cells of a computation (R81) -/

theorem mem_slots {comp : Nat → Nat} {q n : Nat} {l : Lane} {i : Nat} :
    (l, i) ∈ slots comp q n ↔ comp (laneNumber l) = q ∧ i < n := by
  simp [slots]

/-- What the gather's search can find: an element of the fragment of a lane of the computation, placed at the cell. -/
theorem holder_eq_some {comp : Nat → Nat} {p : Part} {q r c : Nat} {l : Lane} {i : Nat}
    (h : holder comp p q r c = some (l, i)) :
    comp (laneNumber l) = q ∧ i < p.n ∧ p.loc (laneNumber l) i = (r, c) := by
  obtain ⟨hcomp, hi⟩ := mem_slots.1 (List.mem_of_find?_eq_some h)
  exact ⟨hcomp, hi, by simpa using List.find?_some h⟩

/-! ## The participation table (R101) -/

theorem compF16_eq (l : Nat) : compF16 l = (l % 16) / 4 + 1 := by
  simp [compF16, Nat.shiftRight_eq_div_pow]

/-- One row of R101's table, `q` counted from 0: four lanes of the low group and the four that lie 16 above them. -/
theorem compF16_eq_succ_iff {l q : Nat} (hl : l < 32) (hq : q < 4) :
    compF16 l = q + 1 ↔ (4 * q ≤ l ∧ l ≤ 4 * q + 3) ∨ (4 * q + 16 ≤ l ∧ l ≤ 4 * q + 19) := by
  rw [compF16_eq]
  omega

theorem hi4_eq_four_iff {l : Nat} : hi4 l = 4 ↔ 16 ≤ l := by simp [hi4]

theorem hi4_eq_zero_iff {l : Nat} : hi4 l = 0 ↔ l < 16 := by simp [hi4]

/-- The low group and the high group of each computation, lane by lane. -/
theorem groups_of_computation : ∀ q < 4,
    (lanes.filter (fun m => decide (compF16 m.val = q + 1 ∧ m.val < 16))).map Fin.val = List.range' (4 * q) 4 ∧
    (lanes.filter (fun m => decide (compF16 m.val = q + 1 ∧ 16 ≤ m.val))).map Fin.val =
      List.range' (4 * q + 16) 4 := by
  decide

theorem length_groups_of_computation (l : Lane) :
    (lanes.filter (fun m => decide (compF16 m.val = compF16 l.val ∧ m.val < 16))).length = 4 ∧
    (lanes.filter (fun m => decide (compF16 m.val = compF16 l.val ∧ 16 ≤ m.val))).length = 4 := by
  obtain ⟨hlow, hhigh⟩ := groups_of_computation (l.val % 16 / 4) (by omega)
  rw [← compF16_eq] at hlow hhigh
  exact ⟨by simpa using congrArg List.length hlow, by simpa using congrArg List.length hhigh⟩

/-- Settles O5: the rows of the table from `compF16_eq_succ_iff`, the holder's computation from what the search of
`holder` can find. -/
theorem participationTable : Obligations.ParticipationTable := by
  intro l
  have row {q : Nat} (hq : q < 4) := compF16_eq_succ_iff l.isLt hq
  refine ⟨compF16_eq l, fun p q r c i h => (holder_eq_some h).1, ?_, ?_, ?_, ?_, hi4_eq_four_iff, hi4_eq_zero_iff,
    length_groups_of_computation l⟩
  · exact (row (q := 0) (by omega)).trans (by omega)
  · exact row (q := 1) (by omega)
  · exact row (q := 2) (by omega)
  · exact (row (q := 3) (by omega)).trans (by omega)

/-! ## The layout maps (R104 to R109) -/

/-- The source's "x if %laneid < 16; x + 4 otherwise" is the maps' `x + hi4 l`. -/
theorem add_hi4 (x l : Nat) : x + hi4 l = if l < 16 then x else x + 4 := by
  by_cases h : l < 16
  · rw [hi4_eq_zero_iff.2 h, if_pos h, Nat.add_zero]
  · rw [hi4_eq_four_iff.2 (not_lt.1 h), if_neg h]

theorem hi4_eq_bit (l : Nat) : hi4 l = (decide (16 ≤ l)).toNat * 4 := by
  by_cases h : 16 ≤ l <;> simp [hi4, h]

/-- R109 bit by bit: the row and the column of the `.f32` map as numbers of three bits. -/
theorem locCdF32_eq_bits (l i : Nat) :
    locCdF32 l i =
      ((l.testBit 0).toNat + (i.testBit 1).toNat * 2 + (decide (16 ≤ l)).toNat * 4,
        (i.testBit 0).toNat + (l.testBit 1).toNat * 2 + (i.testBit 2).toNat * 4) := by
  have bit0 (n : Nat) : n &&& 1 = (n.testBit 0).toNat := by simpa using Nat.and_two_pow n 0
  have bit1 (n : Nat) : n &&& 2 = (n.testBit 1).toNat * 2 := Nat.and_two_pow n 1
  have bit2 (n : Nat) : n &&& 4 = (n.testBit 2).toNat * 4 := Nat.and_two_pow n 2
  rw [locCdF32, bit0, bit0, bit1, bit1, bit2, hi4_eq_bit, Prod.mk.injEq]
  exact ⟨rfl, by omega⟩

theorem testBit_three_bits (x y z : Bool) :
    (x.toNat + y.toNat * 2 + z.toNat * 4).testBit 0 = x ∧ (x.toNat + y.toNat * 2 + z.toNat * 4).testBit 1 = y ∧
      (x.toNat + y.toNat * 2 + z.toNat * 4).testBit 2 = z := by
  revert x y z
  decide

theorem locCdF32_row_testBit (l i : Nat) :
    (locCdF32 l i).1.testBit 0 = l.testBit 0 ∧ (locCdF32 l i).1.testBit 1 = i.testBit 1 ∧
      (locCdF32 l i).1.testBit 2 = decide (16 ≤ l) := by
  rw [locCdF32_eq_bits]
  exact testBit_three_bits _ _ _

theorem locCdF32_col_testBit (l i : Nat) :
    (locCdF32 l i).2.testBit 0 = i.testBit 0 ∧ (locCdF32 l i).2.testBit 1 = l.testBit 1 ∧
      (locCdF32 l i).2.testBit 2 = i.testBit 2 := by
  rw [locCdF32_eq_bits]
  exact testBit_three_bits _ _ _

/-- How far the cell of element `i` lies from that of element 0, the same for every lane. -/
theorem locCdF32_eq_first_add (l i : Nat) :
    locCdF32 l i = ((locCdF32 l 0).1 + (i &&& 2), (locCdF32 l 0).2 + ((i &&& 4) + (i &&& 1))) := by
  simp only [locCdF32, Nat.zero_and, Prod.mk.injEq]
  omega

/-- A thread's `.f32` accumulator cells: two rows, two pairs of columns. -/
theorem locCdF32_rows_cols (l : Nat) :
    (List.range 8).map (fun i => (locCdF32 l i).1) = [0, 0, 2, 2, 0, 0, 2, 2].map ((locCdF32 l 0).1 + ·) ∧
    (List.range 8).map (fun i => (locCdF32 l i).2) = [0, 1, 0, 1, 4, 5, 4, 5].map ((locCdF32 l 0).2 + ·) := by
  have rows : [0, 0, 2, 2, 0, 0, 2, 2] = (List.range 8).map (· &&& 2) := by decide
  have cols : [0, 1, 0, 1, 4, 5, 4, 5] = (List.range 8).map (fun i => (i &&& 4) + (i &&& 1)) := by decide
  rw [rows, cols, List.map_map, List.map_map]
  exact ⟨List.map_congr_left fun i _ => congrArg Prod.fst (locCdF32_eq_first_add l i),
    List.map_congr_left fun i _ => congrArg Prod.snd (locCdF32_eq_first_add l i)⟩

/-- Settles O7: the formulas by `add_hi4`, the bits by `locCdF32_eq_bits`, the rows and columns of a thread by the
distance of each cell from the thread's first. -/
theorem layoutFormulasF16 : Obligations.LayoutFormulasF16 := by
  intro l
  refine ⟨fun i _ => ?_, fun i _ => ?_, locCdF32_rows_cols l.val⟩
  · simp only [locARow, locACol, locBRow, locBCol, add_hi4, and_self]
  · obtain ⟨row0, row1, row2⟩ := locCdF32_row_testBit l.val i
    obtain ⟨col0, col1, col2⟩ := locCdF32_col_testBit l.val i
    refine ⟨?_, ?_, row0, row1, row2, col0, col1, col2⟩
    · rw [locCdF16, add_hi4]
    · rw [locCdF32, add_hi4]

end Sys2Proof.Machine

/-! SUPPORT. Proofs about the group of a lane and the layout maps of the `.f64`, `m8n8k16` and `m8n8k32` families
(`42_mma_m8n8k4_f64.md` R131 to R133, R136, `43_mma_m8n8k16.md` R147 to R149, `44_mma_m8n8k32.md` R167 to R169). -/

namespace Sys2Proof.Machine

/-! ## The group of a lane and its number in the group (R136) -/

theorem groupId_eq_div (l : Nat) : groupId l = l / 4 := Nat.shiftRight_eq_div_pow l 2

theorem threadInGroup_le (l : Nat) : threadInGroup l ≤ 3 := Nat.le_of_lt_succ (Nat.mod_lt l (by decide))

/-- The two quantities are quotient and remainder by 4, so they give the lane back. -/
theorem four_mul_groupId_add_threadInGroup (l : Nat) : 4 * groupId l + threadInGroup l = l := by
  rw [groupId_eq_div]
  exact Nat.div_add_mod l 4

/-- A group is four lanes in a row. -/
theorem groupId_eq_iff {l g : Nat} : groupId l = g ↔ 4 * g ≤ l ∧ l ≤ 4 * g + 3 := by
  rw [groupId_eq_div]
  omega

theorem groupId_lane_le (l : Lane) : groupId l.val ≤ 7 := by
  have split := four_mul_groupId_add_threadInGroup l.val
  have := l.isLt
  omega

/-- Settles O6: the lane split by `four_mul_groupId_add_threadInGroup`, each group by `groupId_eq_iff`. -/
theorem laneIsGroupAndThread : Obligations.LaneIsGroupAndThread := fun l =>
  ⟨groupId_eq_div l, rfl, groupId_lane_le l, threadInGroup_le l, (four_mul_groupId_add_threadInGroup l).symm,
    fun _ => groupId_eq_iff⟩

/-! ## The layout maps (R131 to R133, R147 to R149, R167 to R169) -/

/-- A of the `.f64` family, four columns wide, is walked row by row as the lane number grows. -/
theorem locAF64_row_major (l i : Nat) : 4 * (locAF64 l i).1 + (locAF64 l i).2 = l :=
  four_mul_groupId_add_threadInGroup l

/-- B of the `.f64` family is the transposed walk, column by column. -/
theorem locBF64_col_major (l i : Nat) : 4 * (locBF64 l i).2 + (locBF64 l i).1 = l :=
  four_mul_groupId_add_threadInGroup l

/-- R133 writes the element index as `i & 0x1`, R149 as `i`: the same for the two elements a thread holds. -/
theorem locCdF64_eq_locCdK16 (l : Nat) {i : Nat} (h : i < 2) : locCdF64 l i = locCdK16 l i := by
  have low_bit : i &&& 1 = i := by rw [Nat.and_one_is_mod, Nat.mod_eq_of_lt h]
  rw [locCdF64, locCdK16, low_bit]

theorem locCdK16_eq_locCdK32 (l i : Nat) : locCdK16 l i = locCdK32 l i := rfl

/-- Settles O8: each map is the source's formula with `groupId` and `threadInGroup` for its two quantities; the walks
and the agreement of the accumulator maps are the lemmas above. -/
theorem layoutFormulasOther : Obligations.LayoutFormulasOther := by
  intro l
  refine ⟨rfl, rfl, locAF64_row_major l.val 0, locBF64_col_major l.val 0, fun i _ => ?k16, fun i _ => ?k32,
    fun i hi => ?accumulators⟩
  case k16 => exact ⟨rfl, rfl⟩
  case k32 => exact ⟨rfl, rfl⟩
  case accumulators => exact ⟨rfl, rfl, rfl, locCdF64_eq_locCdK16 l.val hi, locCdK16_eq_locCdK32 l.val i⟩

end Sys2Proof.Machine

/-! SUPPORT. Proofs about the text of an instruction: the rows of the opcode table, what the parser reads from the text
that the encoder writes, and that the decoder gives the instruction back (`30_encoding.md` R55 to R62, R67). -/

namespace Sys2Proof

open Machine

/-! ## The rows of the opcode table (R66) -/

/-- The syntactic facts of `RowRoundTrip`, for every instruction. -/
theorem rowRoundTrip (i : Instr) : Laws.RowRoundTrip.Statement i :=
  match i with
  | .m8n8k4RowRowF16F16 d a b c => Laws.RowRoundTrip.m8n8k4RowRowF16F16 d a b c
  | .m8n8k4RowRowF16F32 d a b c => Laws.RowRoundTrip.m8n8k4RowRowF16F32 d a b c
  | .m8n8k4RowRowF32F16 d a b c => Laws.RowRoundTrip.m8n8k4RowRowF32F16 d a b c
  | .m8n8k4RowRowF32F32 d a b c => Laws.RowRoundTrip.m8n8k4RowRowF32F32 d a b c
  | .m8n8k4RowColF16F16 d a b c => Laws.RowRoundTrip.m8n8k4RowColF16F16 d a b c
  | .m8n8k4RowColF16F32 d a b c => Laws.RowRoundTrip.m8n8k4RowColF16F32 d a b c
  | .m8n8k4RowColF32F16 d a b c => Laws.RowRoundTrip.m8n8k4RowColF32F16 d a b c
  | .m8n8k4RowColF32F32 d a b c => Laws.RowRoundTrip.m8n8k4RowColF32F32 d a b c
  | .m8n8k4ColRowF16F16 d a b c => Laws.RowRoundTrip.m8n8k4ColRowF16F16 d a b c
  | .m8n8k4ColRowF16F32 d a b c => Laws.RowRoundTrip.m8n8k4ColRowF16F32 d a b c
  | .m8n8k4ColRowF32F16 d a b c => Laws.RowRoundTrip.m8n8k4ColRowF32F16 d a b c
  | .m8n8k4ColRowF32F32 d a b c => Laws.RowRoundTrip.m8n8k4ColRowF32F32 d a b c
  | .m8n8k4ColColF16F16 d a b c => Laws.RowRoundTrip.m8n8k4ColColF16F16 d a b c
  | .m8n8k4ColColF16F32 d a b c => Laws.RowRoundTrip.m8n8k4ColColF16F32 d a b c
  | .m8n8k4ColColF32F16 d a b c => Laws.RowRoundTrip.m8n8k4ColColF32F16 d a b c
  | .m8n8k4ColColF32F32 d a b c => Laws.RowRoundTrip.m8n8k4ColColF32F32 d a b c
  | .m8n8k4F64 d a b c => Laws.RowRoundTrip.m8n8k4F64 d a b c
  | .m8n8k16S8S8 d a b c => Laws.RowRoundTrip.m8n8k16S8S8 d a b c
  | .m8n8k16SatfiniteS8S8 d a b c => Laws.RowRoundTrip.m8n8k16SatfiniteS8S8 d a b c
  | .m8n8k16S8U8 d a b c => Laws.RowRoundTrip.m8n8k16S8U8 d a b c
  | .m8n8k16SatfiniteS8U8 d a b c => Laws.RowRoundTrip.m8n8k16SatfiniteS8U8 d a b c
  | .m8n8k16U8S8 d a b c => Laws.RowRoundTrip.m8n8k16U8S8 d a b c
  | .m8n8k16SatfiniteU8S8 d a b c => Laws.RowRoundTrip.m8n8k16SatfiniteU8S8 d a b c
  | .m8n8k16U8U8 d a b c => Laws.RowRoundTrip.m8n8k16U8U8 d a b c
  | .m8n8k16SatfiniteU8U8 d a b c => Laws.RowRoundTrip.m8n8k16SatfiniteU8U8 d a b c
  | .m8n8k32S4S4 d a b c => Laws.RowRoundTrip.m8n8k32S4S4 d a b c
  | .m8n8k32SatfiniteS4S4 d a b c => Laws.RowRoundTrip.m8n8k32SatfiniteS4S4 d a b c
  | .m8n8k32S4U4 d a b c => Laws.RowRoundTrip.m8n8k32S4U4 d a b c
  | .m8n8k32SatfiniteS4U4 d a b c => Laws.RowRoundTrip.m8n8k32SatfiniteS4U4 d a b c
  | .m8n8k32U4S4 d a b c => Laws.RowRoundTrip.m8n8k32U4S4 d a b c
  | .m8n8k32SatfiniteU4S4 d a b c => Laws.RowRoundTrip.m8n8k32SatfiniteU4S4 d a b c
  | .m8n8k32U4U4 d a b c => Laws.RowRoundTrip.m8n8k32U4U4 d a b c
  | .m8n8k32SatfiniteU4U4 d a b c => Laws.RowRoundTrip.m8n8k32SatfiniteU4U4 d a b c
  | .ldmatrix => Laws.RowRoundTrip.ldmatrix
  | .stmatrix => Laws.RowRoundTrip.stmatrix
  | .movmatrix => Laws.RowRoundTrip.movmatrix

/-- What the row of a form says of its term: it is found again, and it passes the checks that look at neither a
parameter nor an operand. -/
theorem row_of_isMma {i : Instr} {q : Quals} {o : Operands} (h : IsMma i q o) :
    q.instr o = some i ∧ (q.term o).instr = some i ∧
      checkQualifiers (q.term o) = none ∧ checkShapeKnown (q.term o) = none ∧ checkTypeCombo (q.term o) = none ∧
      checkLayout (q.term o) = none ∧ checkSatfinite (q.term o) = none ∧ checkNoGuard (q.term o) = none := by
  have row := rowRoundTrip i
  unfold Laws.RowRoundTrip.Statement at row
  rwa [show i.form = .inl (q, o) from h] at row

theorem form_of_mem_mmaRows {x : Quals × (Vec → Vec → Vec → Vec → Instr)} (h : x ∈ mmaRows) (d a b c : Vec) :
    (x.2 d a b c).form = .inl (x.1, ⟨d, a, b, c⟩) := by
  revert x
  simp only [mmaRows, List.forall_mem_cons, Instr.form, List.not_mem_nil, false_implies, implies_true, and_self]

/-- The table finds an instruction by its qualifiers and operands, and no other. -/
theorem Quals.instr_eq_some {q : Quals} {o : Operands} {i : Instr} : q.instr o = some i ↔ IsMma i q o := by
  constructor
  · intro h
    obtain ⟨x, hx, rfl⟩ := Option.map_eq_some_iff.1 h
    have same : x.1 = q := by simpa using List.find?_some hx
    rw [IsMma, form_of_mem_mmaRows (List.mem_of_find?_eq_some hx), same]
  · exact fun h => (row_of_isMma h).1

theorem refusal_of_isMma {i : Instr} {q : Quals} {o : Operands} (h : IsMma i q o) (p : Params) (ds : List Decl) :
    i.refusal p ds = (q.term o).check p ds := by
  simp only [Instr.refusal, Instr.stmt, show i.form = .inl (q, o) from h]

theorem wellFormed_iff {p : Params} {ds : List Decl} {i : Instr} : i.wellFormed p ds = true ↔ i.refusal p ds = none := by
  simp [Instr.wellFormed]

theorem NamedOnly.form_instr (n : NamedOnly) : n.instr.form = .inr n := by cases n <;> rfl

/-! ## Tokens: the shapes, layouts and types that have a name (R56 to R58) -/

/-- A byte inside a token: no end of the opcode word, and no dot between two tokens. -/
def IsTokenByte (b : Byte) : Prop := isWordByte b = true ∧ b ≠ bDot

theorem isTokenByte_iff {b : Byte} : IsTokenByte b ↔ (isWordByte b && b != bDot) = true := by
  simp [IsTokenByte]

/-- A text of token bytes only. -/
def IsToken (t : Text) : Prop := ∀ b ∈ t, IsTokenByte b

theorem isToken_of_all {t : Text} (h : t.all (fun b => isWordByte b && b != bDot) = true) : IsToken t :=
  fun b hb => isTokenByte_iff.2 (List.all_eq_true.1 h b hb)

theorem Shape.named_cases {s : Shape} (h : ∀ t, s ≠ .other t) : s = .m8n8k4 ∨ s = .m8n8k16 ∨ s = .m8n8k32 := by
  cases s with
  | other t => exact absurd rfl (h t)
  | _ => simp

/-- A shape with a name is spelled by one token and read back. -/
theorem Shape.text_spec {s : Shape} (h : ∀ t, s ≠ .other t) : IsToken s.text ∧ Shape.ofText s.text = s := by
  cases s with
  | other t => exact absurd rfl (h t)
  | _ => exact ⟨isToken_of_all (by decide), by decide⟩

/-- A type with a name is spelled by one token, which is not `satfinite`, and read back. -/
theorem ElemType.text_spec {ty : ElemType} (h : ∀ t, ty ≠ .other t) :
    IsToken ty.text ∧ ElemType.ofText ty.text = ty ∧ ty.text ≠ tokSatfinite := by
  cases ty with
  | other t => exact absurd rfl (h t)
  | _ => exact ⟨isToken_of_all (by decide), by decide, by decide⟩

theorem Layout.text_spec (l : Layout) : IsToken l.text ∧ Layout.ofText l.text = some l := by
  cases l <;> exact ⟨isToken_of_all (by decide), by decide⟩

/-- Shape and types have names, so that a mnemonic spells them. -/
structure Quals.Spelled (q : Quals) : Prop where
  shape : ∀ t, q.shape ≠ .other t
  dtype : ∀ t, q.dtype ≠ .other t
  atype : ∀ t, q.atype ≠ .other t
  btype : ∀ t, q.btype ≠ .other t
  ctype : ∀ t, q.ctype ≠ .other t

theorem spelled_of_isMma {i : Instr} {q : Quals} {o : Operands} (h : IsMma i q o) : q.Spelled := by
  cases i <;> cases h <;> constructor <;> intro t ht <;> cases ht

/-- The four type tokens of a mnemonic. -/
def Quals.typeTokens (q : Quals) : List Text := [q.dtype.text, q.atype.text, q.btype.text, q.ctype.text]

/-- The tokens of a mnemonic after the opcode word (R58, R60, R61). -/
def Quals.qualTokens (q : Quals) : List Text :=
  tokSync :: tokAligned :: q.shape.text :: q.alayout.text :: q.blayout.text ::
    ((if q.satfinite then [tokSatfinite] else []) ++ q.typeTokens)

theorem Quals.mnemonic_eq (q : Quals) : q.mnemonic = joinWith [bDot] (tokMma :: q.qualTokens) := rfl

theorem Quals.isToken_of_mem {q : Quals} (h : q.Spelled) : ∀ t ∈ tokMma :: q.qualTokens, IsToken t := by
  have sat : ∀ t ∈ (if q.satfinite then [tokSatfinite] else []), IsToken t := by
    intro t ht
    split at ht
    · rw [List.mem_singleton.1 ht]; exact isToken_of_all (by decide)
    · cases ht
  simp only [Quals.qualTokens, Quals.typeTokens, List.forall_mem_cons, List.forall_mem_append]
  exact ⟨isToken_of_all (by decide), isToken_of_all (by decide), isToken_of_all (by decide), (Shape.text_spec h.shape).1,
    (Layout.text_spec _).1, (Layout.text_spec _).1, sat, (ElemType.text_spec h.dtype).1, (ElemType.text_spec h.atype).1,
    (ElemType.text_spec h.btype).1, (ElemType.text_spec h.ctype).1, by simp⟩

/-! ## Joined texts -/

theorem joinWith_cons_cons (sep x y : Text) (ys : List Text) :
    joinWith sep (x :: y :: ys) = x ++ sep ++ joinWith sep (y :: ys) := rfl

theorem mem_joinWith {sep : Text} {ts : List Text} {b : Byte} (h : b ∈ joinWith sep ts) : b ∈ sep ∨ ∃ t ∈ ts, b ∈ t := by
  induction ts with
  | nil => cases h
  | cons x xs ih =>
    cases xs with
    | nil => exact .inr ⟨x, List.mem_cons_self, h⟩
    | cons y ys =>
      rw [joinWith_cons_cons, List.mem_append, List.mem_append] at h
      rcases h with (h | h) | h
      · exact .inr ⟨x, List.mem_cons_self, h⟩
      · exact .inl h
      · exact (ih h).imp_right fun ⟨t, ht, hb⟩ => ⟨t, List.mem_cons_of_mem _ ht, hb⟩

/-- Splitting at a separator what was joined with it. -/
theorem splitAt_joinWith_sep {sep : Byte} {x : Text} {xs : List Text} (h : ∀ t ∈ x :: xs, ∀ b ∈ t, b ≠ sep) :
    splitAt sep (joinWith [sep] (x :: xs)) = x :: xs := by
  induction xs generalizing x with
  | nil =>
    have := splitAt_append (h x List.mem_cons_self) []
    rwa [List.append_nil, splitAt, foldr_consHead, List.append_nil] at this
  | cons y ys ih =>
    rw [joinWith_cons_cons, List.append_assoc, splitAt_append (h x List.mem_cons_self), List.singleton_append, splitAt,
      if_pos (beq_self_eq_true sep), ih fun t ht => h t (List.mem_cons_of_mem _ ht), foldr_consHead, List.append_nil]

/-- The opcode word with its qualifiers, followed by a byte that ends it, is cut off whole. -/
theorem cut_word {word rest : Text} {b : Byte} (h : ∀ x ∈ word, isWordByte x = true) (hb : isWordByte b = false) :
    (word ++ b :: rest).takeWhile isWordByte = word ∧ (word ++ b :: rest).dropWhile isWordByte = b :: rest := by
  rw [List.takeWhile_append_of_pos h, List.dropWhile_append_of_pos h]
  simp [hb]

/-- The operand list, followed by the semicolon, is cut off whole (R62). -/
theorem cut_body {body : Text} (h : ∀ x ∈ body, x ≠ bSemicolon) :
    (body ++ [bSemicolon]).takeWhile (fun b => b != bSemicolon) = body ∧
      (body ++ [bSemicolon]).dropWhile (fun b => b != bSemicolon) = [bSemicolon] := by
  have h' : ∀ x ∈ body, (x != bSemicolon) = true := fun x hx => by simpa using h x hx
  rw [List.takeWhile_append_of_pos h', List.dropWhile_append_of_pos h']
  simp

/-! ## Parsing what the encoder writes -/

/-- A statement that begins with neither a blank nor `@` has no guard (R65). -/
theorem takeGuard_of_head {b : Byte} (hb : isBlank b = false) (ha : b ≠ bAt) (t : Text) :
    takeGuard (skipBlanks (b :: t)) = (false, b :: t) := by
  simp [skipBlanks_cons_of_not hb, takeGuard, ha]

theorem parseStmt_of_mma {t u : Text} {g : Bool} {quals : List Text} (hg : takeGuard (skipBlanks t) = (g, u))
    (hw : splitAt bDot (u.takeWhile isWordByte) = tokMma :: quals) :
    parseStmt t = .mma (parseMma g true quals (u.dropWhile isWordByte)) := by
  simp [parseStmt, hg, hw]

/-- The operands of a statement that are read back from its text: vectors of at least one register name. -/
def Vec.Readable (v : Vec) : Prop := v ≠ [] ∧ ∀ r ∈ v, RegName.legal r = true

/-- The four operand vectors can be read back. -/
def Operands.Readable (o : Operands) : Prop := o.d.Readable ∧ o.a.Readable ∧ o.b.Readable ∧ o.c.Readable

/-- The operand list as the encoder writes it, with the blank in front. -/
def Operands.text (o : Operands) : Text :=
  bBlank :: joinWith [bComma, bBlank] [encodeVec o.d, encodeVec o.a, encodeVec o.b, encodeVec o.c]

theorem encodeVec_no_semicolon {v : Vec} (h : v.Readable) : ∀ b ∈ encodeVec v, b ≠ bSemicolon := by
  intro b hb
  simp only [encodeVec, List.mem_cons, List.mem_append, List.not_mem_nil, or_false] at hb
  rcases hb with rfl | hb | rfl
  · decide
  · exact (joinWith_bytes h.2 b hb).1
  · decide

theorem Operands.text_no_semicolon {o : Operands} (h : o.Readable) : ∀ b ∈ o.text, b ≠ bSemicolon := by
  obtain ⟨hd, ha, hb, hc⟩ := h
  intro x hx
  rcases List.mem_cons.1 hx with rfl | hx
  · decide
  · rcases mem_joinWith hx with hs | ⟨t, ht, hx⟩
    · exact (by decide : ∀ y ∈ [bComma, bBlank], y ≠ bSemicolon) x hs
    · simp only [List.mem_cons, List.not_mem_nil, or_false] at ht
      rcases ht with rfl | rfl | rfl | rfl
      · exact encodeVec_no_semicolon hd x hx
      · exact encodeVec_no_semicolon ha x hx
      · exact encodeVec_no_semicolon hb x hx
      · exact encodeVec_no_semicolon hc x hx

/-- The qualifiers of a form are taken apart into its fields: what is left after the layouts. -/
theorem satfinite_of_tokens {q : Quals} (h : q.Spelled) :
    (((if q.satfinite then [tokSatfinite] else []) ++ q.typeTokens).head? == some tokSatfinite) = q.satfinite ∧
      dropToken tokSatfinite ((if q.satfinite then [tokSatfinite] else []) ++ q.typeTokens) = q.typeTokens := by
  have hd := (ElemType.text_spec h.dtype).2.2
  cases q.satfinite <;> simp [Quals.typeTokens, dropToken, hd]

/-- The parser reads the term of a form from its tokens and its operand list (R57 to R62). -/
theorem parseMma_encoded {q : Quals} {o : Operands} (hq : q.Spelled) (ho : o.Readable) :
    parseMma false true q.qualTokens (o.text ++ [bSemicolon]) = q.term o := by
  obtain ⟨hsat, htypes⟩ := satfinite_of_tokens hq
  obtain ⟨hbody, hafter⟩ := cut_body (Operands.text_no_semicolon ho)
  have hops : (splitOperands false o.text).map parseOperand = [.regs o.d, .regs o.a, .regs o.b, .regs o.c] :=
    operands_encode ho.1 ho.2.1 ho.2.2.1 ho.2.2.2
  have layouts : ∀ (l : Layout) (ts : List Text), takeLayout (l.text :: ts) = (some l, ts) := fun l ts => by
    simp only [takeLayout, (Layout.text_spec l).2]
  have quals : dropToken tokAligned (dropToken tokSync q.qualTokens) = q.qualTokens.drop 2 := by
    simp [Quals.qualTokens, dropToken]
  unfold parseMma
  simp only [quals, hbody, hafter, hops]
  simp only [Quals.qualTokens, List.drop_succ_cons, List.drop_zero, List.headD_cons, List.tail_cons, layouts, hsat,
    htypes]
  simp [Quals.typeTokens, Quals.term, (Shape.text_spec hq.shape).2, (ElemType.text_spec hq.dtype).2.1,
    (ElemType.text_spec hq.atype).2.1, (ElemType.text_spec hq.btype).2.1, (ElemType.text_spec hq.ctype).2.1]

/-- The text of a form is parsed to its term. -/
theorem parseStmt_encode {i : Instr} {q : Quals} {o : Operands} (hi : IsMma i q o) (ho : o.Readable) :
    parseStmt (encode i) = .mma (q.term o) := by
  have hq := spelled_of_isMma hi
  have tokens := Quals.isToken_of_mem hq
  have text : encode i = q.mnemonic ++ bBlank :: (o.text.tail ++ [bSemicolon]) := by
    simp [encode, show i.form = .inl (q, o) from hi, Operands.text]
  have word : ∀ x ∈ q.mnemonic, isWordByte x = true := by
    intro x hx
    rw [Quals.mnemonic_eq] at hx
    rcases mem_joinWith hx with hs | ⟨t, ht, hb⟩
    · rw [List.mem_singleton.1 hs]; decide
    · exact (tokens t ht x hb).1
  obtain ⟨htake, hdrop⟩ := cut_word (rest := o.text.tail ++ [bSemicolon]) word (show isWordByte bBlank = false by decide)
  have guardless : takeGuard (skipBlanks (encode i)) = (false, encode i) := by
    rw [text]; exact takeGuard_of_head (b := 109) (by decide) (by decide) _
  have split : splitAt bDot ((encode i).takeWhile isWordByte) = tokMma :: q.qualTokens := by
    rw [text, htake, Quals.mnemonic_eq]
    exact splitAt_joinWith_sep fun t ht b hb => (tokens t ht b hb).2
  rw [parseStmt_of_mma guardless split, text, hdrop]
  exact congrArg _ (parseMma_encoded hq ho)

theorem parseStmt_named (n : NamedOnly) : parseStmt (encode n.instr) = .named n := by
  cases n <;> decide

/-! ## Decoding -/

/-- Every role asks for at least one register (R63). -/
theorem roles_pos (shape : Shape) (atype dtype ctype : ElemType) :
    let r := roles shape atype dtype ctype
    0 < r.d.1 ∧ 0 < r.a.1 ∧ 0 < r.b.1 ∧ 0 < r.c.1 := by
  have acc : ∀ ty : ElemType, 0 < (accRole ty).1 := by intro ty; cases ty <;> simp [accRole]
  cases shape <;> cases atype <;> simp [roles, acc]

theorem readable_of_widthRole {ds : List Decl} {v : Vec} {n : Nat} {ty : RegType} (h : WidthRole ds v n ty) (hn : 0 < n) :
    v.Readable := by
  obtain ⟨hlen, htyped⟩ := h
  refine ⟨List.ne_nil_of_length_pos (hlen ▸ hn), fun r hr => ?_⟩
  obtain ⟨ty', hty, -⟩ := htyped r hr
  exact legal_of_typeOf hty

theorem readable_of_admitted {i : Instr} {q : Quals} {o : Operands} {p : Params} {ds : List Decl} (hi : IsMma i q o)
    (h : i.refusal p ds = none) : o.Readable := by
  obtain ⟨hd, ha, hb, hc, -⟩ := operands_of_admitted hi h
  obtain ⟨pd, pa, pb, pc⟩ := roles_pos q.shape q.atype q.dtype q.ctype
  exact ⟨readable_of_widthRole hd pd, readable_of_widthRole ha pa, readable_of_widthRole hb pb,
    readable_of_widthRole hc pc⟩

theorem decode_of_named {t : Text} {n : NamedOnly} (h : parseStmt t = .named n) (p : Params) (ds : List Decl) :
    decode p ds t = .ok n.instr := by
  simp [decode, h]

theorem decode_of_unknown {t w : Text} (h : parseStmt t = .unknown w) (p : Params) (ds : List Decl) :
    decode p ds t = .error (.unknownOpcode w) := by
  simp [decode, h]

theorem decode_of_rejected {p : Params} {ds : List Decl} {t : Text} {m : MmaTerm} {why : Reject}
    (h : parseStmt t = .mma m) (hc : m.check p ds = some why) : decode p ds t = .error why := by
  simp [decode, h, hc]

theorem decode_of_admitted {p : Params} {ds : List Decl} {t : Text} {m : MmaTerm} {i : Instr} (h : parseStmt t = .mma m)
    (hc : m.check p ds = none) (hi : m.instr = some i) : decode p ds t = .ok i := by
  simp [decode, h, hc, hi]

/-- Settles O43: the text of a form is parsed to its term (`parseStmt_encode`), which is checked as the instruction is
and stands in the instruction's own row (`row_of_isMma`). -/
theorem decodeEncodeAgree : Obligations.DecodeEncodeAgree := by
  rintro p ds i (hwf | ⟨n, rfl⟩)
  · have hr := wellFormed_iff.1 hwf
    obtain ⟨q, o, hi⟩ := isMma_of_admitted hr
    exact decode_of_admitted (parseStmt_encode hi (readable_of_admitted hi hr)) (refusal_of_isMma hi p ds ▸ hr)
      (row_of_isMma hi).2.1
  · exact decode_of_named (parseStmt_named n) p ds

end Sys2Proof

/-! SUPPORT. Proofs about the elements of a register and about integer cells (`40_mma_common.md` R79, R80, R86;
`43_mma_m8n8k16.md` R152 to R155, `44_mma_m8n8k32.md` R172 to R175). -/

namespace Sys2Proof.Machine

/-! ## Elements of a register (R79, R80) -/

/-- Settles O11: an element is cut out of its register at its place. -/
theorem elementPlacement : Obligations.ElementPlacement := by
  intro read vec per w i b hb
  unfold fragElement
  cases read (vec.getD (i / per) []) with
  | w32 x => simp [Value.element, hb]
  | w64 x => simp [Value.element, hb]

theorem RegType.width_eq (ty : RegType) : ty.width = 32 ∨ ty.width = 64 := by cases ty <;> decide

theorem valueOfType_of_width_32 {ty : RegType} (h : ty.width = 32) (n : Nat) :
    valueOfType ty n = .w32 (BitVec.ofNat 32 n) := by
  simp [valueOfType, h]

theorem valueOfType_of_width_64 {ty : RegType} (h : ty.width = 64) (n : Nat) :
    valueOfType ty n = .w64 (BitVec.ofNat 64 n) := by
  simp [valueOfType, h]

@[simp] theorem valueOfType_width (ty : RegType) (n : Nat) : (valueOfType ty n).width = ty.width := by
  rcases RegType.width_eq ty with h | h
  · rw [valueOfType_of_width_32 h, h]; rfl
  · rw [valueOfType_of_width_64 h, h]; rfl

@[simp] theorem packRegister_width {w : Nat} (ty : RegType) (per : Nat) (e : Nat → BitVec w) (j : Nat) :
    (packRegister ty per e j).width = ty.width := valueOfType_width _ _

/-- An element of a register, as a digit of the number the register holds. -/
theorem toNat_element_valueOfType (ty : RegType) (n w x : Nat) :
    ((valueOfType ty n).element w x).toNat = n % 2 ^ ty.width / 2 ^ (w * x) % 2 ^ w := by
  rcases RegType.width_eq ty with h | h
  · rw [valueOfType_of_width_32 h, h]
    simp [Value.element, Nat.shiftRight_eq_div_pow]
  · rw [valueOfType_of_width_64 h, h]
    simp [Value.element, Nat.shiftRight_eq_div_pow]

theorem concatElements_lt {w : Nat} (es : List (BitVec w)) : concatElements es < 2 ^ (w * es.length) := by
  induction es with
  | nil => simp [concatElements]
  | cons e es ih =>
    rw [concatElements, List.length_cons, Nat.mul_succ, Nat.add_comm (w * _), pow_add]
    calc e.toNat + 2 ^ w * concatElements es < 2 ^ w + 2 ^ w * concatElements es := by have := e.isLt; omega
      _ = 2 ^ w * (concatElements es + 1) := by ring
      _ ≤ 2 ^ w * 2 ^ (w * es.length) := Nat.mul_le_mul_left _ ih

/-- The digits of a concatenation are its elements. -/
theorem concatElements_digit {w : Nat} {es : List (BitVec w)} {x : Nat} (hx : x < es.length) :
    concatElements es / 2 ^ (w * x) % 2 ^ w = es[x].toNat := by
  induction es generalizing x with
  | nil => simp at hx
  | cons e es ih =>
    rw [concatElements]
    cases x with
    | zero => simp [Nat.mod_eq_of_lt e.isLt]
    | succ x =>
      have drop : (e.toNat + 2 ^ w * concatElements es) / 2 ^ w = concatElements es := by
        rw [Nat.add_mul_div_left _ _ (by positivity), Nat.div_eq_of_lt e.isLt, Nat.zero_add]
      rw [Nat.mul_succ, Nat.add_comm (w * x), pow_add, ← Nat.div_div_eq_div_mul, drop, List.getElem_cons_succ]
      exact ih (by simpa using hx)

/-- A packed register gives its elements back. -/
theorem element_packRegister {w per : Nat} {ty : RegType} (h : w * per = ty.width) (e : Nat → BitVec w) (j : Nat)
    {x : Nat} (hx : x < per) : (packRegister ty per e j).element w x = e (per * j + x) := by
  apply BitVec.eq_of_toNat_eq
  have fits := concatElements_lt ((List.range per).map (fun x => e (per * j + x)))
  rw [List.length_map, List.length_range, h] at fits
  rw [packRegister, toNat_element_valueOfType, Nat.mod_eq_of_lt fits, concatElements_digit (by simpa using hx)]
  simp

/-- Settles O12: the register has its type's width whatever is packed, and its digits are the elements. -/
theorem packedElementsReadBack : Obligations.PackedElementsReadBack :=
  fun ty per _ e j h => ⟨packRegister_width ty per e j, fun _ hx => element_packRegister h e j hx⟩

/-! ## Integers (R86, R87) -/

theorem sext_eq_toInt {w : Nat} (hw : 0 < w) (v : BitVec w) : sext v = v.toInt := by
  obtain ⟨n, rfl⟩ := Nat.exists_eq_succ_of_ne_zero hw.ne'
  have half : v.toNat < 2 ^ n ↔ 2 * v.toNat < 2 ^ (n + 1) := by rw [pow_succ]; omega
  simp [sext, BitVec.toInt_eq_toNat_cond, half]

/-- Modulo 2^32 an extended element is the element's sign or zero extension. -/
theorem ofInt_extend {w : Nat} (hw : 0 < w) (ty : ElemType) (v : BitVec w) :
    BitVec.ofInt 32 (extend ty v) = if ty.signed then v.signExtend 32 else v.setWidth 32 := by
  unfold extend
  split
  · rw [sext_eq_toInt hw]; rfl
  · exact BitVec.eq_of_toNat_eq (by simp [zext])

theorem ofInt_sext_self (c : BitVec 32) : BitVec.ofInt 32 (sext c) = c := by
  rw [sext_eq_toInt (by decide), BitVec.ofInt_toInt]

/-- Reducing modulo 2^32 commutes with adding up a list of integers. -/
theorem ofInt_add_sum {α : Type} (f : α → Int) (z : Int) (ks : List α) :
    BitVec.ofInt 32 (z + (ks.map f).sum) = ks.foldl (fun acc k => acc + BitVec.ofInt 32 (f k)) (BitVec.ofInt 32 z) := by
  induction ks generalizing z with
  | nil => simp
  | cons k ks ih => rw [List.map_cons, List.sum_cons, ← add_assoc, ih, List.foldl_cons, BitVec.ofInt_add]

/-- Settles O13: the sum does not depend on the order of its products, and `BitVec.ofInt 32` commutes with each addition
and each multiplication. -/
theorem wrapIsModularInAnyOrder : Obligations.WrapIsModularInAnyOrder := by
  intro w K atype btype a b c ks hw _ hks
  have reorder := (hks.map (fun k => extend atype a[k] * extend btype b[k])).sum_eq
  rw [intCell, finish, wrap32, exactSum, ← reorder, ofInt_add_sum, ofInt_sext_self]
  simp only [BitVec.ofInt_mul, ofInt_extend hw]

theorem toInt_ofInt_of_mem {z : Int} (h1 : -2147483648 ≤ z) (h2 : z ≤ 2147483647) : (BitVec.ofInt 32 z).toInt = z :=
  BitVec.toInt_ofInt_eq_self (by decide) (by norm_num; omega) (by norm_num; omega)

theorem toInt_sat32 (z : Int) : (sat32 z).toInt = min (max z (-2147483648)) 2147483647 :=
  toInt_ofInt_of_mem (by norm_num) (by norm_num)

/-- Settles O14: the clamp lies in the range of `.s32`, where a number and its pattern agree. -/
theorem satfiniteClampsOnce : Obligations.SatfiniteClampsOnce := by
  intro w K atype btype a b c
  refine ⟨toInt_sat32 _, fun h1 h2 => ⟨(toInt_sat32 _).trans ?_, toInt_ofInt_of_mem h1 h2⟩⟩
  rw [max_eq_left h1, min_eq_left h2]

/-! ## How far a sum of products can move the accumulator -/

theorem sext_bounds {w : Nat} (hw : 0 < w) (v : BitVec w) : -2 ^ (w - 1) ≤ sext v ∧ sext v ≤ 2 ^ (w - 1) - 1 := by
  rw [sext_eq_toInt hw]
  exact ⟨BitVec.le_toInt v, Int.le_sub_one_of_lt (BitVec.toInt_lt)⟩

theorem zext_bounds {w : Nat} (v : BitVec w) : 0 ≤ zext v ∧ zext v ≤ 2 ^ w - 1 := by
  have := v.isLt
  unfold zext
  exact ⟨by omega, Int.le_sub_one_of_lt (by exact_mod_cast this)⟩

section
variable {m n x y : Int}

theorem mul_bounds_signed (hx : -m ≤ x ∧ x ≤ m - 1) (hy : -m ≤ y ∧ y ≤ m - 1) :
    -(m * (m - 1)) ≤ x * y ∧ x * y ≤ m * m := by
  obtain ⟨hx1, hx2⟩ := hx
  obtain ⟨hy1, hy2⟩ := hy
  have hm : 1 ≤ m := by omega
  rcases le_total 0 y with h | h
  · constructor <;> nlinarith
  · constructor <;> nlinarith [mul_nonneg (sub_nonneg.2 hx2) (neg_nonneg.2 h)]

theorem mul_bounds_unsigned (hx : 0 ≤ x ∧ x ≤ n) (hy : 0 ≤ y ∧ y ≤ n) : 0 ≤ x * y ∧ x * y ≤ n * n :=
  ⟨mul_nonneg hx.1 hy.1, mul_le_mul hx.2 hy.2 hy.1 (hx.1.trans hx.2)⟩

theorem mul_bounds_mixed (hx : -m ≤ x ∧ x ≤ m - 1) (hy : 0 ≤ y ∧ y ≤ n) : -(m * n) ≤ x * y ∧ x * y ≤ (m - 1) * n := by
  obtain ⟨hx1, hx2⟩ := hx
  obtain ⟨hy1, hy2⟩ := hy
  have hm : 1 ≤ m := by omega
  constructor <;> nlinarith

end

/-- The least and the greatest product of two elements of `w` bits, by their signedness. -/
def productRange (w : Nat) : Bool → Bool → Int × Int
  | true, true => (-(2 ^ (w - 1) * (2 ^ (w - 1) - 1)), 2 ^ (w - 1) * 2 ^ (w - 1))
  | false, false => (0, (2 ^ w - 1) * (2 ^ w - 1))
  | _, _ => (-(2 ^ (w - 1) * (2 ^ w - 1)), (2 ^ (w - 1) - 1) * (2 ^ w - 1))

theorem extend_mul_extend_bounds {w : Nat} (hw : 0 < w) (atype btype : ElemType) (x y : BitVec w) :
    let range := productRange w atype.signed btype.signed
    range.1 ≤ extend atype x * extend btype y ∧ extend atype x * extend btype y ≤ range.2 := by
  unfold extend
  cases atype.signed <;> cases btype.signed
  case true.true => exact mul_bounds_signed (sext_bounds hw x) (sext_bounds hw y)
  case false.false => exact mul_bounds_unsigned (zext_bounds x) (zext_bounds y)
  case true.false => exact mul_bounds_mixed (sext_bounds hw x) (zext_bounds y)
  case false.true =>
    have swapped := mul_bounds_mixed (sext_bounds hw y) (zext_bounds x)
    rwa [mul_comm (sext y)] at swapped

/-- The sum moves by at most `K` times the ends of the interval of one product. -/
theorem exactSum_sub_bounds {w K : Nat} (hw : 0 < w) (atype btype : ElemType) (a b : Vector (BitVec w) K)
    (c : BitVec 32) :
    let range := productRange w atype.signed btype.signed
    K * range.1 ≤ exactSum atype btype a b c - sext c ∧ exactSum atype btype a b c - sext c ≤ K * range.2 := by
  let products := (List.finRange K).map (fun k => extend atype a[k] * extend btype b[k])
  have moved : exactSum atype btype a b c - sext c = products.sum := by simp [exactSum, products]
  have len : products.length = K := by simp [products]
  have each : ∀ z ∈ products, (productRange w atype.signed btype.signed).1 ≤ z ∧
      z ≤ (productRange w atype.signed btype.signed).2 := by
    intro z hz
    obtain ⟨k, -, rfl⟩ := List.mem_map.1 hz
    exact extend_mul_extend_bounds hw atype btype _ _
  have lower := List.card_nsmul_le_sum products _ fun z hz => (each z hz).1
  have upper := List.sum_le_card_nsmul products _ fun z hz => (each z hz).2
  rw [len, nsmul_eq_mul] at lower upper
  rw [moved]
  exact ⟨lower, upper⟩

/-- Settles O15: 16 or 32 times the interval of one product, for each pair of types. -/
theorem sumOfProductsBounds : Obligations.SumOfProductsBounds := by
  constructor
  · intro a b c moved
    have ss := exactSum_sub_bounds (by decide) .s8 .s8 a b c
    have uu := exactSum_sub_bounds (by decide) .u8 .u8 a b c
    have su := exactSum_sub_bounds (by decide) .s8 .u8 a b c
    have us := exactSum_sub_bounds (by decide) .u8 .s8 a b c
    norm_num [productRange, ElemType.signed] at ss uu su us
    simp only [moved, abs_le]
    omega
  · intro a b c moved
    have ss := exactSum_sub_bounds (by decide) .s4 .s4 a b c
    have uu := exactSum_sub_bounds (by decide) .u4 .u4 a b c
    have su := exactSum_sub_bounds (by decide) .s4 .u4 a b c
    have us := exactSum_sub_bounds (by decide) .u4 .s4 a b c
    norm_num [productRange, ElemType.signed] at ss uu su us
    simp only [moved, abs_le]
    omega

end Sys2Proof.Machine

/-! SUPPORT. What an instruction, the decoding of a program and the step can do, completed: one lemma for each outcome
(`40_mma_common.md` R76, R89, R90; `60_exceptions.md` R191 to R194), and the statements about refusals, faults and the
stuck state that follow. -/

namespace Sys2Proof.Machine

/-! ## Outcomes of an instruction -/

theorem IsMma.unique {i : Instr} {q q' : Quals} {o o' : Operands} (h : IsMma i q o) (h' : IsMma i q' o') :
    q = q' ∧ o = o' := by
  simpa using h.symm.trans h'

/-- An instruction that its configuration does not take is refused, whatever the threads do (R194 (1)). -/
theorem exec_refused {i : Instr} {s : State} {why : Reject} (h : i.refusal s.setup.params s.setup.decls = some why) :
    exec i s = .refused (.rejected s.site why) := by
  cases hf : i.form with
  | inl x =>
    obtain ⟨_, _, _, _, _, f, -, hx⟩ := exec_mma (i := i) (q := x.1) (o := x.2) hf
    rw [hx, mmaStep_refused f x.2 h]
  | inr n =>
    have hn : i.refusal s.setup.params s.setup.decls = some (.notDescribed n) := by simp [Instr.refusal, Instr.stmt, hf]
    rw [exec_named hf, ← Option.some.inj (hn.symm.trans h)]

/-- The three outcomes of an admitted `mma`: stuck, the fault of the first unwritten source, or done (R89). -/
theorem exec_admitted_cases {i : Instr} {q : Quals} {o : Operands} {s : State} (hi : IsMma i q o)
    (h : i.refusal s.setup.params s.setup.decls = none) :
    ((∀ p, ¬ EnabledAt s p) ∧ exec i s = .fault .stuck) ∨
    ∃ p, EnabledAt s p ∧
      ((∃ l r, s.firstUnwritten o.sources = some (l, r) ∧
          exec i s = .fault (.unwrittenRegister l r p s.markFaulted)) ∨
        (AllHold s o.sources ∧ ∃ t, exec i s = .next t)) := by
  obtain ⟨_, _, _, _, _, f, -, hx⟩ := exec_mma hi
  rw [hx]
  by_cases he : ∃ p, EnabledAt s p
  · obtain ⟨p, hp⟩ := he
    refine .inr ⟨p, hp, ?_⟩
    cases hu : s.firstUnwritten o.sources with
    | some x => exact .inl ⟨x.1, x.2, rfl, mmaStep_unwritten f h hp hu⟩
    | none =>
      have ha := State.firstUnwritten_eq_none.1 hu
      exact .inr ⟨ha, _, mmaStep_done f h hp ha⟩
  · have hs := not_exists.1 he
    exact .inl ⟨hs, mmaStep_stuck f o h hs⟩

/-- Admitted and enabled with every source holding a value: done. -/
theorem exec_done {i : Instr} {q : Quals} {o : Operands} {s : State} {p : Nat} (hi : IsMma i q o)
    (h : i.refusal s.setup.params s.setup.decls = none) (hp : EnabledAt s p) (ha : AllHold s o.sources) :
    ∃ t, exec i s = .next t := by
  obtain ⟨_, _, _, _, _, f, -, hx⟩ := exec_mma hi
  exact ⟨_, (hx s).trans (mmaStep_done f h hp ha)⟩

theorem exec_stuck {i : Instr} {s : State} (h : i.refusal s.setup.params s.setup.decls = none)
    (he : ∀ p, ¬ EnabledAt s p) : exec i s = .fault .stuck := by
  obtain ⟨q, o, hi⟩ := isMma_of_admitted h
  rcases exec_admitted_cases hi h with ⟨-, hx⟩ | ⟨p, hp, -⟩
  · exact hx
  · exact absurd hp (he p)

/-- An instruction goes on from an enabled state only. -/
theorem enabledAt_of_exec_next {i : Instr} {s t : State} (h : exec i s = .next t) : ∃ p, EnabledAt s p := by
  obtain ⟨_, _, p, _, _, _, _, _, hp, _⟩ := exec_next h
  exact ⟨p, hp⟩

theorem exec_ne_refused {i : Instr} {s : State} (h : i.refusal s.setup.params s.setup.decls = none) (r : Refusal) :
    exec i s ≠ .refused r := by
  obtain ⟨q, o, hi⟩ := isMma_of_admitted h
  rcases exec_admitted_cases hi h with ⟨-, hx⟩ | ⟨p, -, ⟨l, x, -, hx⟩ | ⟨-, t, hx⟩⟩ <;> simp [hx]

/-- Everything the fault says of the state it was raised in (R90, R195). -/
theorem exec_unwritten {i : Instr} {s after : State} {l : Lane} {r : RegName} {p : Nat}
    (h : exec i s = .fault (.unwrittenRegister l r p after)) : EnabledAt s p ∧ after = s.markFaulted := by
  cases hr : i.refusal s.setup.params s.setup.decls with
  | some why => rw [exec_refused hr] at h; cases h
  | none =>
    obtain ⟨q, o, hi⟩ := isMma_of_admitted hr
    rcases exec_admitted_cases hi hr with ⟨-, hx⟩ | ⟨p', hp, ⟨_, _, -, hx⟩ | ⟨-, _, hx⟩⟩
    · rw [hx] at h; cases h
    · rw [hx] at h; cases h; exact ⟨hp, rfl⟩
    · rw [hx] at h; cases h

/-! ## The program, statement by statement -/

/-- Every statement is admitted, as one instruction, or refused, for one reason. -/
theorem admitted_or_refused (su : Setup) (t : Text) :
    (∃ i, StatementAdmitted su t i) ∨ ∃ why, StatementRefused su t why := by
  cases hd : decode su.params su.decls t with
  | error why => exact .inr ⟨why, .inl hd⟩
  | ok i =>
    cases hr : i.refusal su.params su.decls with
    | none => exact .inl ⟨i, hd, hr⟩
    | some why => exact .inr ⟨why, .inr ⟨i, hd, hr⟩⟩

theorem loadFrom_cons_refused {su : Setup} {t : Text} {why : Reject} (h : StatementRefused su t why) (n : Nat)
    (ts : List Text) : loadFrom su n (t :: ts) = .error (.rejected n why) := by
  rcases h with hd | ⟨i, hd, hr⟩
  · simp [loadFrom, hd]
  · simp [loadFrom, hd, hr]

theorem loadFrom_cons_eq_error {su : Setup} {t : Text} {i : Instr} (h : StatementAdmitted su t i) (n : Nat)
    (ts : List Text) (r : Refusal) : loadFrom su n (t :: ts) = .error r ↔ loadFrom su (n + 1) ts = .error r := by
  obtain ⟨hd, hr⟩ := h
  simp only [loadFrom, hd, hr]
  cases loadFrom su (n + 1) ts <;> simp

/-- What makes `k` the first refused statement of a list, with its reason. -/
def FirstRefused (su : Setup) (ts : List Text) (k : Nat) (why : Reject) : Prop :=
  ∃ t, ts[k]? = some t ∧ StatementRefused su t why ∧ ∀ j < k, ∃ u i, ts[j]? = some u ∧ StatementAdmitted su u i

theorem not_admitted_of_refused {su : Setup} {t : Text} {why : Reject} {i : Instr} (h : StatementRefused su t why)
    (h' : StatementAdmitted su t i) : False := by
  obtain ⟨hd', hr'⟩ := h'
  rcases h with hd | ⟨i', hd, hr⟩
  · cases hd.symm.trans hd'
  · cases hd.symm.trans hd'
    cases hr.symm.trans hr'

theorem firstRefused_cons_of_refused {su : Setup} {t : Text} {ts : List Text} {why : Reject}
    (h : StatementRefused su t why) (k : Nat) (why' : Reject) :
    FirstRefused su (t :: ts) k why' ↔ k = 0 ∧ why' = why := by
  constructor
  · rintro ⟨t', ht', hw', hbefore⟩
    cases k with
    | succ k =>
      obtain ⟨u, i, hu, hi⟩ := hbefore 0 k.succ_pos
      cases hu
      exact (not_admitted_of_refused h hi).elim
    | zero =>
      cases ht'
      have same := (loadFrom_cons_refused hw' 0 []).symm.trans (loadFrom_cons_refused h 0 [])
      cases same
      exact ⟨rfl, rfl⟩
  · rintro ⟨rfl, rfl⟩
    exact ⟨t, rfl, h, fun j hj => absurd hj j.not_lt_zero⟩

theorem firstRefused_cons_of_admitted {su : Setup} {t : Text} {ts : List Text} {i : Instr}
    (h : StatementAdmitted su t i) (k : Nat) (why : Reject) :
    FirstRefused su (t :: ts) k why ↔ ∃ j, k = j + 1 ∧ FirstRefused su ts j why := by
  constructor
  · rintro ⟨t', ht', hw', hbefore⟩
    cases k with
    | zero => cases ht'; exact (not_admitted_of_refused hw' h).elim
    | succ k => exact ⟨k, rfl, t', ht', hw', fun j hj => hbefore (j + 1) (Nat.succ_lt_succ hj)⟩
  · rintro ⟨k, rfl, t', ht', hw', hbefore⟩
    refine ⟨t', ht', hw', fun j hj => ?_⟩
    cases j with
    | zero => exact ⟨t, i, rfl, h⟩
    | succ j => exact hbefore j (Nat.lt_of_succ_lt_succ hj)

/-- Decoding a program fails exactly at its first refused statement (R67, R192). -/
theorem loadFrom_eq_error {su : Setup} {n : Nat} {ts : List Text} {r : Refusal} :
    loadFrom su n ts = .error r ↔ ∃ k why, r = .rejected (n + k) why ∧ FirstRefused su ts k why := by
  induction ts generalizing n with
  | nil => simp [loadFrom, FirstRefused]
  | cons t ts ih =>
    rcases admitted_or_refused su t with ⟨i, h⟩ | ⟨why, h⟩
    · rw [loadFrom_cons_eq_error h, ih]
      simp only [firstRefused_cons_of_admitted h]
      constructor
      · rintro ⟨k, why, rfl, hk⟩
        exact ⟨k + 1, why, by rw [Nat.add_assoc, Nat.add_comm 1], k, rfl, hk⟩
      · rintro ⟨_, why, rfl, k, rfl, hk⟩
        exact ⟨k, why, by rw [Nat.add_assoc, Nat.add_comm 1], hk⟩
    · rw [loadFrom_cons_refused h]
      simp only [firstRefused_cons_of_refused h]
      constructor
      · intro e; cases e; exact ⟨0, why, rfl, rfl, rfl⟩
      · rintro ⟨_, _, rfl, rfl, rfl⟩; rfl

/-- Lists related element by element are related at every index. -/
theorem forall₂_getElem? {α β : Type} {R : α → β → Prop} {xs : List α} {ys : List β} (h : List.Forall₂ R xs ys)
    (p : Nat) :
    Option.Rel R xs[p]? ys[p]? := by
  induction h generalizing p with
  | nil => exact .none
  | cons hxy _ ih =>
    cases p with
    | zero => exact .some hxy
    | succ p => simpa using ih p

/-- Instruction `p` of a decoded program is the one statement `p` is admitted as. -/
theorem instrs_getElem? {s : State} {is : List Instr} (h : s.instrs = .ok is) (p : Nat) :
    Option.Rel (StatementAdmitted s.setup) s.setup.program[p]? is[p]? :=
  forall₂_getElem? (loadFrom_ok h) p

theorem statement_of_instr {s : State} {is : List Instr} {p : Nat} {i : Instr} (h : s.instrs = .ok is)
    (hp : is[p]? = some i) : ∃ u, s.setup.program[p]? = some u ∧ StatementAdmitted s.setup u i := by
  have rel := instrs_getElem? h p
  rw [hp] at rel
  cases hu : s.setup.program[p]? with
  | none => rw [hu] at rel; cases rel
  | some u => rw [hu] at rel; cases rel with | some hr => exact ⟨u, rfl, hr⟩

theorem instr_of_statement {s : State} {is : List Instr} {p : Nat} {u : Text} (h : s.instrs = .ok is)
    (hp : s.setup.program[p]? = some u) : ∃ i, is[p]? = some i ∧ StatementAdmitted s.setup u i := by
  have rel := instrs_getElem? h p
  rw [hp] at rel
  cases hi : is[p]? with
  | none => rw [hi] at rel; cases rel
  | some i => rw [hi] at rel; cases rel with | some hr => exact ⟨i, rfl, hr⟩

theorem State.refusal_eq_some {s : State} {r : Refusal} : s.refusal = some r ↔ s.instrs = .error r := by
  unfold State.refusal
  cases s.instrs <;> simp

/-! ## Outcomes of the step -/

theorem step_refused {s : State} {r : Refusal} (h : s.instrs = .error r) : step s = .refused r := by
  simp [step, h]

theorem step_of_allExited {s : State} {is : List Instr} (h : s.instrs = .ok is) (he : s.allExited = true) :
    step s = .fault .runEnded := by
  simp [step, h, he]

theorem step_stuck {s : State} {is : List Instr} (h : s.instrs = .ok is) (he : s.allExited = false)
    (hp : ∀ p, ¬ EnabledAt s p) : step s = .fault .stuck := by
  simp [step, h, he, State.enabledAt_eq_none.2 hp]

theorem step_past_end {s : State} {is : List Instr} {p : Nat} (h : s.instrs = .ok is) (hp : EnabledAt s p)
    (hn : is[p]? = none) : step s = .fault .runEnded := by
  simp [step, h, hp.allExited, State.enabledAt_eq_some.2 hp, hn]

/-- The step answers a refusal exactly where the program has a refusal mark (R192). -/
theorem step_eq_refused {s : State} {r : Refusal} : step s = .refused r ↔ s.instrs = .error r := by
  refine ⟨fun h => ?_, step_refused⟩
  cases hi : s.instrs with
  | error r' => rw [step_refused hi] at h; cases h; rfl
  | ok is =>
    exfalso
    cases he : s.allExited with
    | true => rw [step_of_allExited hi he] at h; cases h
    | false =>
      by_cases hp : ∃ p, EnabledAt s p
      · obtain ⟨p, hp⟩ := hp
        cases hx : is[p]? with
        | none => rw [step_past_end hi hp hx] at h; cases h
        | some i =>
          obtain ⟨u, -, -, hr⟩ := statement_of_instr hi hx
          exact exec_ne_refused hr r ((step_eq_exec hi hp hx).symm.trans h)
      · rw [step_stuck hi he (not_exists.1 hp)] at h; cases h

/-- The step takes its fault F1 from the instruction it runs. -/
theorem step_unwritten {s after : State} {l : Lane} {r : RegName} {p : Nat}
    (h : step s = .fault (.unwrittenRegister l r p after)) : ∃ i, exec i s = .fault (.unwrittenRegister l r p after) := by
  cases hi : s.instrs with
  | error r' => rw [step_refused hi] at h; cases h
  | ok is =>
    cases he : s.allExited with
    | true => rw [step_of_allExited hi he] at h; cases h
    | false =>
      by_cases hp : ∃ p, EnabledAt s p
      · obtain ⟨p, hp⟩ := hp
        cases hx : is[p]? with
        | none => rw [step_past_end hi hp hx] at h; cases h
        | some i => exact ⟨i, (step_eq_exec hi hp hx).symm.trans h⟩
      · rw [step_stuck hi he (not_exists.1 hp)] at h; cases h

theorem enabledAt_of_step_next {s t : State} (h : step s = .next t) : ∃ p, EnabledAt s p := by
  obtain ⟨_, p, _, _, hp, _⟩ := step_next h
  exact ⟨p, hp⟩

/-! ## Stuck, faulted, refused: the statements -/

/-- Settles O32: `exec_done` where the state is enabled, `exec_stuck` and `step_stuck` where it is not. -/
theorem stuckUnlessTogether : Obligations.StuckUnlessTogether := by
  intro i s h
  obtain ⟨q, o, hi⟩ := isMma_of_admitted h
  refine ⟨fun hall => ⟨fun ⟨t, ht⟩ => enabledAt_of_exec_next ht, fun ⟨p, hp⟩ => exec_done hi h hp (hall q o hi)⟩,
    fun he => ⟨exec_stuck h he, ?_⟩⟩
  rintro hr ⟨l, hl⟩
  obtain ⟨is, his⟩ := State.refusal_eq_none.1 hr
  have hex : s.allExited = false := by
    rw [← Bool.not_eq_true, State.allExited_iff]
    exact fun hx => hl (hx l)
  exact ⟨step_stuck his hex he, fun hfinal => hl (hfinal.1 l)⟩

/-- Settles O33: of the three outcomes an unwritten source leaves the fault, whose state is `markFaulted`. -/
theorem unwrittenSourceFaults : Obligations.UnwrittenSourceFaults := by
  rintro i q o s p hi h hp ⟨l₀, r₀, hr₀, hnone⟩
  rcases exec_admitted_cases hi h with ⟨hn, -⟩ | ⟨p', hp', ⟨l, r, hu, hx⟩ | ⟨hall, -⟩⟩
  · exact absurd hp (hn p)
  · cases hp.unique hp'
    refine ⟨l, r, _, State.firstUnwritten_eq_some hu, hx, State.markFaulted_setup s, fun m => ?_⟩
    rw [State.markFaulted_threads]
    exact ⟨rfl, rfl, State.markFaulted_readReg s m⟩
  · have held := hall l₀ r₀ hr₀
    rw [hnone] at held
    cases held

theorem not_enabledAt_of_faulted {s : State} {l : Lane} (h : s.threads[l].status = .faulted) (p : Nat) :
    ¬ EnabledAt s p := fun hp => by
  cases h.symm.trans (hp l).1

/-- Settles O34: the fault leaves `markFaulted`, a faulted thread keeps a state from being enabled and from being final,
and a refusal mark is all the step looks at. -/
theorem marksPersist : Obligations.MarksPersist := by
  refine ⟨fun i s l r p after h m => ?fault, fun s l hl => ⟨fun i t h => ?exec, fun t h => ?step, fun hfinal => ?final⟩,
    fun s r h => ⟨step_refused (State.refusal_eq_some.1 h), fun hfinal => ?mark⟩⟩
  case fault => rw [(exec_unwritten h).2, State.markFaulted_threads]
  case exec =>
    obtain ⟨p, hp⟩ := enabledAt_of_exec_next h
    exact not_enabledAt_of_faulted hl p hp
  case step =>
    obtain ⟨p, hp⟩ := enabledAt_of_step_next h
    exact not_enabledAt_of_faulted hl p hp
  case final => cases hl.symm.trans (hfinal.1 l)
  case mark => cases h.symm.trans hfinal.2

/-- Settles O35: the step is refused as the program's decoding is, and that fails at the first refused statement. -/
theorem firstRefusedStatementIsReported : Obligations.FirstRefusedStatementIsReported := by
  intro s r
  rw [step_eq_refused, State.instrs, loadFrom_eq_error]
  simp only [Nat.zero_add, FirstRefused]
  constructor
  · rintro ⟨k, why, rfl, t, ht, hw, hbefore⟩
    exact ⟨k, t, why, rfl, ht, hw, hbefore⟩
  · rintro ⟨k, t, why, rfl, ht, hw, hbefore⟩
    exact ⟨k, why, rfl, t, ht, hw, hbefore⟩

/-- Settles O36: the instruction at the common statement is the one the statement decodes to. -/
theorem stepRunsTheDecodedInstruction : Obligations.StepRunsTheDecodedInstruction := by
  intro s p t i hr hp ht hd
  obtain ⟨is, his⟩ := State.refusal_eq_none.1 hr
  obtain ⟨i', hi', hd', -⟩ := instr_of_statement his ht
  cases hd.symm.trans hd'
  exact step_eq_exec his hp hi'

end Sys2Proof.Machine

/-! SUPPORT. Proofs about completed steps and runs, the launch, and the invariant (`10_state.md` R21 to R33,
`70_reset_and_hazards.md` R215 to R221, `60_exceptions.md` R192, R205). -/

namespace Sys2Proof.Machine

/-! ## Declared registers -/

/-- A register with a number has a declaration there, and its type. -/
theorem declaration_of_regIndex {ds : List Decl} {r : RegName} {j : Nat} (h : regIndex ds r = some j) :
    ∃ ty, typeOf ds r = some ty ∧ ds[j]? = some (r, ty) := by
  have hj : j < ds.length := by
    unfold regIndex at h
    split_ifs at h
    exact (List.findIdx?_eq_some_iff_getElem.1 h).1
  have hty : typeOf ds r = some ds[j].2 := by simp [typeOf, h, hj]
  obtain ⟨j', hj', hd⟩ := typeOf_eq_some hty
  cases h.symm.trans hj'
  exact ⟨_, hty, hd⟩

/-- The name of the lane number is no register, whatever is declared (R24). -/
theorem regIndex_laneidName (ds : List Decl) : regIndex ds laneidName = none := by simp [regIndex]

theorem typeOf_laneidName (ds : List Decl) : typeOf ds laneidName = none := by simp [typeOf, regIndex_laneidName]

/-! ## A completed instruction -/

theorem unchanged_commit (s : State) (d : Vec) (val : Lane → Nat → Value) : Unchanged s (s.commit d val) d :=
  ⟨State.commit_setup s d val, fun l _ hr => State.commit_readReg_of_not_mem s d val l hr⟩

theorem advanced_commit {s : State} {p : Nat} (h : EnabledAt s p) (d : Vec) (val : Lane → Nat → Value) :
    Advanced s (s.commit d val) p := by
  intro l
  rw [State.commit_pc, State.commit_status, (h l).2]
  exact ⟨rfl, rfl⟩

theorem regIndex_isSome_of_widthRole {ds : List Decl} {v : Vec} {n : Nat} {ty : RegType} (h : WidthRole ds v n ty)
    {r : RegName} (hr : r ∈ v) : (regIndex ds r).isSome = true := by
  obtain ⟨ty', hty, -⟩ := h.2 r hr
  obtain ⟨j, hj, -⟩ := typeOf_eq_some hty
  simp [hj]

/-- After an admitted `mma` register `j` of its destination holds the new value `j`. -/
theorem readReg_commit_of_admitted {i : Instr} {q : Quals} {o : Operands} {s : State} (hi : IsMma i q o)
    (h : i.refusal s.setup.params s.setup.decls = none) (val : Lane → Nat → Value) (l : Lane) {j : Nat}
    (hj : j < o.d.length) : (s.commit o.d val).readReg l o.d[j] = some (val l j) := by
  obtain ⟨hd, -, -, -, hn⟩ := operands_of_admitted hi h
  exact State.commit_readReg s o.d val l hn j hj (regIndex_isSome_of_widthRole hd (List.getElem_mem hj))

/-- Settles O37: what `step_next` and `exec_next` say of a step that goes on, with the frame of `commit`. -/
theorem stepAdvancesEveryThreadByOne : Obligations.StepAdvancesEveryThreadByOne := by
  intro s t h
  obtain ⟨is, p, i, his, hp, hpi, hx⟩ := step_next h
  obtain ⟨u, hu, hadm⟩ := statement_of_instr his hpi
  obtain ⟨q, o, _, _, _, _, hi, hr, -, -, rfl⟩ := exec_next hx
  refine ⟨p, u, i, q, o, hp, hu, hadm, hi, hx, advanced_commit hp _ _, unchanged_commit _ _ _, fun l r hmem => ?_⟩
  obtain ⟨j, hj, rfl⟩ := List.getElem_of_mem hmem
  rw [readReg_commit_of_admitted hi hr _ l hj, Option.isSome_some]

/-! ## Runs -/

/-- What a completed step leaves for the next one. -/
theorem step_next_advanced {s t : State} (h : step s = .next t) :
    ∃ p, EnabledAt s p ∧ p < s.setup.program.length ∧ Advanced s t p ∧ t.setup = s.setup ∧ s.refusal = none := by
  obtain ⟨p, u, i, q, o, hp, hu, -, -, -, hadv, hun, -⟩ := stepAdvancesEveryThreadByOne s t h
  obtain ⟨is, _, _, his, _⟩ := step_next h
  exact ⟨p, hp, (List.getElem?_eq_some_iff.1 hu).1, hadv, hun.1, State.refusal_eq_none.2 ⟨is, his⟩⟩

/-- A run that completes begins with a step that does. -/
theorem run_succ_next {M : Host.Core} {n : Nat} {s t : M.State} (h : M.run (n + 1) s = .next t) :
    ∃ u, M.step s = .next u ∧ M.run n u = .next t := by
  rw [Host.Core.run] at h
  split at h
  · rename_i u hu
    exact ⟨u, hu, h⟩
  · cases h
  · cases h

/-- A run of `n + 1` steps from statement `p` ends as a step from statement `p + n` would, and there is that statement. -/
theorem run_advanced {n : Nat} {s t : State} {p : Nat} (hp : EnabledAt s p)
    (h : Sys2Proof.core.run (n + 1) s = .next t) :
    p + n < s.setup.program.length ∧ t.setup = s.setup ∧ Advanced s t (p + n) := by
  induction n generalizing s p with
  | zero =>
    obtain ⟨u, hu, ht⟩ := run_succ_next h
    cases ht
    obtain ⟨p', hp', hlt, hadv, hsetup, -⟩ := step_next_advanced hu
    cases hp.unique hp'
    exact ⟨hlt, hsetup, hadv⟩
  | succ n ih =>
    obtain ⟨u, hu, ht⟩ := run_succ_next h
    obtain ⟨p', hp', hlt, hadv, hsetup, -⟩ := step_next_advanced hu
    cases hp.unique hp'
    obtain ⟨v, hv, -⟩ := run_succ_next ht
    obtain ⟨p₁, hp₁⟩ := enabledAt_of_step_next hv
    have hnext : p₁ = p + 1 := (hp₁ 0).2.symm.trans (hadv 0).1
    obtain ⟨hlt', hsetup', hadv'⟩ := ih (hnext ▸ hp₁) ht
    rw [Nat.add_right_comm] at hlt' hadv'
    unfold Advanced at hadv'
    rw [hsetup] at hadv'
    exact ⟨hsetup ▸ hlt', hsetup'.trans hsetup, hadv'⟩

/-- Settles O40: `n` steps end past statement `n - 1`, counted from where the run began. -/
theorem runsAreFinite : Obligations.RunsAreFinite := by
  intro s t n h
  cases n with
  | zero => exact Nat.zero_le _
  | succ n =>
    obtain ⟨u, hu, -⟩ := run_succ_next h
    obtain ⟨p, hp⟩ := enabledAt_of_step_next hu
    have := (run_advanced hp h).1
    omega

theorem enabledAt_launch (su : Setup) (inputs : List (Lane × RegName × Value)) :
    EnabledAt (State.launch su inputs) 0 := by
  intro l
  rw [State.launch_threads]
  exact ⟨rfl, rfl⟩

/-- Settles O41: the run advances from statement 0 past the last one, under one configuration. -/
theorem completedRunIsFinal : Obligations.CompletedRunIsFinal := by
  intro su inputs t hne h
  obtain ⟨n, hn⟩ := Nat.exists_eq_succ_of_ne_zero (List.length_pos_iff.2 hne).ne'
  rw [hn] at h ⊢
  obtain ⟨-, hsetup, hadv⟩ := run_advanced (enabledAt_launch su inputs) h
  obtain ⟨u, hu, -⟩ := run_succ_next h
  obtain ⟨-, -, -, -, -, hrefusal⟩ := step_next_advanced hu
  obtain ⟨is, his⟩ := State.refusal_eq_none.1 hrefusal
  have hexited : ∀ l : Lane, t.threads[l].status = .exited := fun l => by
    rw [(hadv l).2, if_pos (by rw [State.launch_setup, hn, Nat.zero_add])]
  have hinstrs : t.instrs = .ok is := (State.instrs_congr hsetup).trans his
  exact ⟨⟨hexited, State.refusal_eq_none.2 ⟨is, hinstrs⟩⟩, fun l => by rw [(hadv l).1, Nat.zero_add],
    step_of_allExited hinstrs (State.allExited_iff.2 hexited)⟩

/-! ## Launch and reset -/

/-- The effect of one input on the registers of its lane. -/
def setInput (ds : List Decl) (l : Lane) (rf : RegFile) (x : Lane × RegName × Value) : RegFile :=
  if x.1 = l then ((regIndex ds x.2.1).map (fun j => rf.write j x.2.2)).getD rf else rf

theorem launchRegs_eq_foldl (ds : List Decl) (l : Lane) (inputs : List (Lane × RegName × Value)) :
    launchRegs ds l inputs = inputs.foldl (setInput ds l) [] := by
  unfold launchRegs
  congr 1
  funext rf x
  unfold setInput
  cases regIndex ds x.2.1 <;> rfl

/-- An input is seen by the register of its lane that it names. -/
theorem read_setInput {ds : List Decl} {r : RegName} {j : Nat} (hr : regIndex ds r = some j) (l : Lane) (rf : RegFile)
    (x : Lane × RegName × Value) :
    (setInput ds l rf x).read j = if x.1 = l ∧ x.2.1 = r then some x.2.2 else rf.read j := by
  unfold setInput
  by_cases hl : x.1 = l
  · cases hx : regIndex ds x.2.1 with
    | none =>
      have hne : x.2.1 ≠ r := fun e => by rw [e, hr] at hx; cases hx
      simp [hl, hne]
    | some k =>
      have hk : j = k ↔ x.2.1 = r :=
        ⟨fun e => regIndex_inj hx (e ▸ hr), fun e => by rw [e, hr] at hx; exact Option.some.inj hx⟩
      simp [hl, hk]
  · simp [hl]

/-- A declared register of a lane holds at launch what the last input that names it says (R31, R216). -/
theorem read_launchRegs {ds : List Decl} {r : RegName} {j : Nat} (hr : regIndex ds r = some j) (l : Lane)
    (inputs : List (Lane × RegName × Value)) :
    (launchRegs ds l inputs).read j =
      (inputs.reverse.find? (fun x => decide (x.1 = l ∧ x.2.1 = r))).map (fun x => x.2.2) := by
  rw [launchRegs_eq_foldl]
  induction inputs using List.reverseRecOn with
  | nil => rfl
  | append_singleton xs x ih =>
    rw [List.foldl_concat, read_setInput hr, List.reverse_concat, List.find?_cons, ih]
    by_cases h : x.1 = l ∧ x.2.1 = r <;> simp [h]

/-- Settles O1: the threads of a launch by its definition, a register by the last input that names it. -/
theorem launchHoldsItsInputs : Obligations.LaunchHoldsItsInputs := by
  intro su inputs
  refine ⟨rfl, enabledAt_launch su inputs, fun l r => ?_⟩
  rw [State.readReg, State.launch_setup, State.launch_threads]
  cases hr : regIndex su.decls r with
  | none => rfl
  | some j => exact read_launchRegs hr l inputs

theorem reset_eq_launch : State.reset = State.launch emptySetup [] :=
  State.ext_lanes rfl fun l => by rw [State.reset_threads, State.launch_threads]; rfl

/-- Settles O2: reset is the launch of a program whose statement 0 is already past the end. -/
theorem resetIsTheEmptyLaunch : Obligations.ResetIsTheEmptyLaunch := by
  have henabled : EnabledAt State.reset 0 := reset_eq_launch ▸ enabledAt_launch emptySetup []
  have hinstrs : State.reset.instrs = .ok [] := rfl
  have htype : ∀ r, typeOf State.reset.setup.decls r = none := fun r => by
    simp [typeOf, regIndex, State.reset_setup, emptySetup]
  exact ⟨reset_eq_launch, henabled, htype, State.refusal_eq_none.2 ⟨_, hinstrs⟩, step_past_end hinstrs henabled rfl⟩

theorem toNat_laneid (s : State) (l : Lane) : (s.laneid l).toNat = l.val := by
  simp only [State.laneid, laneNumber, BitVec.toNat_ofNat]
  exact Nat.mod_eq_of_lt (l.isLt.trans (by decide))

/-- Settles O3: the lane number is the thread's position, the same in every state. -/
theorem laneIdentity : Obligations.LaneIdentity := by
  refine ⟨fun s => ⟨fun l => ?_, fun l m h => ?_, fun n hn => ⟨⟨n, hn⟩, toNat_laneid s _⟩⟩, fun _ _ _ _ => rfl,
    typeOf_laneidName⟩
  · rw [toNat_laneid]
    exact l.isLt
  · have same := congrArg BitVec.toNat h
    rw [toNat_laneid, toNat_laneid] at same
    exact Fin.ext same

/-! ## The invariant -/

theorem regsWf_nil (ds : List Decl) : RegsWf ds [] := ⟨RegFile.wf_nil, fun _ h => by cases h⟩

/-- Writing a value of its declared type's width keeps a register file canonical and typed. -/
theorem regsWf_write {ds : List Decl} {rf : RegFile} {j : Nat} {v : Value} {d : Decl} (h : RegsWf ds rf)
    (hd : ds[j]? = some d) (hw : v.width = d.2.width) : RegsWf ds (rf.write j v) := by
  refine ⟨RegFile.wf_write h.1 j v, fun x hx => ?_⟩
  rcases RegFile.mem_write hx with rfl | hx
  · exact ⟨d, hd, hw⟩
  · exact h.2 x hx

/-- So does writing a vector of declared registers with values of one width. -/
theorem regsWf_writeVec {ds : List Decl} {rf : RegFile} {v : Vec} {n : Nat} {ty : RegType} {val : Nat → Value}
    (h : RegsWf ds rf) (hv : WidthRole ds v n ty) (hval : ∀ j, (val j).width = ty.width) :
    RegsWf ds (RegFile.writeVec ds rf v val) := by
  refine ⟨RegFile.wf_writeVec h.1 ds v val, fun x hx => ?_⟩
  rcases RegFile.mem_writeVec hx with hx | ⟨i, hi, hj, hx⟩
  · exact h.2 x hx
  · obtain ⟨ty', hty, hw⟩ := hv.2 _ (List.getElem_mem hi)
    obtain ⟨j, hj', hd⟩ := typeOf_eq_some hty
    cases hj.symm.trans hj'
    exact ⟨_, hd, by rw [hx, hval, hw]⟩

theorem regsWf_setInput {ds : List Decl} {l : Lane} {rf : RegFile} {x : Lane × RegName × Value} (h : RegsWf ds rf)
    (hx : ∀ ty, typeOf ds x.2.1 = some ty → x.2.2.width = ty.width) : RegsWf ds (setInput ds l rf x) := by
  unfold setInput
  split
  · cases hj : regIndex ds x.2.1 with
    | none => exact h
    | some j =>
      obtain ⟨ty, hty, hd⟩ := declaration_of_regIndex hj
      exact regsWf_write h hd (hx ty hty)
  · exact h

theorem regsWf_launchRegs {ds : List Decl} (l : Lane) {inputs : List (Lane × RegName × Value)}
    (h : ∀ x ∈ inputs, ∀ ty, typeOf ds x.2.1 = some ty → x.2.2.width = ty.width) :
    RegsWf ds (launchRegs ds l inputs) := by
  rw [launchRegs_eq_foldl]
  exact List.foldlRecOn inputs _ (regsWf_nil ds) fun rf hrf x hx => regsWf_setInput hrf (h x hx)

/-- Threads that are `running` at one statement stand together, if there is that statement or no statement at all. -/
theorem together_of_enabledAt {s : State} {p : Nat} (h : EnabledAt s p)
    (hp : p < s.setup.program.length ∨ (p = 0 ∧ s.setup.program = [])) : Together s :=
  ⟨p, .running, fun l => ⟨(h l).2, (h l).1⟩, nofun, fun _ => hp⟩

/-- Where threads stand together and one statement is common to all, the program has it or is empty. -/
theorem Together.statement {s : State} {p : Nat} (h : Together s) (hp : EnabledAt s p) :
    p < s.setup.program.length ∨ (p = 0 ∧ s.setup.program = []) := by
  obtain ⟨p', st, hall, -, hst⟩ := h
  have hpc : p = p' := (hp 0).2.symm.trans (hall 0).1
  have hrun : st = .running := (hall 0).2.symm.trans (hp 0).1
  rw [hpc]
  exact hst (by rw [hrun]; exact nofun)

/-- Settles O46: the inputs keep the registers typed one after another, and a launch stands at statement 0. -/
theorem invariantAtLaunch : Obligations.InvariantAtLaunch := by
  intro su inputs h
  refine ⟨fun l => ?_, together_of_enabledAt (enabledAt_launch su inputs) ?_⟩
  · rw [State.launch_setup, State.launch_threads]
    exact regsWf_launchRegs l h
  · rw [State.launch_setup, List.length_pos_iff]
    exact (em (su.program = [])).elim (fun h => .inr ⟨rfl, h⟩) .inl

/-- Settles O45: reset is a launch without inputs. -/
theorem invariantAtReset : Obligations.InvariantAtReset := by
  rw [Obligations.InvariantAtReset, reset_eq_launch]
  exact invariantAtLaunch emptySetup [] fun _ h => by cases h

/-- A completed advance from a statement of the program leaves the threads together. -/
theorem together_of_advanced {s t : State} {p : Nat} (hsetup : t.setup = s.setup) (hp : p < s.setup.program.length)
    (h : Advanced s t p) : Together t := by
  by_cases hend : s.setup.program.length ≤ p + 1
  · refine ⟨p + 1, .exited, fun l => ⟨(h l).1, by rw [(h l).2, if_pos hend]⟩, fun _ => ?_, fun e => absurd rfl e⟩
    rw [hsetup]
    omega
  · refine ⟨p + 1, .running, fun l => ⟨(h l).1, by rw [(h l).2, if_neg hend]⟩, nofun, fun _ => .inl ?_⟩
    rw [hsetup]
    omega

/-- Settles O47: the step writes one vector of its role's width in each lane, and moves all threads by one statement. -/
theorem invariantKeptByEveryStep : Obligations.InvariantKeptByEveryStep := by
  intro s t hinv h
  obtain ⟨p, -, hlt, hadv, hsetup, -⟩ := step_next_advanced h
  obtain ⟨_, _, i, _, _, _, hx⟩ := step_next h
  obtain ⟨q, o, _, _, _, _, hi, hr, -, -, rfl⟩ := exec_next hx
  refine ⟨fun l => ?_, together_of_advanced hsetup hlt hadv⟩
  rw [State.commit_setup, State.commit_regs]
  exact regsWf_writeVec (hinv.1 l) (operands_of_admitted hi hr).1 fun j => packRegister_width _ _ _ j

/-- Settles O48: the fault changes no register, and marks threads that stand together. -/
theorem invariantKeptByTheFault : Obligations.InvariantKeptByTheFault := by
  intro s l r p after hinv h
  obtain ⟨i, hx⟩ := step_unwritten h
  obtain ⟨hp, rfl⟩ := exec_unwritten hx
  refine ⟨fun l => ?_, p, .faulted, fun l => ?_, nofun, fun _ => ?_⟩
  · rw [State.markFaulted_setup, State.markFaulted_threads]
    exact hinv.1 l
  · rw [State.markFaulted_threads]
    exact ⟨(hp l).2, rfl⟩
  · rw [State.markFaulted_setup]
    exact hinv.2.statement hp

end Sys2Proof.Machine

/-! SUPPORT. Proofs about the eleven checks (`30_encoding.md` R63 to R65, `60_exceptions.md` R194), the statements they
refuse (`45_named_not_described.md` R185 to R189), what the decoder gives, and a statement placed at reset. -/

namespace Sys2Proof

open Machine

/-! ## Each check, passed -/

section
variable {p : Params} {ds : List Decl} {t : MmaTerm}

theorem checkQualifiers_eq_none : checkQualifiers t = none ↔ t.sync = true ∧ t.aligned = true := by
  simp [checkQualifiers]

theorem checkShapeKnown_eq_none :
    checkShapeKnown t = none ↔ t.shape = .m8n8k4 ∨ t.shape = .m8n8k16 ∨ t.shape = .m8n8k32 := by
  unfold checkShapeKnown
  cases t.shape <;> simp

/-- The type combinations of R63, one line for each of its four kinds of form. -/
def MmaTerm.TypeRow (t : MmaTerm) : Prop :=
  (t.shape = .m8n8k4 ∧ t.atype = .f16 ∧ t.btype = .f16 ∧ (t.ctype = .f16 ∨ t.ctype = .f32) ∧
      (t.dtype = .f16 ∨ t.dtype = .f32)) ∨
    (t.shape = .m8n8k4 ∧ t.atype = .f64 ∧ t.btype = .f64 ∧ t.ctype = .f64 ∧ t.dtype = .f64) ∨
    (t.shape = .m8n8k16 ∧ (t.atype = .s8 ∨ t.atype = .u8) ∧ (t.btype = .s8 ∨ t.btype = .u8) ∧
      t.ctype = .s32 ∧ t.dtype = .s32) ∨
    (t.shape = .m8n8k32 ∧ (t.atype = .s4 ∨ t.atype = .u4) ∧ (t.btype = .s4 ∨ t.btype = .u4) ∧
      t.ctype = .s32 ∧ t.dtype = .s32)

theorem checkTypeCombo_eq_none : checkTypeCombo t = none ↔ t.extraQualifier = false ∧ t.TypeRow := by
  have combo : typeComboOk t.shape t.atype t.btype t.ctype t.dtype = true ↔ t.TypeRow := by
    unfold MmaTerm.TypeRow typeComboOk
    cases t.shape <;> simp [and_assoc]
  rw [← combo]
  simp [checkTypeCombo, and_comm]

theorem checkMixedCd_eq_none :
    checkMixedCd p t = none ↔
      (t.shape = .m8n8k4 → t.atype = .f16 → t.ctype = t.dtype ∨ p.admitMixedCd = true) := by
  simp only [checkMixedCd, ite_eq_right_iff, reduceCtorEq, imp_false, Bool.and_eq_true, beq_iff_eq, bne_iff_ne,
    Bool.not_eq_true']
  grind

theorem checkMixedSign_eq_none :
    checkMixedSign p t = none ↔
      (t.shape = .m8n8k16 ∨ t.shape = .m8n8k32 → t.atype.signed = t.btype.signed ∨ p.admitMixedSign = true) := by
  simp only [checkMixedSign, ite_eq_right_iff, reduceCtorEq, imp_false, Bool.and_eq_true, Bool.or_eq_true, beq_iff_eq,
    bne_iff_ne, Bool.not_eq_true']
  grind

theorem checkLayout_eq_none :
    checkLayout t = none ↔
      t.alayout.isSome = true ∧ t.blayout.isSome = true ∧
        ((t.shape = .m8n8k4 ∧ t.atype = .f16) ∨ (t.alayout = some .row ∧ t.blayout = some .col)) := by
  simp only [checkLayout, ite_eq_left_iff, reduceCtorEq, imp_false, not_not, Bool.and_eq_true, Bool.or_eq_true,
    beq_iff_eq, and_assoc]

theorem checkSatfinite_eq_none :
    checkSatfinite t = none ↔ (t.satfinite = true → t.shape = .m8n8k16 ∨ t.shape = .m8n8k32) := by
  simp only [checkSatfinite, ite_eq_right_iff, reduceCtorEq, imp_false, Bool.and_eq_true, Bool.not_eq_true']
  grind

theorem checkNoGuard_eq_none : checkNoGuard t = none ↔ t.guarded = false := by simp [checkNoGuard]

/-- An operand has its role's length and types exactly where it is a vector of registers declared so. -/
theorem operand_fits_iff {o : Operand} {n : Nat} {ty : RegType} :
    o.hasLength n = true ∧ firstMistyped p ds o ty = none ↔
      ∃ v, o = .regs v ∧ v.length = n ∧
        ∀ r ∈ v, (typeOf ds r).any (fun ty' => RegType.fits p.admitUntyped ty' ty) = true := by
  rw [Operand.hasLength_iff, firstMistyped_eq_none]
  constructor
  · rintro ⟨⟨v, rfl, hlen, -⟩, htyped⟩
    exact ⟨v, rfl, hlen, fun r hr => (Option.any_eq_true _ _).2 (htyped r hr)⟩
  · rintro ⟨v, rfl, hlen, hany⟩
    have htyped := fun r hr => (Option.any_eq_true _ _).1 (hany r hr)
    refine ⟨⟨v, rfl, hlen, fun r hr => ?_⟩, htyped⟩
    obtain ⟨ty', hty, -⟩ := htyped r hr
    exact legal_of_typeOf hty

/-- The three checks of the operands together (R63, R64, R91 (b)). -/
theorem operand_checks_eq_none :
    (checkOperandShape t = none ∧ checkOperandType p ds t = none ∧ checkDestDistinct t = none) ↔
      ∃ d a b c : Vec, t.d = .regs d ∧ t.a = .regs a ∧ t.b = .regs b ∧ t.c = .regs c ∧ t.extraOperand = false ∧
        d.length = t.roles.d.1 ∧ a.length = t.roles.a.1 ∧ b.length = t.roles.b.1 ∧ c.length = t.roles.c.1 ∧
        (∀ r ∈ d, (typeOf ds r).any (fun ty => RegType.fits p.admitUntyped ty t.roles.d.2) = true) ∧
        (∀ r ∈ a, (typeOf ds r).any (fun ty => RegType.fits p.admitUntyped ty t.roles.a.2) = true) ∧
        (∀ r ∈ b, (typeOf ds r).any (fun ty => RegType.fits p.admitUntyped ty t.roles.b.2) = true) ∧
        (∀ r ∈ c, (typeOf ds r).any (fun ty => RegType.fits p.admitUntyped ty t.roles.c.2) = true) ∧ d.Nodup := by
  rw [checkOperandShape_eq_none, checkOperandType_eq_none, checkDestDistinct, Option.map_eq_none_iff,
    firstRepeated_eq_none]
  constructor
  · rintro ⟨⟨ld, la, lb, lc, hx⟩, ⟨td, ta, tb, tc⟩, hn⟩
    obtain ⟨d, hd, ld, td⟩ := operand_fits_iff.1 ⟨ld, td⟩
    obtain ⟨a, ha, la, ta⟩ := operand_fits_iff.1 ⟨la, ta⟩
    obtain ⟨b, hb, lb, tb⟩ := operand_fits_iff.1 ⟨lb, tb⟩
    obtain ⟨c, hc, lc, tc⟩ := operand_fits_iff.1 ⟨lc, tc⟩
    rw [hd] at hn
    exact ⟨d, a, b, c, hd, ha, hb, hc, hx, ld, la, lb, lc, td, ta, tb, tc, hn⟩
  · rintro ⟨d, a, b, c, hd, ha, hb, hc, hx, ld, la, lb, lc, td, ta, tb, tc, hn⟩
    obtain ⟨ld, td⟩ := operand_fits_iff.2 ⟨d, hd, ld, td⟩
    obtain ⟨la, ta⟩ := operand_fits_iff.2 ⟨a, ha, la, ta⟩
    obtain ⟨lb, tb⟩ := operand_fits_iff.2 ⟨b, hb, lb, tb⟩
    obtain ⟨lc, tc⟩ := operand_fits_iff.2 ⟨c, hc, lc, tc⟩
    rw [hd] at *
    exact ⟨⟨ld, la, lb, lc, hx⟩, ⟨td, ta, tb, tc⟩, hn⟩

theorem MmaTerm.TypeRow.shape_of_f16 (h : t.TypeRow) (hf : t.atype = .f16) : t.shape = .m8n8k4 := by
  rcases h with ⟨hs, -⟩ | ⟨hs, -⟩ | ⟨-, ha, -⟩ | ⟨-, ha, -⟩
  · exact hs
  · exact hs
  · simp [hf] at ha
  · simp [hf] at ha

end

/-- Settles O29: the eleven checks passed, each by its own `↔`. -/
theorem admittedIffEveryCheckPasses : Obligations.AdmittedIffEveryCheckPasses := by
  intro p ds t
  rw [MmaTerm.check_eq_none, checkQualifiers_eq_none, checkShapeKnown_eq_none, checkTypeCombo_eq_none,
    checkMixedCd_eq_none, checkMixedSign_eq_none, checkLayout_eq_none, checkSatfinite_eq_none, checkNoGuard_eq_none]
  constructor
  · rintro ⟨hq, hs, ⟨hx, hrow⟩, hcd, hsign, ⟨hal, hbl, hl⟩, hsat, hos, hot, hdd, hg⟩
    refine ⟨hq, hs, ⟨hx, hrow⟩, fun hf => hcd (hrow.shape_of_f16 hf) hf, hsign, ⟨hal, hbl, fun hf => ?_⟩, hsat,
      operand_checks_eq_none.1 ⟨hos, hot, hdd⟩, hg⟩
    exact hl.resolve_left fun h => hf h.2
  · rintro ⟨hq, hs, ⟨hx, hrow⟩, hcd, hsign, ⟨hal, hbl, hl⟩, hsat, ho, hg⟩
    obtain ⟨hos, hot, hdd⟩ := operand_checks_eq_none.2 ho
    refine ⟨hq, hs, ⟨hx, hrow⟩, fun _ => hcd, hsign, ⟨hal, hbl, ?_⟩, hsat, hos, hot, hdd, hg⟩
    exact (em (t.atype = .f16)).imp (fun hf => ⟨MmaTerm.TypeRow.shape_of_f16 hrow hf, hf⟩) hl

/-! ## Each check, failed -/

theorem findSome?_id_cons {α : Type} (x : Option α) (xs : List (Option α)) :
    (x :: xs).findSome? id = x.or (xs.findSome? id) := by
  cases x <;> rfl

/-- Settles O30: the check of a term is the first answer in the list of the eleven checks. -/
theorem firstFailingCheckIsReported : Obligations.FirstFailingCheckIsReported := by
  intro p ds t why
  have first : t.check p ds = List.findSome? id
      [checkQualifiers t, checkShapeKnown t, checkTypeCombo t, checkMixedCd p t, checkMixedSign p t, checkLayout t,
        checkSatfinite t, checkOperandShape t, checkOperandType p ds t, checkDestDistinct t, checkNoGuard t] := by
    simp only [findSome?_id_cons, List.findSome?_nil, Option.or_none, MmaTerm.check]
  rw [first, List.findSome?_eq_some_iff]
  constructor
  · rintro ⟨before, x, after, hl, rfl, hnone⟩
    exact ⟨before, after, hl, hnone⟩
  · rintro ⟨before, after, hl, hnone⟩
    exact ⟨before, some why, after, hl, rfl, hnone⟩

theorem checkQualifiers_cases (t : MmaTerm) : checkQualifiers t = none ∨ checkQualifiers t = some .qualifiers := by
  unfold checkQualifiers; split <;> simp

theorem checkShapeKnown_cases (t : MmaTerm) :
    checkShapeKnown t = none ∨ ∃ shape, checkShapeKnown t = some (.shapeKnown shape) := by
  unfold checkShapeKnown; split <;> simp

theorem checkTypeCombo_cases (t : MmaTerm) : checkTypeCombo t = none ∨ checkTypeCombo t = some .typeCombo := by
  unfold checkTypeCombo; split <;> simp

theorem checkLayout_cases (t : MmaTerm) : checkLayout t = none ∨ checkLayout t = some .layout := by
  unfold checkLayout; split <;> simp

theorem checkSatfinite_cases (t : MmaTerm) : checkSatfinite t = none ∨ checkSatfinite t = some .satfinite := by
  unfold checkSatfinite; split <;> simp

/-! ## The 33 forms are all that passes (R66, R188) -/

/-- The qualifiers of a term whose layout fields are these. -/
def MmaTerm.quals (t : MmaTerm) (al bl : Layout) : Quals :=
  ⟨t.shape, al, bl, t.satfinite, t.dtype, t.atype, t.btype, t.ctype⟩

theorem mem_rows_f16 (al bl : Layout) {c d : ElemType} (hc : c = .f16 ∨ c = .f32) (hd : d = .f16 ∨ d = .f32) :
    (⟨.m8n8k4, al, bl, false, d, .f16, .f16, c⟩ : Quals) ∈ mmaRows.map Prod.fst := by
  rcases hc with rfl | rfl <;> rcases hd with rfl | rfl <;> cases al <;> cases bl <;> decide

theorem mem_rows_k16 (sat : Bool) {a b : ElemType} (ha : a = .s8 ∨ a = .u8) (hb : b = .s8 ∨ b = .u8) :
    (⟨.m8n8k16, .row, .col, sat, .s32, a, b, .s32⟩ : Quals) ∈ mmaRows.map Prod.fst := by
  rcases ha with rfl | rfl <;> rcases hb with rfl | rfl <;> cases sat <;> decide

theorem mem_rows_k32 (sat : Bool) {a b : ElemType} (ha : a = .s4 ∨ a = .u4) (hb : b = .s4 ∨ b = .u4) :
    (⟨.m8n8k32, .row, .col, sat, .s32, a, b, .s32⟩ : Quals) ∈ mmaRows.map Prod.fst := by
  rcases ha with rfl | rfl <;> rcases hb with rfl | rfl <;> cases sat <;> decide

/-- A term that passes the checks of its types, its layouts and `.satfinite` has the qualifiers of one of the 33 forms. -/
theorem row_of_checks {t : MmaTerm} (ht : checkTypeCombo t = none) (hl : checkLayout t = none)
    (hs : checkSatfinite t = none) :
    t.extraQualifier = false ∧
      ∃ al bl, t.alayout = some al ∧ t.blayout = some bl ∧ t.quals al bl ∈ mmaRows.map Prod.fst := by
  obtain ⟨hx, hrow⟩ := checkTypeCombo_eq_none.1 ht
  obtain ⟨hal, hbl, hlayout⟩ := checkLayout_eq_none.1 hl
  rw [checkSatfinite_eq_none] at hs
  obtain ⟨al, hal⟩ := Option.isSome_iff_exists.1 hal
  obtain ⟨bl, hbl⟩ := Option.isSome_iff_exists.1 hbl
  refine ⟨hx, al, bl, hal, hbl, ?_⟩
  have rowcol : t.atype ≠ .f16 → al = .row ∧ bl = .col := by
    intro hf
    obtain ⟨h1, h2⟩ := hlayout.resolve_left fun h => hf h.2
    exact ⟨Option.some.inj (hal.symm.trans h1), Option.some.inj (hbl.symm.trans h2)⟩
  have nosat : t.shape = .m8n8k4 → t.satfinite = false := by
    intro hshape
    rw [← Bool.not_eq_true]
    intro h
    simp [hshape] at hs
    simp [hs] at h
  unfold MmaTerm.quals
  rcases hrow with ⟨hshape, ha, hb, hc, hd⟩ | ⟨hshape, ha, hb, hc, hd⟩ | ⟨hshape, ha, hb, hc, hd⟩ |
    ⟨hshape, ha, hb, hc, hd⟩
  · rw [hshape, nosat hshape, ha, hb]
    exact mem_rows_f16 al bl hc hd
  · obtain ⟨rfl, rfl⟩ := rowcol (by rw [ha]; decide)
    rw [hshape, nosat hshape, ha, hb, hc, hd]
    decide
  · obtain ⟨rfl, rfl⟩ := rowcol (by rcases ha with ha | ha <;> rw [ha] <;> decide)
    rw [hshape, hc, hd]
    exact mem_rows_k16 _ ha hb
  · obtain ⟨rfl, rfl⟩ := rowcol (by rcases ha with ha | ha <;> rw [ha] <;> decide)
    rw [hshape, hc, hd]
    exact mem_rows_k32 _ ha hb

/-- Settles O28: of the eleven checks only the four named can be the first to fail, or the term is a form
(`row_of_checks`). -/
theorem everyOtherMmaRefused : Obligations.EveryOtherMmaRefused := by
  intro p ds t hcd hsign hsync haligned hno
  have hq := checkQualifiers_eq_none.2 ⟨hsync, haligned⟩
  have hmc : checkMixedCd p t = none := checkMixedCd_eq_none.2 fun _ _ => .inr hcd
  have hms : checkMixedSign p t = none := checkMixedSign_eq_none.2 fun _ => .inr hsign
  simp only [MmaTerm.check, hq, hmc, hms, Option.none_or]
  rcases checkShapeKnown_cases t with hk | ⟨shape, hk⟩
  · rcases checkTypeCombo_cases t with ht | ht
    · rcases checkLayout_cases t with hl | hl
      · rcases checkSatfinite_cases t with hs | hs
        · obtain ⟨hx, al, bl, hal, hbl, hmem⟩ := row_of_checks ht hl hs
          obtain ⟨x, hx', hquals⟩ := List.mem_map.1 hmem
          refine absurd ?_ (hno x hx')
          rw [hquals]
          exact ⟨rfl, hal, hbl, rfl, rfl, rfl, rfl, rfl, hx⟩
        · simp [hk, ht, hl, hs]
      · simp [hk, ht, hl]
    · simp [hk, ht]
  · exact .inl ⟨shape, by simp [hk]⟩

/-! ## What the decoder gives -/

/-- An admitted term is the term of an instruction of the table. -/
theorem exists_isMma_of_admitted {p : Params} {ds : List Decl} {t : MmaTerm} (h : t.check p ds = none) :
    ∃ i q o, IsMma i q o ∧ q.term o = t := by
  obtain ⟨hq, -, ht, -, -, hl, hs, hos, hot, hdd, hg⟩ := MmaTerm.check_eq_none.1 h
  obtain ⟨hsync, haligned⟩ := checkQualifiers_eq_none.1 hq
  obtain ⟨hx, al, bl, hal, hbl, hmem⟩ := row_of_checks ht hl hs
  obtain ⟨d, a, b, c, hd, ha, hb, hc, hxo, -⟩ := operand_checks_eq_none.1 ⟨hos, hot, hdd⟩
  obtain ⟨x, hx', hquals⟩ := List.mem_map.1 hmem
  refine ⟨x.2 d a b c, x.1, ⟨d, a, b, c⟩, form_of_mem_mmaRows hx' d a b c, ?_⟩
  have hguard := checkNoGuard_eq_none.1 hg
  cases t
  simp_all [MmaTerm.quals, Quals.term]

/-- Settles O44: a term that passes the checks stands in the table, so the decoder's only errors are the term's failing
check and the unknown word. -/
theorem decoderGivesAdmittedInstructions : Obligations.DecoderGivesAdmittedInstructions := by
  intro p ds t
  cases hp : parseStmt t with
  | named n =>
    rw [decode_of_named hp]
    exact ⟨fun i h => .inr ⟨n, by cases h; rfl⟩, nofun⟩
  | unknown w =>
    rw [decode_of_unknown hp]
    exact ⟨nofun, fun why h => .inr ⟨w, rfl, by cases h; rfl⟩⟩
  | mma m =>
    cases hc : m.check p ds with
    | some why =>
      rw [decode_of_rejected hp hc]
      exact ⟨nofun, fun why' h => .inl ⟨m, rfl, by cases h; exact hc⟩⟩
    | none =>
      obtain ⟨i, q, o, hi, rfl⟩ := exists_isMma_of_admitted hc
      rw [decode_of_admitted hp hc (row_of_isMma hi).2.1]
      refine ⟨fun i' h => .inl ?_, nofun⟩
      cases h
      rw [wellFormed_iff, refusal_of_isMma hi, hc]

/-- Settles O42: three closed texts, decoded. -/
theorem spelledStatementsDecode : Obligations.SpelledStatementsDecode := by
  refine ⟨?_, ?_, ?_⟩ <;> decide +kernel

/-! ## Statements by their opcode word (R185 to R189) -/

theorem parseStmt_of_named {t : Text} {n : NamedOnly} (h : opcodeWord t = n.text) : parseStmt t = .named n := by
  unfold opcodeWord at h
  unfold parseStmt
  simp only [h]
  cases n <;> rfl

theorem parseStmt_of_unknown {t : Text} (hm : opcodeWord t ≠ tokMma) (hn : ∀ n : NamedOnly, opcodeWord t ≠ n.text)
    (hw : opcodeWord t ≠ tokWmma) (hg : opcodeWord t ≠ tokWgmma) : parseStmt t = .unknown (opcodeWord t) := by
  have hl := hn .ldmatrix
  have hs := hn .stmatrix
  have hv := hn .movmatrix
  unfold opcodeWord at *
  simp only [parseStmt, hm, hl, hs, hv, hw, hg, or_self, if_false]

/-- `wmma` and `wgmma` are read as an `mma` of no known shape (R188, log entry 8). -/
theorem parseStmt_of_wmma {t : Text} (h : opcodeWord t = tokWmma ∨ opcodeWord t = tokWgmma) :
    ∃ m shape, parseStmt t = .mma m ∧ m.shape = .other shape := by
  unfold opcodeWord at h
  unfold parseStmt
  rcases h with h | h <;> simp only [h] <;> exact ⟨_, _, rfl, rfl⟩

theorem statementRefused_of_named {t : Text} {n : NamedOnly} (h : opcodeWord t = n.text) (su : Setup) :
    StatementRefused su t (.notDescribed n) := by
  refine .inr ⟨n.instr, decode_of_named (parseStmt_of_named h) _ _, ?_⟩
  simp [Instr.refusal, Instr.stmt, NamedOnly.form_instr]

/-- Settles O26: the instruction by its row, the statement by its opcode word, the step by O35. -/
theorem namedInstructionsRefused : Obligations.NamedInstructionsRefused := by
  refine ⟨fun s => ⟨exec_named rfl s, exec_named rfl s, exec_named rfl s⟩, fun n t h =>
    ⟨statementRefused_of_named h, fun s k hk hbefore => ?_⟩⟩
  exact (firstRefusedStatementIsReported s _).2 ⟨k, t, _, rfl, hk, statementRefused_of_named h s.setup, hbefore⟩

/-- Settles O27: the parser's answer to each other word; a shape that is not known fails the second check if not the
first. -/
theorem otherOpcodeWordsRefused : Obligations.OtherOpcodeWordsRefused := by
  intro p ds t hm hn
  refine ⟨fun hw hg => decode_of_unknown (parseStmt_of_unknown hm hn hw hg) p ds, fun h => ?_⟩
  obtain ⟨m, shape, hp, hshape⟩ := parseStmt_of_wmma h
  have hk : checkShapeKnown m = some (.shapeKnown shape) := by simp [checkShapeKnown, hshape]
  rcases checkQualifiers_cases m with hq | hq
  · exact .inr ⟨shape, decode_of_rejected hp (by simp [MmaTerm.check, hq, hk])⟩
  · exact .inl (decode_of_rejected hp (by simp [MmaTerm.check, hq]))

/-! ## The mixed forms and the parameters (R111, R151, R171) -/

theorem exec_mixedCd {i : Instr} {q : Quals} {o : Operands} {s : State} (hp : s.setup.params.admitMixedCd = false)
    (hi : IsMma i q o) (hs : q.shape = .m8n8k4) (ha : q.atype = .f16) (hcd : q.ctype ≠ q.dtype) :
    exec i s = .refused (.rejected s.site .mixedCd) := by
  obtain ⟨-, -, hq, hk, ht, -⟩ := row_of_isMma hi
  have hm : checkMixedCd s.setup.params (q.term o) = some .mixedCd := by simp [checkMixedCd, Quals.term, hp, hs, ha, hcd]
  exact exec_refused (by rw [refusal_of_isMma hi, MmaTerm.check, hq, hk, ht, hm]; rfl)

theorem exec_mixedSign {i : Instr} {q : Quals} {o : Operands} {s : State} (hp : s.setup.params.admitMixedSign = false)
    (hi : IsMma i q o) (hs : q.shape = .m8n8k16 ∨ q.shape = .m8n8k32) (hab : q.atype.signed ≠ q.btype.signed) :
    exec i s = .refused (.rejected s.site .mixedSign) := by
  obtain ⟨-, -, hq, hk, ht, -⟩ := row_of_isMma hi
  have hm : checkMixedCd s.setup.params (q.term o) = none := by
    rcases hs with hs | hs <;> simp [checkMixedCd, Quals.term, hs]
  have hx : checkMixedSign s.setup.params (q.term o) = some .mixedSign := by
    rcases hs with hs | hs <;> simp [checkMixedSign, Quals.term, hp, hs, hab]
  exact exec_refused (by rw [refusal_of_isMma hi, MmaTerm.check, hq, hk, ht, hm, hx]; rfl)

/-- Settles O31: each form by `exec_mixedCd` or `exec_mixedSign` from its row's qualifiers. -/
theorem mixedFormsRefusedByParameter : Obligations.MixedFormsRefusedByParameter := by
  intro d a b c s
  simp only [List.forall_mem_cons, List.not_mem_nil, false_implies, implies_true, and_true]
  refine ⟨fun hp => ?_, fun hp => ?_⟩
  · refine ⟨?_, ?_, ?_, ?_, ?_, ?_, ?_, ?_⟩ <;> exact exec_mixedCd hp rfl rfl rfl (by decide)
  · refine ⟨?_, ?_, ?_, ?_, ?_, ?_, ?_, ?_⟩ <;> exact exec_mixedSign hp rfl (by decide) (by decide)

/-! ## A statement placed at reset (log entries 1 and 10) -/

theorem decode_of_decodeTableWord {nbits w : Nat} {i : Instr} (h : decodeTableWord nbits w = some i) :
    decode Params.default (declareOperands (textOfWord nbits w) []) (textOfWord nbits w) = .ok i := by
  unfold decodeTableWord at h
  simp only at h
  split at h
  · rename_i i' hd
    cases h
    exact hd
  · cases h

theorem enabledAt_loadOne (s : State) (t : Text) : EnabledAt (s.loadOne t) 0 := by
  intro l
  rw [State.loadOne_threads]
  exact ⟨rfl, rfl⟩

/-- Settles O49: a placed statement's registers are declared and hold 0, so that the one statement of the program, if
it is admitted, is done. -/
theorem placedInstructionRuns : Obligations.PlacedInstructionRuns := by
  intro nbits w i h
  generalize ht : textOfWord nbits w = t
  have hdec : decode Params.default (declareOperands t []) t = .ok i := ht ▸ decode_of_decodeTableWord h
  have hold : ∀ (l : Lane) (r : RegName), (typeOf (declareOperands t []) r).isSome = true →
      ((State.reset.loadOne t).readReg l r).isSome = true := by
    intro l r hr
    rw [State.reset_loadOne_readReg, Option.isSome_map, hr]
  have henabled := enabledAt_loadOne State.reset t
  simp only [State.withFetchWord, ht]
  refine ⟨hold, ?named, fun hnamed => ?form⟩
  case named =>
    rintro n rfl
    have hr : n.instr.refusal Params.default (declareOperands t []) = some (.notDescribed n) := by
      simp [Instr.refusal, Instr.stmt, NamedOnly.form_instr]
    exact step_refused (loadFrom_cons_refused (su := (State.reset.loadOne t).setup) (.inr ⟨n.instr, hdec, hr⟩) 0 [])
  case form =>
    have hr : i.refusal Params.default (declareOperands t []) = none :=
      wellFormed_iff.1 (((decoderGivesAdmittedInstructions _ _ t).1 i hdec).resolve_right fun ⟨n, hn⟩ => hnamed n hn)
    obtain ⟨q, o, hi⟩ := isMma_of_admitted hr
    obtain ⟨-, ha, hb, hc, -⟩ := operands_of_admitted hi hr
    have typed : ∀ {v : Vec} {n : Nat} {ty : RegType}, WidthRole (declareOperands t []) v n ty → ∀ l : Lane, ∀ r ∈ v,
        ((State.reset.loadOne t).readReg l r).isSome = true := by
      intro v n ty hv l r hmem
      obtain ⟨ty', hty, -⟩ := hv.2 r hmem
      exact hold l r (by rw [hty]; rfl)
    have hall : AllHold (State.reset.loadOne t) o.sources := by
      intro l r hmem
      simp only [Operands.sources, List.mem_append] at hmem
      rcases hmem with (hmem | hmem) | hmem
      · exact typed ha l r hmem
      · exact typed hb l r hmem
      · exact typed hc l r hmem
    obtain ⟨t', hx⟩ := exec_done (s := State.reset.loadOne t) hi hr henabled hall
    have hinstrs : (State.reset.loadOne t).instrs = .ok [i] := loadFrom_of_forall (.cons ⟨hdec, hr⟩ .nil)
    have hstep := (step_eq_exec hinstrs henabled rfl).trans hx
    obtain ⟨p, hp, -, hadv, -⟩ := step_next_advanced hstep
    cases henabled.unique hp
    exact ⟨t', hstep, hx, hadv⟩

end Sys2Proof

/-! SUPPORT. Proofs that the layout maps are bijections, by their inverses, and that the gather's search finds what the
inverse names (`40_mma_common.md` R81, R82; the figures of `41_mma_m8n8k4_f16.md` section 5). -/

namespace Sys2Proof.Machine

/-! ## A layout map with its inverse -/

/-- `inv` names, for each cell of an `M` by `N` matrix, the one member lane and element placed there. -/
structure LayoutInverse (member : Lane → Prop) (n M N : Nat) (loc : LayoutMap) (inv : Nat → Nat → Lane × Nat) : Prop where
  inside : ∀ (l : Lane) (i : Nat), member l → i < n → (loc l.val i).1 < M ∧ (loc l.val i).2 < N
  placed : ∀ r < M, ∀ c < N, member (inv r c).1 ∧ (inv r c).2 < n ∧ loc (inv r c).1.val (inv r c).2 = (r, c)
  inverse : ∀ (l : Lane) (i : Nat), member l → i < n → inv (loc l.val i).1 (loc l.val i).2 = (l, i)

section
variable {member member' : Lane → Prop} {n M N : Nat} {loc loc' : LayoutMap} {inv : Nat → Nat → Lane × Nat}

theorem LayoutInverse.coversOnce (h : LayoutInverse member n M N loc inv) : CoversOnce member n M N loc := by
  refine ⟨h.inside, fun r hr c hc => ⟨inv r c, h.placed r hr c hc, ?_⟩⟩
  rintro ⟨l, i⟩ ⟨hl, hi, hloc⟩
  rw [← h.inverse l i hl hi, hloc]

/-- The transposed map has the transposed inverse. -/
theorem LayoutInverse.transpose (h : LayoutInverse member n M N loc inv) :
    LayoutInverse member n N M (fun l i => (loc l i).swap) (fun r c => inv c r) where
  inside l i hl hi := (h.inside l i hl hi).symm
  placed r hr c hc := by
    obtain ⟨hl, hi, hloc⟩ := h.placed c hc r hr
    exact ⟨hl, hi, congrArg Prod.swap hloc⟩
  inverse l i hl hi := h.inverse l i hl hi

/-- Only member lanes and elements in range matter. -/
theorem LayoutInverse.congr (h : LayoutInverse member n M N loc inv) (hm : ∀ l, member' l ↔ member l)
    (hloc : ∀ l i, i < n → loc' l i = loc l i) : LayoutInverse member' n M N loc' inv where
  inside l i hl hi := by
    rw [hloc l.val i hi]
    exact h.inside l i ((hm l).1 hl) hi
  placed r hr c hc := by
    obtain ⟨hl, hi, hcell⟩ := h.placed r hr c hc
    exact ⟨(hm _).2 hl, hi, (hloc _ _ hi).trans hcell⟩
  inverse l i hl hi := by
    rw [hloc l.val i hi]
    exact h.inverse l i ((hm l).1 hl) hi

end

/-- The gather's search finds the lane and the element that the inverse names (R81). -/
theorem holder_of_layoutInverse {comp : Nat → Nat} {n per : Nat} {loc : LayoutMap} {q M N : Nat}
    {inv : Nat → Nat → Lane × Nat} (h : LayoutInverse (fun l => comp l.val = q) n M N loc inv) {r c : Nat} (hr : r < M)
    (hc : c < N) : holder comp ⟨n, per, loc⟩ q r c = some (inv r c) := by
  obtain ⟨hl, hi, hloc⟩ := h.placed r hr c hc
  have found : (holder comp ⟨n, per, loc⟩ q r c).isSome = true :=
    List.find?_isSome.2 ⟨inv r c, mem_slots.2 ⟨hl, hi⟩, by simp [laneNumber, hloc]⟩
  obtain ⟨⟨l, i⟩, hx⟩ := Option.isSome_iff_exists.1 found
  obtain ⟨hl', hi', hloc'⟩ := holder_eq_some hx
  have same := h.inverse l i hl' hi'
  rw [show loc l.val i = (r, c) from hloc'] at same
  rw [hx, same]

/-! ## The `.f16` family (R104 to R109) -/

@[simp] theorem laneOf_val (n : Nat) : (laneOf n).val = n % 32 := rfl

@[simp] theorem laneOf_lane (l : Lane) : laneOf l.val = l := Fin.ext (Nat.mod_eq_of_lt l.isLt)

theorem hi4_lane (l : Lane) : hi4 l.val = 4 * (l.val / 16) := by
  have := l.isLt
  unfold hi4
  split <;> omega

theorem highStep_eq {x : Nat} (h : x < 8) : highStep x = 16 * (x / 4) := by
  unfold highStep
  split <;> omega

/-- The lanes of a lane's own computation (R101). -/
abbrev SameComp (l m : Lane) : Prop := compF16 m.val = compF16 l.val

theorem sameComp_iff {l m : Lane} : SameComp l m ↔ m.val % 16 / 4 = l.val % 16 / 4 := by
  rw [SameComp, compF16_eq, compF16_eq]
  omega

/-- A row for each of eight lanes: A by rows, and the `.f16` accumulators. -/
theorem locARow_inverse (l : Lane) (n : Nat) :
    LayoutInverse (SameComp l) n 8 n locARow (fun r c => (laneOf (lowBase l + r % 4 + highStep r), c)) where
  inside m i _ hi := by
    have := m.isLt
    rw [locARow, hi4_lane]
    omega
  placed r hr c hc := by
    refine ⟨?_, hc, ?_⟩
    · rw [sameComp_iff, laneOf_val, lowBase, highStep_eq hr]
      omega
    · rw [locARow, hi4_lane, laneOf_val, lowBase, highStep_eq hr, Prod.mk.injEq]
      omega
  inverse m i hm _ := by
    have := m.isLt
    rw [sameComp_iff] at hm
    have hr : m.val % 4 + 4 * (m.val / 16) < 8 := by omega
    simp only [locARow, hi4_lane, highStep_eq hr, lowBase, Prod.mk.injEq, Fin.ext_iff, laneOf_val, and_true]
    omega

/-- Four columns, of which each lane of the group holds one: A by columns. -/
theorem locACol_inverse (l : Lane) :
    LayoutInverse (SameComp l) 4 8 4 locACol (fun r c => (laneOf (lowBase l + c + highStep r), r % 4)) where
  inside m i _ hi := by
    have := m.isLt
    rw [locACol, hi4_lane]
    omega
  placed r hr c hc := by
    refine ⟨?_, Nat.mod_lt _ (by decide), ?_⟩
    · rw [sameComp_iff, laneOf_val, lowBase, highStep_eq hr]
      omega
    · rw [locACol, hi4_lane, laneOf_val, lowBase, highStep_eq hr, Prod.mk.injEq]
      omega
  inverse m i hm hi := by
    have := m.isLt
    rw [sameComp_iff] at hm
    have hr : i % 4 + 4 * (m.val / 16) < 8 := by omega
    simp only [locACol, hi4_lane, highStep_eq hr, lowBase, Prod.mk.injEq, Fin.ext_iff, laneOf_val]
    omega

theorem locCdF16_eq_cellF16 (l : Lane) (i : Nat) : locCdF16 l.val i = cellF16 l i := rfl

/-- R109 by quotients and remainders. -/
theorem locCdF32_eq_cellF32 (l : Lane) (i : Nat) : locCdF32 l.val i = cellF32 l i := by
  have high : (decide (16 ≤ l.val)).toNat = l.val / 16 := by
    have := l.isLt
    by_cases h : 16 ≤ l.val <;> simp [h] <;> omega
  rw [locCdF32_eq_bits, high, cellF32]
  simp only [Nat.toNat_testBit, Prod.mk.injEq]
  omega

/-- Two rows and two pairs of columns for each lane: the `.f32` accumulators. -/
theorem locCdF32_inverse (l : Lane) :
    LayoutInverse (SameComp l) 8 8 8 locCdF32 (atC32 l) where
  inside m i _ hi := by
    have := m.isLt
    rw [locCdF32_eq_cellF32, cellF32]
    omega
  placed r hr c hc := by
    refine ⟨?_, ?_, ?_⟩
    · rw [sameComp_iff, atC32, laneOf_val, lowBase, highStep_eq hr]
      omega
    · rw [atC32]
      omega
    · rw [locCdF32_eq_cellF32, atC32, cellF32, laneOf_val, lowBase, highStep_eq hr, Prod.mk.injEq]
      omega
  inverse m i hm hi := by
    have := m.isLt
    rw [sameComp_iff] at hm
    have hr : m.val % 2 + 2 * (i / 2 % 2) + 4 * (m.val / 16) < 8 := by omega
    simp only [locCdF32_eq_cellF32, cellF32, atC32, highStep_eq hr, lowBase, Prod.mk.injEq, Fin.ext_iff, laneOf_val]
    omega

theorem locA_inverse (al : Layout) (l : Lane) : LayoutInverse (SameComp l) 4 8 4 (locA al) (atA al l) := by
  cases al
  · exact locARow_inverse l 4
  · exact locACol_inverse l

/-- B is laid out as A is, transposed, with the other layout. -/
theorem locB_inverse (bl : Layout) (l : Lane) : LayoutInverse (SameComp l) 4 4 8 (locB bl) (atB bl l) := by
  cases bl
  · refine (locACol_inverse l).transpose.congr (fun _ => Iff.rfl) fun m i hi => ?_
    rw [locACol, Nat.mod_eq_of_lt hi]
    rfl
  · exact (locARow_inverse l 4).transpose

theorem locCdF16_inverse (l : Lane) : LayoutInverse (SameComp l) 8 8 8 locCdF16 (atC16 l) := locARow_inverse l 8

/-- Settles O9: each holder is the inverse of its map. -/
theorem holdersOfF16Cells : Obligations.HoldersOfF16Cells := fun l =>
  ⟨fun al _ hr _ hk => holder_of_layoutInverse (locA_inverse al l) hr hk,
    fun bl _ hk _ hn => holder_of_layoutInverse (locB_inverse bl l) hk hn,
    fun _ hr _ hn => holder_of_layoutInverse (locCdF16_inverse l) hr hn,
    fun _ hr _ hn => holder_of_layoutInverse (locCdF32_inverse l) hr hn⟩

/-! ## The other families (R131 to R133, R147 to R149, R167 to R169) -/

/-- A row for each group of four lanes, of which each lane holds `n` columns in a row. -/
theorem group_inverse {n : Nat} (hn : 0 < n) :
    LayoutInverse (fun _ => True) n 8 (4 * n) (fun l i => (groupId l, threadInGroup l * n + i))
      (fun r c => (laneOf (4 * r + c / n), c % n)) where
  inside l i _ hi := by
    refine ⟨Nat.lt_succ_of_le (groupId_lane_le l), ?_⟩
    calc threadInGroup l.val * n + i < (threadInGroup l.val + 1) * n := by rw [Nat.succ_mul]; omega
      _ ≤ 4 * n := Nat.mul_le_mul_right n (Nat.succ_le_succ (threadInGroup_le l.val))
  placed r hr c hc := by
    have hq : c / n < 4 := Nat.div_lt_of_lt_mul (by rwa [Nat.mul_comm])
    refine ⟨trivial, Nat.mod_lt c hn, ?_⟩
    have lane : ∀ t < 4, (laneOf (4 * r + t)).val = 4 * r + t := fun t ht => Nat.mod_eq_of_lt (by omega)
    have group : ∀ t < 4, (4 * r + t) / 4 = r ∧ (4 * r + t) % 4 = t := fun t ht => by omega
    rw [lane _ hq, groupId_eq_div, threadInGroup, (group _ hq).1, (group _ hq).2, Nat.div_add_mod']
  inverse l i _ hi := by
    refine Prod.ext ?_ ?_
    · simp only [Nat.mul_comm _ n, Nat.mul_add_div hn, Nat.div_eq_of_lt hi, Nat.add_zero,
        four_mul_groupId_add_threadInGroup, laneOf_lane]
    · simp only [Nat.mul_comm _ n, Nat.mul_add_mod, Nat.mod_eq_of_lt hi]

theorem locAF64_inverse :
    LayoutInverse (fun _ => True) 1 8 4 locAF64 (fun r c => (laneOf (4 * r + c / 1), c % 1)) :=
  (group_inverse Nat.one_pos).congr (fun _ => Iff.rfl) fun l i hi => by
    rw [Nat.lt_one_iff.1 hi, Nat.mul_one]
    rfl

theorem locCdF64_inverse :
    LayoutInverse (fun _ => True) 2 8 8 locCdF64 (fun r c => (laneOf (4 * r + c / 2), c % 2)) :=
  (group_inverse Nat.two_pos).congr (fun _ => Iff.rfl) fun l _ hi => locCdF64_eq_locCdK16 l hi

/-- All 32 lanes take part in the one computation. -/
theorem holder_all_of_layoutInverse {n per : Nat} {loc : LayoutMap} {M N : Nat} {inv : Nat → Nat → Lane × Nat}
    (h : LayoutInverse (fun _ => True) n M N loc inv) {r c : Nat} (hr : r < M) (hc : c < N) :
    holder compAll ⟨n, per, loc⟩ 1 r c = some (inv r c) :=
  holder_of_layoutInverse (h.congr (fun _ => iff_true_intro rfl) fun _ _ _ => rfl) hr hc

/-- Settles O10: each holder is the inverse of its map. -/
theorem holdersOfOtherCells : Obligations.HoldersOfOtherCells := by
  have af64 : ∀ r < 8, ∀ k < 4, holder compAll ⟨1, 1, locAF64⟩ 1 r k = some (laneOf (4 * r + k), 0) := by
    intro r hr k hk
    exact (holder_all_of_layoutInverse locAF64_inverse hr hk).trans (by rw [Nat.div_one, Nat.mod_one])
  have bf64 : ∀ k < 4, ∀ n < 8, holder compAll ⟨1, 1, locBF64⟩ 1 k n = some (laneOf (4 * n + k), 0) := by
    intro k hk n hn
    exact (holder_all_of_layoutInverse locAF64_inverse.transpose hk hn).trans (by rw [Nat.div_one, Nat.mod_one])
  refine ⟨af64, bf64, fun r hr k hk => ?_, fun k hk n hn => ?_, fun r hr k hk => ?_, fun k hk n hn => ?_,
    fun r hr n hn => ⟨?_, ?_, ?_⟩⟩
  · exact holder_all_of_layoutInverse (group_inverse (n := 4) (by decide)) hr hk
  · exact holder_all_of_layoutInverse (group_inverse (n := 4) (by decide)).transpose hk hn
  · exact holder_all_of_layoutInverse (group_inverse (n := 8) (by decide)) hr hk
  · exact holder_all_of_layoutInverse (group_inverse (n := 8) (by decide)).transpose hk hn
  · exact holder_all_of_layoutInverse locCdF64_inverse hr hn
  · exact holder_all_of_layoutInverse (group_inverse Nat.two_pos) hr hn
  · exact holder_all_of_layoutInverse (group_inverse Nat.two_pos) hr hn

/-- Settles O4: each map has an inverse; each computation of the `.f16` family is some lane's own. -/
theorem layoutMapsAreBijections : Obligations.LayoutMapsAreBijections := by
  refine ⟨fun q h1 h4 => ?_, locAF64_inverse.coversOnce, locAF64_inverse.transpose.coversOnce,
    locCdF64_inverse.coversOnce, (group_inverse (by decide)).coversOnce, (group_inverse (by decide)).transpose.coversOnce,
    (group_inverse (by decide)).coversOnce, (group_inverse (by decide)).coversOnce,
    (group_inverse (by decide)).transpose.coversOnce, (group_inverse (by decide)).coversOnce⟩
  obtain ⟨l, rfl⟩ : ∃ l : Lane, compF16 l.val = q := ⟨laneOf (4 * (q - 1)), by rw [compF16_eq, laneOf_val]; omega⟩
  exact ⟨(locA_inverse .row l).coversOnce, (locA_inverse .col l).coversOnce, (locB_inverse .row l).coversOnce,
    (locB_inverse .col l).coversOnce, (locCdF16_inverse l).coversOnce, (locCdF32_inverse l).coversOnce⟩

end Sys2Proof.Machine

/-! SUPPORT. Proofs about what a completed `mma` leaves: on which registers its result depends (`40_mma_common.md` R97,
`41_mma_m8n8k4_f16.md` R110), and for each family that the template of R89 computes what the spec writes out for one
thread (R112 to R115, R135, R150, R170). -/

namespace Sys2Proof.Machine

/-! ## On what a result depends -/

section
variable {wa wb wc wd K : Nat} {f : Form wa wb wc wd K} {s₁ s₂ : State}

/-- The empty name, which stands for a missing register of a vector, reads as 0 in every state (log entry 17). -/
theorem State.reg_nil (s : State) (l : Lane) : s.reg l [] = .w32 0 := by
  simp [State.reg, State.readReg, regIndex, RegName.legal]

/-- Lanes that agree on a vector's registers have the same fragment. -/
theorem fragElement_congr {m : Lane} {vec : Vec} (h : ∀ r ∈ vec, s₁.readReg m r = s₂.readReg m r) (per w i : Nat) :
    fragElement (s₁.reg m) vec per w i = fragElement (s₂.reg m) vec per w i := by
  have same : s₁.reg m (vec.getD (i / per) []) = s₂.reg m (vec.getD (i / per) []) := by
    by_cases hlt : i / per < vec.length
    · rw [List.getD_eq_getElem _ _ hlt, State.reg, State.reg, h _ (List.getElem_mem hlt)]
    · rw [List.getD_eq_default _ _ (not_lt.1 hlt), State.reg_nil, State.reg_nil]
  rw [fragElement, fragElement, same]

/-- A gathered cell depends on the vector's registers in the lanes of its computation (R81). -/
theorem gather_congr {comp : Nat → Nat} {q : Nat} {vec : Vec}
    (h : ∀ m : Lane, comp m.val = q → ∀ r ∈ vec, s₁.readReg m r = s₂.readReg m r) (p : Part) (w row col : Nat) :
    gather comp p s₁ vec w q row col = gather comp p s₂ vec w q row col := by
  unfold gather
  cases hx : holder comp p q row col with
  | none => rfl
  | some x => exact fragElement_congr (h x.1 (holder_eq_some hx).1) _ _ _

/-- A lane's result depends on the source registers of the lanes of its computation. -/
theorem result_congr {o : Operands} {l : Lane}
    (h : ∀ m : Lane, f.comp m.val = f.comp l.val → ∀ r ∈ o.sources, s₁.readReg m r = s₂.readReg m r) :
    f.result s₁ o l = f.result s₂ o l := by
  have part : ∀ vec : Vec, (∀ r ∈ vec, r ∈ o.sources) → ∀ (p : Part) (w row col : Nat),
      gather f.comp p s₁ vec w (f.comp l.val) row col = gather f.comp p s₂ vec w (f.comp l.val) row col :=
    fun vec hvec => gather_congr fun m hm r hr => h m hm r (hvec r hr)
  have ha := part o.a (by simp +contextual [Operands.sources])
  have hb := part o.b (by simp +contextual [Operands.sources])
  have hc := part o.c (by simp +contextual [Operands.sources])
  funext j
  simp only [Form.result]
  congr 1
  funext i
  simp only [Form.cell, laneNumber, ha, hb, hc]

/-- After an `mma` that goes on, register `j` of its destination holds result `j` of its form. -/
theorem readReg_of_mmaStep_next {i : Instr} {q : Quals} {o : Operands} {s t : State} (hi : IsMma i q o)
    (h : mmaStep f i o s = .next t) (l : Lane) {j : Nat} (hj : j < o.d.length) :
    t.readReg l o.d[j] = some (f.result s o l j) := by
  obtain ⟨hr, -, -, rfl⟩ := mmaStep_next h
  exact readReg_commit_of_admitted hi hr _ l hj

end

/-- The form behind an `mma`, with the computations of the `.f16` family (R100, R101). -/
theorem exec_mma_comp {i : Instr} {q : Quals} {o : Operands} (h : IsMma i q o) :
    ∃ (wa wb wc wd K : Nat) (f : Form wa wb wc wd K),
      (q.atype = .f16 → f.comp = compF16) ∧ ∀ s, exec i s = mmaStep f i o s := by
  cases i <;> cases h <;>
    exact ⟨_, _, _, _, _, _, fun hf => (by cases hf <;> rfl), fun _ => rfl⟩

/-- Two states that agree on the source registers of the lanes of `l`'s computation get the same in lane `l`. -/
theorem readReg_congr_of_exec_next {wa wb wc wd K : Nat} {f : Form wa wb wc wd K} {i : Instr} {q : Quals}
    {o : Operands} {s₁ s₂ t₁ t₂ : State} {l : Lane} (hi : IsMma i q o) (hx : ∀ s, exec i s = mmaStep f i o s)
    (h : ∀ m : Lane, f.comp m.val = f.comp l.val → ∀ r ∈ o.sources, s₁.readReg m r = s₂.readReg m r)
    (h₁ : exec i s₁ = .next t₁) (h₂ : exec i s₂ = .next t₂) : ∀ r ∈ o.d, t₁.readReg l r = t₂.readReg l r := by
  intro r hr
  obtain ⟨j, hj, rfl⟩ := List.getElem_of_mem hr
  rw [readReg_of_mmaStep_next hi ((hx s₁).symm.trans h₁) l hj, readReg_of_mmaStep_next hi ((hx s₂).symm.trans h₂) l hj,
    result_congr h]

/-- Settles O38: agreement in all lanes is agreement in those of each computation. -/
theorem resultDependsOnSourcesOnly : Obligations.ResultDependsOnSourcesOnly := by
  intro i q o s₁ s₂ t₁ t₂ hi _ hsame h₁ h₂ l
  obtain ⟨_, _, _, _, _, f, -, hx⟩ := exec_mma hi
  exact readReg_congr_of_exec_next hi hx (fun m _ => hsame m) h₁ h₂

/-- Settles O39: in the `.f16` family the computation of a lane is `compF16`. -/
theorem computationsAreIndependent : Obligations.ComputationsAreIndependent := by
  intro i q o s₁ s₂ t₁ t₂ l hi hf _ hsame h₁ h₂
  obtain ⟨_, _, _, _, _, f, hcomp, hx⟩ := exec_mma_comp hi
  exact readReg_congr_of_exec_next hi hx (by rw [hcomp hf]; exact hsame) h₁ h₂

/-! ## Completion -/

/-- An `mma` whose operands fit, whose parameter takes its mix of types, and whose sources hold values completes with
the results of its form. -/
theorem completes_of_fit {wa wb wc wd K : Nat} {f : Form wa wb wc wd K} {i : Instr} {q : Quals} {d a b c : Vec}
    {s : State} {p : Nat} {result : Lane → Nat → Value} (hi : IsMma i q ⟨d, a, b, c⟩)
    (hx : ∀ s, exec i s = mmaStep f i ⟨d, a, b, c⟩ s)
    (hcd : checkMixedCd s.setup.params (q.term ⟨d, a, b, c⟩) = none)
    (hsign : checkMixedSign s.setup.params (q.term ⟨d, a, b, c⟩) = none)
    (hp : EnabledAt s p) (ha : AllHold s (a ++ b ++ c))
    (hfit : OperandsFit s ⟨d, a, b, c⟩ (roles q.shape q.atype q.dtype q.ctype))
    (hresult : ∀ l, ∀ j < (roles q.shape q.atype q.dtype q.ctype).d.1,
      f.result s ⟨d, a, b, c⟩ l j = result l j) :
    Completes i d s p result := by
  obtain ⟨-, -, -, hk, ht, hl, hs, -⟩ := row_of_isMma hi
  have hr := refusal_eq_none_of_fit hi ⟨hk, ht, hcd, hsign, hl, hs⟩ hfit
  have hdone := (hx s).trans (mmaStep_done f hr hp ha)
  refine ⟨_, hdone, fun l j hj => ?_, unchanged_commit _ _ _, advanced_commit hp _ _⟩
  rw [readReg_commit_of_admitted hi hr _ l hj, hresult l j (hfit.1.1 ▸ hj)]

theorem Completes.congr {i : Instr} {d : Vec} {s : State} {p : Nat} {result result' : Lane → Nat → Value}
    (h : Completes i d s p result) (hsame : ∀ l, ∀ j < d.length, result l j = result' l j) :
    Completes i d s p result' := by
  obtain ⟨t, hx, hread, hun, hadv⟩ := h
  exact ⟨t, hx, fun l j hj => by rw [hread l j hj, hsame l j hj], hun, hadv⟩

/-! ## Elements and packed registers, as the spec writes them -/

/-- An element in the low 32 bits of a register. -/
theorem element_eq_bits32 (v : Value) {w i : Nat} (h : w * i + w ≤ 32) :
    v.element w i = v.bits32.extractLsb' (w * i) w := by
  cases v with
  | w32 x => rfl
  | w64 x =>
    refine BitVec.eq_of_getLsbD_eq fun b hb => ?_
    have inside : w * i + b < 32 := by omega
    simp [Value.element, Value.bits32, hb, inside]

theorem fragElement_eq_half (s : State) (l : Lane) (vec : Vec) (i : Nat) :
    fragElement (s.reg l) vec 2 16 i = half s l vec i := by
  have hlt : i % 2 < 2 := Nat.mod_lt i (by decide)
  rw [fragElement, element_eq_bits32 _ (by omega), half]
  rcases Nat.mod_two_eq_zero_or_one i with h | h <;> simp [h]

theorem fragElement_eq_word (s : State) (l : Lane) (vec : Vec) (i : Nat) :
    fragElement (s.reg l) vec 1 32 i = word s l vec i := by
  rw [fragElement, Nat.div_one, Nat.mod_one, element_eq_bits32 _ (by decide), word]
  exact BitVec.eq_of_toNat_eq (by simp)

theorem element_64_zero (v : Value) : v.element 64 0 = v.bits64 := by
  cases v <;> exact BitVec.eq_of_getLsbD_eq fun b hb => by simp [Value.element, Value.bits64, hb]

theorem fragElement_eq_bits64 (s : State) (l : Lane) (vec : Vec) (i : Nat) :
    fragElement (s.reg l) vec 1 64 i = (s.reg l (vec.getD i [])).bits64 := by
  rw [fragElement, Nat.div_one, Nat.mod_one, element_64_zero]

theorem gather_of_holder {comp : Nat → Nat} {p : Part} {q row col : Nat} {x : Lane × Nat}
    (h : holder comp p q row col = some x) (s : State) (vec : Vec) (w : Nat) :
    gather comp p s vec w q row col = fragElement (s.reg x.1) vec p.per w x.2 := by
  simp [gather, h]

/-- A `.f16x2` register is the pair of its two elements (R79, R80). -/
theorem packRegister_pair (e : Nat → BitVec 16) (j : Nat) : packRegister .f16x2 2 e j = pair16 e j := by
  have low := (e (2 * j)).isLt
  have high := (e (2 * j + 1)).isLt
  refine congrArg Value.w32 (BitVec.eq_of_toNat_eq ?_)
  rw [BitVec.toNat_append, ← Nat.shiftLeft_add_eq_or_of_lt low, Nat.shiftLeft_eq, BitVec.toNat_ofNat]
  simp only [List.range_succ, List.range_zero, List.nil_append, List.cons_append, List.map_cons, List.map_nil,
    concatElements, Nat.add_zero, Nat.mul_zero]
  omega

theorem packRegister_word {ty : RegType} (h : ty.width = 32) (e : Nat → BitVec 32) (j : Nat) :
    packRegister ty 1 e j = .w32 (e j) := by
  simp [packRegister, valueOfType_of_width_32 h, concatElements]

theorem packRegister_f64 (e : Nat → BitVec 64) (j : Nat) : packRegister .f64 1 e j = .w64 (e j) := by
  simp [packRegister, valueOfType_of_width_64 (show RegType.f64.width = 64 from rfl), concatElements]

theorem pair16_congr {e e' : Nat → BitVec 16} (h : ∀ i < 8, e i = e' i) {j : Nat} (hj : j < 4) :
    pair16 e j = pair16 e' j := by
  rw [pair16, pair16, h (2 * j) (by omega), h (2 * j + 1) (by omega)]

/-! ## The `.f16` family (R112 to R115) -/

theorem gather_rowOfA (al : Layout) (s : State) (v : Vec) (l : Lane) {r : Nat} (hr : r < 8) :
    Vector.ofFn (fun k : Fin 4 => gather compF16 (partA16 al) s v 16 (compF16 l.val) r k.val) = rowOfA al s v l r := by
  refine congrArg Vector.ofFn (funext fun k => ?_)
  rw [gather_of_holder ((holdersOfF16Cells l).1 al r hr k.val k.isLt)]
  exact fragElement_eq_half _ _ _ _

theorem gather_colOfB (bl : Layout) (s : State) (v : Vec) (l : Lane) {n : Nat} (hn : n < 8) :
    Vector.ofFn (fun k : Fin 4 => gather compF16 (partB16 bl) s v 16 (compF16 l.val) k.val n) = colOfB bl s v l n := by
  refine congrArg Vector.ofFn (funext fun k => ?_)
  rw [gather_of_holder ((holdersOfF16Cells l).2.1 bl k.val k.isLt n hn)]
  exact fragElement_eq_half _ _ _ _

theorem gather_accCell16 (s : State) (v : Vec) (l : Lane) {r n : Nat} (hr : r < 8) (hn : n < 8) :
    gather compF16 accF16 s v 16 (compF16 l.val) r n = accCell16 s v l (r, n) := by
  rw [gather_of_holder ((holdersOfF16Cells l).2.2.1 r hr n hn)]
  exact fragElement_eq_half _ _ _ _

theorem gather_accCell32 (s : State) (v : Vec) (l : Lane) {r n : Nat} (hr : r < 8) (hn : n < 8) :
    gather compF16 accF32 s v 32 (compF16 l.val) r n = accCell32 s v l (r, n) := by
  rw [gather_of_holder ((holdersOfF16Cells l).2.2.2 r hr n hn)]
  exact fragElement_eq_word _ _ _ _

theorem cellF16_lt (l : Lane) {i : Nat} (hi : i < 8) : (cellF16 l i).1 < 8 ∧ (cellF16 l i).2 < 8 :=
  (locCdF16_inverse l).inside l i rfl hi

theorem cellF32_lt (l : Lane) {i : Nat} (hi : i < 8) : (cellF32 l i).1 < 8 ∧ (cellF32 l i).2 < 8 := by
  rw [← locCdF32_eq_cellF32]
  exact (locCdF32_inverse l).inside l i rfl hi

section
variable (al bl : Layout) (s : State) (o : Operands) (l : Lane) {i : Nat}

/-- A cell of the `.f16` family, with accumulators of any kind: A's row and B's column are those of the figures. -/
theorem cell_f16 {wc wd : Nat} (accC accD : Part) (ty : RegType) (dot : Dot16 wc wd) {rn : Nat × Nat}
    (place : accD.loc l.val i = rn) (hr : rn.1 < 8) (hn : rn.2 < 8) :
    (Form.mk compF16 (partA16 al) (partB16 bl) accC accD ty dot).cell s o l i =
      dot (rowOfA al s o.a l rn.1) (colOfB bl s o.b l rn.2) (gather compF16 accC s o.c wc (compF16 l.val) rn.1 rn.2) := by
  simp only [Form.cell, laneNumber, place, gather_rowOfA al s o.a l hr, gather_colOfB bl s o.b l hn]

theorem cell_formF16F16 (hi : i < 8) :
    (formF16F16 Config.dotF16F16 al bl).cell s o l i = elemF16F16 al bl s o l i := by
  obtain ⟨hr, hn⟩ := cellF16_lt l hi
  rw [formF16F16, cell_f16 al bl s o l accF16 accF16 _ _ (locCdF16_eq_cellF16 l i) hr hn, gather_accCell16 s o.c l hr hn]
  rfl

theorem cell_formF16F32 (hi : i < 8) :
    (formF16F32 Config.dotF16F32 al bl).cell s o l i = elemF16F32 al bl s o l i := by
  obtain ⟨hr, hn⟩ := cellF16_lt l hi
  rw [formF16F32, cell_f16 al bl s o l accF32 accF16 _ _ (locCdF16_eq_cellF16 l i) hr hn, gather_accCell32 s o.c l hr hn]
  rfl

theorem cell_formF32F16 (hi : i < 8) :
    (formF32F16 Config.dotF32F16 al bl).cell s o l i = elemF32F16 al bl s o l i := by
  obtain ⟨hr, hn⟩ := cellF32_lt l hi
  rw [formF32F16, cell_f16 al bl s o l accF16 accF32 _ _ (locCdF32_eq_cellF32 l i) hr hn, gather_accCell16 s o.c l hr hn]
  rfl

theorem cell_formF32F32 (hi : i < 8) :
    (formF32F32 Config.dotF32F32 al bl).cell s o l i = elemF32F32 al bl s o l i := by
  obtain ⟨hr, hn⟩ := cellF32_lt l hi
  rw [formF32F32, cell_f16 al bl s o l accF32 accF32 _ _ (locCdF32_eq_cellF32 l i) hr hn, gather_accCell32 s o.c l hr hn]
  rfl

end

/-- Settles O16: the cells are those of the figures (`cell_formF16F16`), two to a register. -/
theorem completesF16F16 : Obligations.CompletesF16F16 := by
  intro d a b c s p hp hall hfit
  have result : ∀ al bl l, ∀ j < 4, (formF16F16 Config.dotF16F16 al bl).result s ⟨d, a, b, c⟩ l j =
      pair16 (elemF16F16 al bl s ⟨d, a, b, c⟩ l) j := fun al bl l j hj =>
    (packRegister_pair _ j).trans (pair16_congr (fun _ hi => cell_formF16F16 al bl s ⟨d, a, b, c⟩ l hi) hj)
  refine ⟨?_, ?_, ?_, ?_⟩ <;>
    exact completes_of_fit (f := formF16F16 _ _ _) rfl (fun _ => rfl) rfl rfl hp hall hfit (result _ _)

/-- Settles O17: likewise, with C by the map of its own type. -/
theorem completesF16F32 : Obligations.CompletesF16F32 := by
  intro d a b c s p hmixed hp hall hfit
  have result : ∀ al bl l, ∀ j < 4, (formF16F32 Config.dotF16F32 al bl).result s ⟨d, a, b, c⟩ l j =
      pair16 (elemF16F32 al bl s ⟨d, a, b, c⟩ l) j := fun al bl l j hj =>
    (packRegister_pair _ j).trans (pair16_congr (fun _ hi => cell_formF16F32 al bl s ⟨d, a, b, c⟩ l hi) hj)
  have hcd := fun {t : MmaTerm} => (checkMixedCd_eq_none (t := t)).2 fun _ _ => .inr hmixed
  refine ⟨?_, ?_, ?_, ?_⟩ <;>
    exact completes_of_fit (f := formF16F32 _ _ _) rfl (fun _ => rfl) hcd rfl hp hall hfit (result _ _)

/-- Settles O18: likewise, with one element to a destination register. -/
theorem completesF32F16 : Obligations.CompletesF32F16 := by
  intro d a b c s p hmixed hp hall hfit
  have result : ∀ al bl l, ∀ j < 8, (formF32F16 Config.dotF32F16 al bl).result s ⟨d, a, b, c⟩ l j =
      .w32 (elemF32F16 al bl s ⟨d, a, b, c⟩ l j) := fun al bl l j hj =>
    (packRegister_word rfl _ j).trans (congrArg _ (cell_formF32F16 al bl s ⟨d, a, b, c⟩ l hj))
  have hcd := fun {t : MmaTerm} => (checkMixedCd_eq_none (t := t)).2 fun _ _ => .inr hmixed
  refine ⟨?_, ?_, ?_, ?_⟩ <;>
    exact completes_of_fit (f := formF32F16 _ _ _) rfl (fun _ => rfl) hcd rfl hp hall hfit (result _ _)

/-- Settles O19: likewise, with both accumulators by the map of `.f32`. -/
theorem completesF32F32 : Obligations.CompletesF32F32 := by
  intro d a b c s p hp hall hfit
  have result : ∀ al bl l, ∀ j < 8, (formF32F32 Config.dotF32F32 al bl).result s ⟨d, a, b, c⟩ l j =
      .w32 (elemF32F32 al bl s ⟨d, a, b, c⟩ l j) := fun al bl l j hj =>
    (packRegister_word rfl _ j).trans (congrArg _ (cell_formF32F32 al bl s ⟨d, a, b, c⟩ l hj))
  refine ⟨?_, ?_, ?_, ?_⟩ <;>
    exact completes_of_fit (f := formF32F32 _ _ _) rfl (fun _ => rfl) rfl rfl hp hall hfit (result _ _)

/-! ## The other families (R135, R150, R170) -/

section
variable {n w : Nat} (s : State) (v : Vec)

/-- A cell of A of a family in which a group of lanes holds a row, `n` elements to a lane, all in one register. -/
theorem gather_group (hn : 0 < n) {r k : Nat} (hr : r < 8) (hk : k < 4 * n) :
    gather compAll ⟨n, n, fun l i => (groupId l, threadInGroup l * n + i)⟩ s v w 1 r k =
      (s.reg (laneOf (4 * r + k / n)) (v.getD 0 [])).element w (k % n) := by
  rw [gather_of_holder (holder_all_of_layoutInverse (group_inverse hn) hr hk), fragElement]
  simp only [Nat.div_eq_of_lt (Nat.mod_lt k hn), Nat.mod_mod]

/-- The same for B, whose columns the groups hold. -/
theorem gather_group_transpose (hn : 0 < n) {k c : Nat} (hk : k < 4 * n) (hc : c < 8) :
    gather compAll ⟨n, n, fun l i => (threadInGroup l * n + i, groupId l)⟩ s v w 1 k c =
      (s.reg (laneOf (4 * c + k / n)) (v.getD 0 [])).element w (k % n) := by
  refine (gather_of_holder (holder_all_of_layoutInverse (group_inverse hn).transpose hk hc) s v w).trans ?_
  simp only [fragElement, Nat.div_eq_of_lt (Nat.mod_lt k hn), Nat.mod_mod]

/-- The accumulator cell at the place of element `i` of a lane is that element of that lane. -/
theorem gather_own {loc : LayoutMap} {M N : Nat} {inv : Nat → Nat → Lane × Nat}
    (h : LayoutInverse (fun _ => True) n M N loc inv) (l : Lane) {i : Nat} (hi : i < n) :
    gather compAll ⟨n, 1, loc⟩ s v w 1 (loc l.val i).1 (loc l.val i).2 = fragElement (s.reg l) v 1 w i := by
  obtain ⟨hr, hc⟩ := h.inside l i trivial hi
  rw [gather_of_holder (holder_all_of_layoutInverse h hr hc), h.inverse l i trivial hi]

end

/-- The place of a lane's accumulator element `i`, as R135, R150 and R170 write it: row `g`, column `n`. -/
theorem locCdK16_eq (l i : Nat) : locCdK16 l i = (l / 4, 2 * (l % 4) + i) := by
  rw [locCdK16, groupId_eq_div, threadInGroup, Nat.mul_comm]

theorem accumulator_place_lt (l : Lane) {i : Nat} (hi : i < 2) : l.val / 4 < 8 ∧ 2 * (l.val % 4) + i < 8 := by
  have := l.isLt
  omega

theorem cell_formF64 (s : State) (o : Operands) (l : Lane) {i : Nat} (hi : i < 2) :
    (formF64 Config.dotF64).cell s o l i = elemF64 s o l i := by
  obtain ⟨hr, hn⟩ := accumulator_place_lt l hi
  have place : locCdF64 l.val i = (l.val / 4, 2 * (l.val % 4) + i) :=
    (locCdF64_eq_locCdK16 l.val hi).trans (locCdK16_eq l.val i)
  have row (k : Fin 4) : gather compAll ⟨1, 1, locAF64⟩ s o.a 64 1 (l.val / 4) k.val =
      (s.reg (laneOf (4 * (l.val / 4) + k)) (o.a.getD 0 [])).bits64 := by
    rw [gather_of_holder (holdersOfOtherCells.1 _ hr _ k.isLt)]
    exact fragElement_eq_bits64 _ _ _ _
  have col (k : Fin 4) : gather compAll ⟨1, 1, locBF64⟩ s o.b 64 1 k.val (2 * (l.val % 4) + i) =
      (s.reg (laneOf (4 * (2 * (l.val % 4) + i) + k)) (o.b.getD 0 [])).bits64 := by
    rw [gather_of_holder (holdersOfOtherCells.2.1 _ k.isLt _ hn)]
    exact fragElement_eq_bits64 _ _ _ _
  have acc : gather compAll ⟨2, 1, locCdF64⟩ s o.c 64 1 (l.val / 4) (2 * (l.val % 4) + i) =
      (s.reg l (o.c.getD i [])).bits64 := by
    have own := gather_own (w := 64) s o.c locCdF64_inverse l hi
    rw [place] at own
    exact own.trans (fragElement_eq_bits64 _ _ _ _)
  simp only [Form.cell, formF64, laneNumber, place, compAll, row, col, acc, elemF64]

/-- Settles O20: the cells are those R135 writes out, one to a register. -/
theorem completesF64 : Obligations.CompletesF64 := by
  intro d a b c s p hp hall hfit
  exact completes_of_fit (f := formF64 _) rfl (fun _ => rfl) rfl rfl hp hall hfit fun l j hj =>
    (packRegister_f64 _ j).trans (congrArg _ (cell_formF64 s ⟨d, a, b, c⟩ l hj))

/-- The exact sum over the columns `k` of two vectors given by functions of `k`. -/
theorem exactSum_ofFn {w K : Nat} (atype btype : ElemType) (a b : Nat → BitVec w) (c : BitVec 32) :
    exactSum atype btype (Vector.ofFn fun k : Fin K => a k) (Vector.ofFn fun k : Fin K => b k) c =
      sext c + ((List.range K).map (fun k => extend atype (a k) * extend btype (b k))).sum := by
  rw [exactSum, ← List.map_coe_finRange_eq_range, List.map_map]
  simp [Function.comp_def]

/-- Byte `k` and hexadecimal digit `k` of the registers that the four lanes of group `g` hold, one after another. -/
def groupByte (s : State) (v : Vec) (g k : Nat) : BitVec 8 :=
  byteOf (s.reg (laneOf (4 * g + k / 4)) (v.getD 0 [])) (k % 4)
def groupDigit (s : State) (v : Vec) (g k : Nat) : BitVec 4 :=
  digitOf (s.reg (laneOf (4 * g + k / 8)) (v.getD 0 [])) (k % 8)

theorem locCdK16_inverse :
    LayoutInverse (fun _ => True) 2 8 8 locCdK16 (fun r c => (laneOf (4 * r + c / 2), c % 2)) :=
  group_inverse Nat.two_pos

/-- The accumulator cell of the integer families, at its place (R149, R169). -/
theorem gather_word (s : State) (v : Vec) (l : Lane) {i : Nat} (hi : i < 2) :
    gather compAll ⟨2, 1, locCdK16⟩ s v 32 1 (l.val / 4) (2 * (l.val % 4) + i) = word s l v i := by
  have own := gather_own (w := 32) s v locCdK16_inverse l hi
  rw [locCdK16_eq] at own
  exact own.trans (fragElement_eq_word s l v i)

theorem cell_formK16 (atype btype : ElemType) (mode : IntOverflow) (s : State) (o : Operands) (l : Lane) {i : Nat}
    (hi : i < 2) : (formK16 atype btype mode).cell s o l i = finish mode (sumK16 atype btype s o l i) := by
  obtain ⟨hr, hn⟩ := accumulator_place_lt l hi
  have row (k : Fin 16) : gather compAll ⟨4, 4, locAK16⟩ s o.a 8 1 (l.val / 4) k.val =
      groupByte s o.a (l.val / 4) k.val :=
    (gather_group s o.a (by decide) hr k.isLt).trans (element_eq_bits32 _ (by omega))
  have col (k : Fin 16) : gather compAll ⟨4, 4, locBK16⟩ s o.b 8 1 k.val (2 * (l.val % 4) + i) =
      groupByte s o.b (2 * (l.val % 4) + i) k.val :=
    (gather_group_transpose s o.b (by decide) k.isLt hn).trans (element_eq_bits32 _ (by omega))
  simp only [Form.cell, formK16, laneNumber, locCdK16_eq, compAll, row, col, gather_word s o.c l hi, intCell]
  exact congrArg _ (exactSum_ofFn atype btype (groupByte s o.a _) (groupByte s o.b _) _)

theorem cell_formK32 (atype btype : ElemType) (mode : IntOverflow) (s : State) (o : Operands) (l : Lane) {i : Nat}
    (hi : i < 2) : (formK32 atype btype mode).cell s o l i = finish mode (sumK32 atype btype s o l i) := by
  obtain ⟨hr, hn⟩ := accumulator_place_lt l hi
  have row (k : Fin 32) : gather compAll ⟨8, 8, locAK32⟩ s o.a 4 1 (l.val / 4) k.val =
      groupDigit s o.a (l.val / 4) k.val :=
    (gather_group s o.a (by decide) hr k.isLt).trans (element_eq_bits32 _ (by omega))
  have col (k : Fin 32) : gather compAll ⟨8, 8, locBK32⟩ s o.b 4 1 k.val (2 * (l.val % 4) + i) =
      groupDigit s o.b (2 * (l.val % 4) + i) k.val :=
    (gather_group_transpose s o.b (by decide) k.isLt hn).trans (element_eq_bits32 _ (by omega))
  have acc : gather compAll ⟨2, 1, locCdK32⟩ s o.c 32 1 (l.val / 4) (2 * (l.val % 4) + i) = word s l o.c i :=
    gather_word s o.c l hi
  simp only [Form.cell, formK32, laneNumber, ← locCdK16_eq_locCdK32 l.val i, locCdK16_eq, compAll, row, col, acc,
    intCell]
  exact congrArg _ (exactSum_ofFn atype btype (groupDigit s o.a _) (groupDigit s o.b _) _)

/-- Settles O21: the cells are those R150 writes out, for each pair of types and each mode. -/
theorem completesM8n8k16 : Obligations.CompletesM8n8k16 := by
  intro d a b c s p hp hall hfit
  have result : ∀ atype btype mode l, ∀ j < 2, (formK16 atype btype mode).result s ⟨d, a, b, c⟩ l j =
      .w32 (finish mode (sumK16 atype btype s ⟨d, a, b, c⟩ l j)) := fun atype btype mode l j hj =>
    (packRegister_word rfl _ j).trans (congrArg _ (cell_formK16 atype btype mode s ⟨d, a, b, c⟩ l hj))
  refine ⟨?_, ?_, ?_, ?_, fun hmixed => ?_⟩
  case refine_5 =>
    have hsign := fun {t : MmaTerm} => (checkMixedSign_eq_none (t := t)).2 fun _ => .inr hmixed
    refine ⟨?_, ?_, ?_, ?_⟩ <;>
      exact completes_of_fit (f := formK16 _ _ _) rfl (fun _ => rfl) rfl hsign hp hall hfit (result _ _ _)
  all_goals exact completes_of_fit (f := formK16 _ _ _) rfl (fun _ => rfl) rfl rfl hp hall hfit (result _ _ _)

/-- Settles O22: the cells are those R170 writes out. -/
theorem completesM8n8k32 : Obligations.CompletesM8n8k32 := by
  intro d a b c s p hp hall hfit
  have result : ∀ atype btype mode l, ∀ j < 2, (formK32 atype btype mode).result s ⟨d, a, b, c⟩ l j =
      .w32 (finish mode (sumK32 atype btype s ⟨d, a, b, c⟩ l j)) := fun atype btype mode l j hj =>
    (packRegister_word rfl _ j).trans (congrArg _ (cell_formK32 atype btype mode s ⟨d, a, b, c⟩ l hj))
  refine ⟨?_, ?_, ?_, ?_, fun hmixed => ?_⟩
  case refine_5 =>
    have hsign := fun {t : MmaTerm} => (checkMixedSign_eq_none (t := t)).2 fun _ => .inr hmixed
    refine ⟨?_, ?_, ?_, ?_⟩ <;>
      exact completes_of_fit (f := formK32 _ _ _) rfl (fun _ => rfl) rfl hsign hp hall hfit (result _ _ _)
  all_goals exact completes_of_fit (f := formK32 _ _ _) rfl (fun _ => rfl) rfl rfl hp hall hfit (result _ _ _)

end Sys2Proof.Machine

/-! SUPPORT. Proofs of the worked examples: the integer forms (`43_mma_m8n8k16.md` R152 to R155, `44_mma_m8n8k32.md` R172
to R175) and, under the named property R85 of the numeric functions, the floating-point forms (`41_mma_m8n8k4_f16.md`
R112 to R115, `42_mma_m8n8k4_f64.md` R135). -/

namespace Sys2Proof.Machine

/-! ## Registers with one value throughout -/

section
variable {s : State} {v : Vec} {x : Value}

theorem reg_of_allEqual (h : AllEqual s v x) (l : Lane) {i : Nat} (hi : i < v.length) : s.reg l (v.getD i []) = x := by
  rw [List.getD_eq_getElem _ _ hi, State.reg, h l _ (List.getElem_mem hi)]
  rfl

theorem allHold_of_allEqual {a b c : Vec} {y z : Value} (ha : AllEqual s a x) (hb : AllEqual s b y)
    (hc : AllEqual s c z) : AllHold s (a ++ b ++ c) := by
  intro l r hr
  simp only [List.mem_append] at hr
  rcases hr with (hr | hr) | hr
  · rw [ha l r hr]; rfl
  · rw [hb l r hr]; rfl
  · rw [hc l r hr]; rfl

theorem word_of_allEqual {w : BitVec 32} (h : AllEqual s v (.w32 w)) (l : Lane) {i : Nat} (hi : i < v.length) :
    word s l v i = w := by
  rw [word, reg_of_allEqual h l hi]
  rfl

/-- Both halves of a register that repeats one half. -/
theorem extractLsb'_append_self (e : BitVec 16) :
    (e ++ e).extractLsb' 0 16 = e ∧ (e ++ e).extractLsb' 16 16 = e := by
  refine ⟨BitVec.eq_of_getLsbD_eq fun b hb => ?low, BitVec.eq_of_getLsbD_eq fun b hb => ?high⟩ <;>
    rw [BitVec.getLsbD_extractLsb', BitVec.getLsbD_append] <;> simp [hb]

theorem half_of_allEqual {e : BitVec 16} (h : AllEqual s v (.w32 (e ++ e))) (l : Lane) {i : Nat} (hi : i / 2 < v.length) :
    half s l v i = e := by
  rw [half, reg_of_allEqual h l hi]
  simp only [Value.bits32, extractLsb'_append_self, ite_self]

end

/-! ## The integer forms -/

/-- The sum of R150 and of R170 where every lane holds the same `a` and `b`, and `c` is zero. -/
def uniformSumK16 (atype btype : ElemType) (va vb : BitVec 32) : Int :=
  ((List.range 16).map (fun k =>
    extend atype (byteOf (.w32 va) (k % 4)) * extend btype (byteOf (.w32 vb) (k % 4)))).sum
def uniformSumK32 (atype btype : ElemType) (va vb : BitVec 32) : Int :=
  ((List.range 32).map (fun k =>
    extend atype (digitOf (.w32 va) (k % 8)) * extend btype (digitOf (.w32 vb) (k % 8)))).sum

section
variable {d a b c : Vec} {s : State} {va vb : BitVec 32}

theorem sumK16_of_allEqual (ha : AllEqual s a (.w32 va)) (hb : AllEqual s b (.w32 vb)) (hc : AllEqual s c (.w32 0))
    (la : a.length = 1) (lb : b.length = 1) (lc : c.length = 2) (atype btype : ElemType) (l : Lane) {i : Nat}
    (hi : i < 2) : sumK16 atype btype s ⟨d, a, b, c⟩ l i = uniformSumK16 atype btype va vb := by
  have ra (m : Lane) := reg_of_allEqual ha m (i := 0) (by omega)
  have rb (m : Lane) := reg_of_allEqual hb m (i := 0) (by omega)
  simp only [sumK16, word_of_allEqual hc l (lc ▸ hi), ra, rb]
  exact zero_add _

theorem sumK32_of_allEqual (ha : AllEqual s a (.w32 va)) (hb : AllEqual s b (.w32 vb)) (hc : AllEqual s c (.w32 0))
    (la : a.length = 1) (lb : b.length = 1) (lc : c.length = 2) (atype btype : ElemType) (l : Lane) {i : Nat}
    (hi : i < 2) : sumK32 atype btype s ⟨d, a, b, c⟩ l i = uniformSumK32 atype btype va vb := by
  have ra (m : Lane) := reg_of_allEqual ha m (i := 0) (by omega)
  have rb (m : Lane) := reg_of_allEqual hb m (i := 0) (by omega)
  simp only [sumK32, word_of_allEqual hc l (lc ▸ hi), ra, rb]
  exact zero_add _

end

/-- An integer form whose sum is the same for every element completes with one value throughout. -/
theorem completes_of_sum_eq {i : Instr} {d : Vec} {s : State} {p : Nat} {S : Lane → Nat → Int} {z : Int}
    {x : BitVec 32} (mode : IntOverflow) (h : Completes i d s p (fun l j => .w32 (finish mode (S l j))))
    (hS : ∀ l, ∀ j < d.length, S l j = z) (hx : finish mode z = x) : Completes i d s p (fun _ _ => .w32 x) :=
  h.congr fun l j hj => by rw [hS l j hj, hx]

/-- Settles O23: the sums of R150 for the words of the examples, in both modes. -/
theorem examplesM8n8k16 : Obligations.ExamplesM8n8k16 := by
  intro d a b c s p va vb hmixed hp hfit hregs
  have ha : AllEqual s a (.w32 va) := fun l => (hregs l).1
  have hb : AllEqual s b (.w32 vb) := fun l => (hregs l).2.1
  have hc : AllEqual s c (.w32 0) := fun l => (hregs l).2.2
  obtain ⟨⟨ld, -⟩, ⟨la, -⟩, ⟨lb, -⟩, ⟨lc, -⟩, -⟩ := id hfit
  have sums (atype btype : ElemType) : ∀ l, ∀ j < d.length,
      sumK16 atype btype s ⟨d, a, b, c⟩ l j = uniformSumK16 atype btype va vb := fun l j hj =>
    sumK16_of_allEqual ha hb hc la lb lc atype btype l (hj.trans_eq ld)
  obtain ⟨ss, ss', uu, uu', mixed⟩ := completesM8n8k16 d a b c s p hp (allHold_of_allEqual ha hb hc) hfit
  obtain ⟨su, su', us, us'⟩ := mixed hmixed
  constructor
  · rintro rfl rfl
    exact ⟨completes_of_sum_eq .wrap ss (sums _ _) (by decide), completes_of_sum_eq .satfinite ss' (sums _ _) (by decide)⟩
  · rintro rfl rfl
    exact ⟨completes_of_sum_eq .wrap su (sums _ _) (by decide), completes_of_sum_eq .satfinite su' (sums _ _) (by decide),
      completes_of_sum_eq .wrap us (sums _ _) (by decide), completes_of_sum_eq .satfinite us' (sums _ _) (by decide),
      completes_of_sum_eq .wrap uu (sums _ _) (by decide), completes_of_sum_eq .satfinite uu' (sums _ _) (by decide)⟩

/-- Settles O24: the sums of R170 for the words of the examples, in both modes. -/
theorem examplesM8n8k32 : Obligations.ExamplesM8n8k32 := by
  intro d a b c s p va vb hmixed hp hfit hregs
  have ha : AllEqual s a (.w32 va) := fun l => (hregs l).1
  have hb : AllEqual s b (.w32 vb) := fun l => (hregs l).2.1
  have hc : AllEqual s c (.w32 0) := fun l => (hregs l).2.2
  obtain ⟨⟨ld, -⟩, ⟨la, -⟩, ⟨lb, -⟩, ⟨lc, -⟩, -⟩ := id hfit
  have sums (atype btype : ElemType) : ∀ l, ∀ j < d.length,
      sumK32 atype btype s ⟨d, a, b, c⟩ l j = uniformSumK32 atype btype va vb := fun l j hj =>
    sumK32_of_allEqual ha hb hc la lb lc atype btype l (hj.trans_eq ld)
  obtain ⟨ss, ss', uu, uu', mixed⟩ := completesM8n8k32 d a b c s p hp (allHold_of_allEqual ha hb hc) hfit
  obtain ⟨su, su', us, us'⟩ := mixed hmixed
  constructor
  · rintro rfl rfl
    exact ⟨completes_of_sum_eq .wrap ss (sums _ _) (by decide), completes_of_sum_eq .satfinite ss' (sums _ _) (by decide)⟩
  · rintro rfl rfl
    exact ⟨completes_of_sum_eq .wrap su (sums _ _) (by decide), completes_of_sum_eq .satfinite su' (sums _ _) (by decide),
      completes_of_sum_eq .wrap us (sums _ _) (by decide), completes_of_sum_eq .satfinite us' (sums _ _) (by decide),
      completes_of_sum_eq .wrap uu (sums _ _) (by decide), completes_of_sum_eq .satfinite uu' (sums _ _) (by decide)⟩

/-! ## The floating-point forms -/

/-- Small natural numbers are exactly representable: they need no more digits than the format has. -/
theorem FloatFormat.represents_natCast {F : FloatFormat} {n : Nat} (hn : n < 2 ^ (F.fracBits + 1))
    (hscale : 2 ^ (F.expBits - 1) - 1 + F.fracBits < 2 ^ F.expBits - 1)
    (hpos : 0 < 2 ^ (F.expBits - 1) - 1 + F.fracBits) : F.Represents n := by
  obtain ⟨k, hk⟩ := Nat.exists_eq_succ_of_ne_zero hpos.ne'
  obtain ⟨ex, frac, hex, hfrac, hmag⟩ := FloatFormat.magnitude_exists k n hn
  have bias : ((2 : Int) ^ (F.expBits - 1) - 1 + F.fracBits) = k + 1 := by
    have one_le := Nat.one_le_two_pow (n := F.expBits - 1)
    zify [one_le] at hk
    exact hk
  have value : ((if false then -1 else 1 : ℚ) * F.magnitude ex frac * F.unit) = n := by
    have cancel : (1 : Int) - (k + 1) = -(k : Int) := by ring
    rw [hmag, FloatFormat.unit, bias, cancel, zpow_neg, zpow_natCast]
    simp
  rw [← value]
  exact FloatFormat.represents_of_fields false (by omega) hfrac

/-- Every sum of some of the numbers `n`, 1, 1, 1, 1 is a natural number up to `n + 4`. -/
theorem sum_of_sublist {n : Nat} {sub : List ℚ} (h : sub.Sublist [(n : ℚ), 1, 1, 1, 1]) :
    ∃ m ≤ n + 4, sub.sum = (m : ℚ) := by
  have cast : [(n : ℚ), 1, 1, 1, 1] = [n, 1, 1, 1, 1].map Nat.cast := by simp
  rw [cast, List.sublist_map_iff] at h
  obtain ⟨ms, hms, rfl⟩ := h
  have le := hms.sum_le_sum fun _ _ => Nat.zero_le _
  exact ⟨ms.sum, by simpa [add_assoc] using le, (Nat.cast_list_sum ms).symm⟩

/-- R85 where all elements of A and B are 1.0 and the accumulator is the number `n`: the result is `n + 4`. -/
theorem dot_ones {wm wc wd n : Nat} {Fm Fc Fd F : FloatFormat}
    {dot : Vector (BitVec wm) 4 → Vector (BitVec wm) 4 → BitVec wc → BitVec wd}
    (hdot : ExactWhenRepresentable Fm Fc Fd F dot) (hF : ∀ m ≤ n + 4, F.Represents m) (hw : Fd.width = wd)
    {one : BitVec wm} (hone : Fm.value one.toNat = some 1) {c : BitVec wc} (hc : Fc.value c.toNat = some (n : ℚ))
    {x : BitVec wd} (hx : Fd.value x.toNat = some ((n + 4 : Nat) : ℚ)) :
    dot (Vector.replicate 4 one) (Vector.replicate 4 one) c = x := by
  have ones : ∀ k : Fin 4, Fm.value ((Vector.replicate 4 one)[k]).toNat = some 1 := by simpa using hone
  have products : (List.finRange 4).map (fun _ => (1 : ℚ) * 1) = [1, 1, 1, 1] := by simp [List.finRange]
  have sum : (n : ℚ) + ([1, 1, 1, 1] : List ℚ).sum = ((n + 4 : Nat) : ℚ) := by norm_num
  obtain ⟨hvalue, -⟩ := hdot (Vector.replicate 4 one) (Vector.replicate 4 one) c (fun _ => 1) (fun _ => 1) n ones ones hc
    (fun _ => by simpa using hF 1 (by omega))
    (fun sub hsub _ => by
      rw [products, List.mem_sublists] at hsub
      obtain ⟨m, hm, hsum⟩ := sum_of_sublist hsub
      rw [hsum]
      exact hF m hm)
  rw [products, sum] at hvalue
  have hne : ((n + 4 : Nat) : ℚ) ≠ 0 := by positivity
  have lt (y : BitVec wd) : y.toNat < 2 ^ Fd.width := by rw [hw]; exact y.isLt
  exact BitVec.eq_of_toNat_eq (FloatFormat.value_inj (lt _) (lt _) (hvalue hne) hx hne)

theorem fmtF16_represents_small : ∀ m : Nat, m ≤ 5 → fmtF16.Represents m := fun _ h =>
  FloatFormat.represents_natCast (F := fmtF16) (h.trans_lt (by decide)) (by decide) (by decide)

theorem fmtF32_represents_small : ∀ m : Nat, m ≤ 5 → fmtF32.Represents m := fun _ h =>
  FloatFormat.represents_natCast (F := fmtF32) (h.trans_lt (by decide)) (by decide) (by decide)

theorem fmtF64_represents_small : ∀ m : Nat, m ≤ 4 → fmtF64.Represents m := fun _ h =>
  FloatFormat.represents_natCast (F := fmtF64) (h.trans_lt (by decide)) (by decide) (by decide)

/-- The patterns of 1, 4 and 5 in each format. -/
theorem value_f16 : fmtF16.value 0x3C00 = some 1 ∧ fmtF16.value 0x4400 = some 4 ∧ fmtF16.value 0x4500 = some 5 := by
  norm_num [FloatFormat.value, FloatFormat.negative, fmtF16]

theorem value_f32 :
    fmtF32.value 0x3F800000 = some 1 ∧ fmtF32.value 0x40800000 = some 4 ∧ fmtF32.value 0x40A00000 = some 5 := by
  norm_num [FloatFormat.value, FloatFormat.negative, fmtF32]

theorem value_f64 : fmtF64.value 0x3FF0000000000000 = some 1 ∧ fmtF64.value 0x4010000000000000 = some 4 := by
  norm_num [FloatFormat.value, FloatFormat.negative, fmtF64]

section
variable {s : State} {v : Vec} {e : BitVec 16}

theorem atA_element_lt (al : Layout) (l : Lane) (r : Nat) {k : Nat} (hk : k < 4) : (atA al l r k).2 < 4 := by
  cases al
  · exact hk
  · exact Nat.mod_lt r (by decide)

theorem atB_element_lt (bl : Layout) (l : Lane) {k : Nat} (n : Nat) (hk : k < 4) : (atB bl l k n).2 < 4 := by
  cases bl
  · exact Nat.mod_lt n (by decide)
  · exact hk

theorem rowOfA_of_allEqual (h : AllEqual s v (.w32 (e ++ e))) (hv : v.length = 2) (al : Layout) (l : Lane) (r : Nat) :
    rowOfA al s v l r = Vector.replicate 4 e := by
  refine Vector.ext fun k hk => ?_
  rw [rowOfA, Vector.getElem_ofFn, Vector.getElem_replicate]
  exact half_of_allEqual h _ (by rw [hv]; exact Nat.div_lt_of_lt_mul (atA_element_lt al l r hk))

theorem colOfB_of_allEqual (h : AllEqual s v (.w32 (e ++ e))) (hv : v.length = 2) (bl : Layout) (l : Lane) (n : Nat) :
    colOfB bl s v l n = Vector.replicate 4 e := by
  refine Vector.ext fun k hk => ?_
  rw [colOfB, Vector.getElem_ofFn, Vector.getElem_replicate]
  exact half_of_allEqual h _ (by rw [hv]; exact Nat.div_lt_of_lt_mul (atB_element_lt bl l n hk))

theorem accCell16_of_allEqual (h : AllEqual s v (.w32 (e ++ e))) (hv : v.length = 4) (l : Lane) {rn : Nat × Nat}
    (hrn : rn.1 < 8 ∧ rn.2 < 8) : accCell16 s v l rn = e := by
  have inside : (atC16 l rn.1 rn.2).2 < 8 := hrn.2
  exact half_of_allEqual h _ (by omega)

theorem accCell32_of_allEqual {w : BitVec 32} (h : AllEqual s v (.w32 w)) (hv : v.length = 8) (l : Lane) {rn : Nat × Nat}
    (hrn : rn.1 < 8 ∧ rn.2 < 8) : accCell32 s v l rn = w :=
  word_of_allEqual h _ (hv ▸ ((locCdF32_inverse l).placed _ hrn.1 _ hrn.2).2.1)

end

/-- A form whose elements all have one value completes with one value throughout: two elements to a register. -/
theorem completes_of_pair_eq {i : Instr} {d : Vec} {s : State} {p : Nat} {e : Lane → Nat → BitVec 16} {x : BitVec 16}
    (h : Completes i d s p (fun l => pair16 (e l))) (hd : d.length = 4) (he : ∀ l, ∀ j < 8, e l j = x) :
    Completes i d s p (fun _ _ => .w32 (x ++ x)) :=
  h.congr fun l _ hj => pair16_congr (he l) (hj.trans_eq hd)

/-- The same for one element to a register. -/
theorem completes_of_word_eq {i : Instr} {d : Vec} {s : State} {p : Nat} {e : Lane → Nat → BitVec 32} {x : BitVec 32}
    (h : Completes i d s p (fun l j => .w32 (e l j))) (hd : d.length = 8) (he : ∀ l, ∀ j < 8, e l j = x) :
    Completes i d s p (fun _ _ => .w32 x) :=
  h.congr fun l j hj => congrArg _ (he l j (hj.trans_eq hd))

section
variable {d a b c : Vec} {s : State} (al bl : Layout) (l : Lane) {i : Nat}

theorem elemF16F16_of_ones (h : ExactF16F16 Config.dotF16F16) (ha : AllEqual s a (.w32 0x3C003C00))
    (hb : AllEqual s b (.w32 0x3C003C00)) (hc : AllEqual s c (.w32 0)) (la : a.length = 2) (lb : b.length = 2)
    (lc : c.length = 4) (hi : i < 8) : elemF16F16 al bl s ⟨d, a, b, c⟩ l i = 0x4400 := by
  have zero : fmtF16.value (0 : BitVec 16).toNat = some ((0 : Nat) : ℚ) := by
    simpa using FloatFormat.value_zero (F := fmtF16) (by decide)
  rw [elemF16F16, rowOfA_of_allEqual (e := 0x3C00) ha la, colOfB_of_allEqual (e := 0x3C00) hb lb,
    accCell16_of_allEqual (e := 0) hc lc l (cellF16_lt l hi)]
  exact dot_ones (one := 0x3C00) h (fun m hm => fmtF16_represents_small m (by omega)) rfl value_f16.1 zero
    (by exact_mod_cast value_f16.2.1)

theorem elemF16F32_of_ones (h : ExactF16F32 Config.dotF16F32) (ha : AllEqual s a (.w32 0x3C003C00))
    (hb : AllEqual s b (.w32 0x3C003C00)) (hc : AllEqual s c (.w32 0x3F800000)) (la : a.length = 2) (lb : b.length = 2)
    (lc : c.length = 8) (hi : i < 8) : elemF16F32 al bl s ⟨d, a, b, c⟩ l i = 0x4500 := by
  rw [elemF16F32, rowOfA_of_allEqual (e := 0x3C00) ha la, colOfB_of_allEqual (e := 0x3C00) hb lb,
    accCell32_of_allEqual hc lc l (cellF16_lt l hi)]
  exact dot_ones (n := 1) (one := 0x3C00) h fmtF16_represents_small rfl value_f16.1 (by exact_mod_cast value_f32.1)
    (by exact_mod_cast value_f16.2.2)

theorem elemF32F16_of_ones (h : ExactF32F16 Config.dotF32F16) (ha : AllEqual s a (.w32 0x3C003C00))
    (hb : AllEqual s b (.w32 0x3C003C00)) (hc : AllEqual s c (.w32 0x3C003C00)) (la : a.length = 2) (lb : b.length = 2)
    (lc : c.length = 4) (hi : i < 8) : elemF32F16 al bl s ⟨d, a, b, c⟩ l i = 0x40A00000 := by
  rw [elemF32F16, rowOfA_of_allEqual (e := 0x3C00) ha la, colOfB_of_allEqual (e := 0x3C00) hb lb,
    accCell16_of_allEqual (e := 0x3C00) hc lc l (cellF32_lt l hi)]
  exact dot_ones (n := 1) (one := 0x3C00) h fmtF16_represents_small rfl value_f16.1 (by exact_mod_cast value_f16.1)
    (by exact_mod_cast value_f32.2.2)

theorem elemF32F32_of_ones (h : ExactF32F32 Config.dotF32F32) (ha : AllEqual s a (.w32 0x3C003C00))
    (hb : AllEqual s b (.w32 0x3C003C00)) (hc : AllEqual s c (.w32 0)) (la : a.length = 2) (lb : b.length = 2)
    (lc : c.length = 8) (hi : i < 8) : elemF32F32 al bl s ⟨d, a, b, c⟩ l i = 0x40800000 := by
  have zero : fmtF32.value (0 : BitVec 32).toNat = some ((0 : Nat) : ℚ) := by
    simpa using FloatFormat.value_zero (F := fmtF32) (by decide)
  rw [elemF32F32, rowOfA_of_allEqual (e := 0x3C00) ha la, colOfB_of_allEqual (e := 0x3C00) hb lb,
    accCell32_of_allEqual hc lc l (cellF32_lt l hi)]
  exact dot_ones (one := 0x3C00) h (fun m hm => fmtF32_represents_small m (by omega)) rfl value_f16.1 zero
    (by exact_mod_cast value_f32.2.1)

theorem elemF64_of_ones (h : ExactF64 Config.dotF64) (ha : AllEqual s a (.w64 0x3FF0000000000000))
    (hb : AllEqual s b (.w64 0x3FF0000000000000)) (hc : AllEqual s c (.w64 0)) (la : a.length = 1) (lb : b.length = 1)
    (lc : c.length = 2) (hi : i < 2) : elemF64 s ⟨d, a, b, c⟩ l i = 0x4010000000000000 := by
  have ra (m : Lane) := reg_of_allEqual ha m (i := 0) (by omega)
  have rb (m : Lane) := reg_of_allEqual hb m (i := 0) (by omega)
  have ones : (Vector.ofFn fun _ : Fin 4 => (0x3FF0000000000000 : BitVec 64)) = Vector.replicate 4 0x3FF0000000000000 :=
    Vector.ext fun k hk => by rw [Vector.getElem_ofFn, Vector.getElem_replicate]
  have zero : fmtF64.value (0 : BitVec 64).toNat = some ((0 : Nat) : ℚ) := by
    simpa using FloatFormat.value_zero (F := fmtF64) (by decide)
  simp only [elemF64, ra, rb, reg_of_allEqual hc l (lc ▸ hi), Value.bits64, ones]
  exact dot_ones (one := 0x3FF0000000000000) h (fun m hm => fmtF64_represents_small m (by omega)) rfl value_f64.1 zero
    (by exact_mod_cast value_f64.2)

end

/-- Settles O25: R85 gives one value for every element (`dot_ones`), and the completed forms store it. -/
theorem exactDotExamples : Obligations.ExactDotExamples := by
  intro d a b c s p hp
  simp only [List.forall_mem_cons, List.not_mem_nil, false_implies, implies_true, and_true]
  have split : ∀ {x : Value}, AllEqual s (a ++ b) x → AllEqual s a x ∧ AllEqual s b x := fun h =>
    ⟨fun l r hr => h l r (List.mem_append_left b hr), fun l r hr => h l r (List.mem_append_right a hr)⟩
  refine ⟨fun h hfit hab hc => ?_, fun h hmixed hfit hab hc => ?_, fun h hmixed hfit hab hc => ?_,
    fun h hfit hab hc => ?_, fun h hfit hab hc => ?_⟩ <;> obtain ⟨ha, hb⟩ := split hab <;>
    obtain ⟨⟨ld, -⟩, ⟨la, -⟩, ⟨lb, -⟩, ⟨lc, -⟩, -⟩ := id hfit
  · obtain ⟨rr, rc, cr, cc⟩ := completesF16F16 d a b c s p hp (allHold_of_allEqual ha hb hc) hfit
    have elem al bl l j := elemF16F16_of_ones (d := d) (i := j) al bl l h ha hb hc la lb lc
    exact ⟨completes_of_pair_eq rr ld (elem _ _), completes_of_pair_eq rc ld (elem _ _),
      completes_of_pair_eq cr ld (elem _ _), completes_of_pair_eq cc ld (elem _ _)⟩
  · obtain ⟨rr, rc, cr, cc⟩ := completesF16F32 d a b c s p hmixed hp (allHold_of_allEqual ha hb hc) hfit
    have elem al bl l j := elemF16F32_of_ones (d := d) (i := j) al bl l h ha hb hc la lb lc
    exact ⟨completes_of_pair_eq rr ld (elem _ _), completes_of_pair_eq rc ld (elem _ _),
      completes_of_pair_eq cr ld (elem _ _), completes_of_pair_eq cc ld (elem _ _)⟩
  · obtain ⟨rr, rc, cr, cc⟩ := completesF32F16 d a b c s p hmixed hp (allHold_of_allEqual ha hb hc) hfit
    have elem al bl l j := elemF32F16_of_ones (d := d) (i := j) al bl l h ha hb hc la lb lc
    exact ⟨completes_of_word_eq rr ld (elem _ _), completes_of_word_eq rc ld (elem _ _),
      completes_of_word_eq cr ld (elem _ _), completes_of_word_eq cc ld (elem _ _)⟩
  · obtain ⟨rr, rc, cr, cc⟩ := completesF32F32 d a b c s p hp (allHold_of_allEqual ha hb hc) hfit
    have elem al bl l j := elemF32F32_of_ones (d := d) (i := j) al bl l h ha hb hc la lb lc
    exact ⟨completes_of_word_eq rr ld (elem _ _), completes_of_word_eq rc ld (elem _ _),
      completes_of_word_eq cr ld (elem _ _), completes_of_word_eq cc ld (elem _ _)⟩
  · exact (completesF64 d a b c s p hp (allHold_of_allEqual ha hb hc) hfit).congr fun l j hj =>
      congrArg _ (elemF64_of_ones l h ha hb hc la lb lc (hj.trans_eq ld))

end Sys2Proof.Machine
